-- ==== Sys2Proof/Word.lean ====
section
/-!
DEFINITION. The widths every other file uses: one 64-bit container for every XLEN-bit value (an RV32 value is held
zero-extended, assumption log 2), bytes, CSR addresses and register numbers.
-/

namespace Sys2Proof

/-- A value of up to XLEN bits (10_state.md R34), XLEN being 32 or 64: an RV32 value has its bits 63:32 clear. -/
abbrev Word := BitVec 64

/-- The smallest addressable unit of memory (20_memory.md R220). -/
abbrev Byte := BitVec 8

/-- `csr[11:0]`, one of 4096 CSR addresses (10_state.md R41). -/
abbrev CsrAddr := BitVec 12

/-- The number of an integer register, a 5-bit field of the instruction (10_state.md R31). -/
abbrev Reg := Fin 32

end Sys2Proof
end

