-- ==== Sys2Proof/Config.lean ====
section
/-!
DEFINITION. What an implementation fixes (00_scope.md R7) and the free values. The parameters are PLAIN DATA, held in
the field `cfg` of State and changed by no step, so that every statement over states is a statement over every
implementation (assumption log 1). The free values are OPAQUE functions: nothing in Lean can evaluate one, so what is
proved holds whatever they are (assumption log 6).
-/

namespace Sys2Proof

/-- The privilege levels (10_state.md R40, Table 1.1): user, supervisor, hypervisor, machine. -/
inductive Priv where
  | u | s | h | m
deriving DecidableEq, Repr

/-- The base integer ISAs the spec admits (11_state_machine_csrs.md R93; RV128I is refused by 92_eei_decisions.md D1). -/
inductive BaseIsa where
  | rv32i | rv32e | rv64i
deriving DecidableEq, Repr

/-- The supported combinations of privilege modes (10_state.md R40, Table 1.2). -/
inductive Modes where
  | m | mu | msu | mhsu
deriving DecidableEq, Repr

/-- Which of the two standard trap-vector bases `mtvec` holds after reset (11_state_machine_csrs.md R119). -/
inductive VectorPlacement where
  | high | low
deriving DecidableEq, Repr

/-- Treatment of an ERET that would raise the privilege level (92_eei_decisions.md D39). -/
inductive EretEscalation where
  | literal | refuse
deriving DecidableEq, Repr

/-- Instruction alignment IALIGN, in bits (20_memory.md R224, 92_eei_decisions.md D42). -/
inductive Ialign where
  | i16 | i32
deriving DecidableEq, Repr

/-- The kinds of access a physical memory attribute distinguishes (20_memory.md R230). -/
inductive PhysAcc where
  | fetch | load | store | amo | pteRead | pteWrite
deriving DecidableEq, Repr

/-- What stands behind a physical region: memory (RAM or ROM), or a device whose behaviour the spec leaves to the
platform (20_memory.md R234). -/
inductive RegionKind where
  | memory | device
deriving DecidableEq, Repr

/-- One region of the physical memory map with its attributes (20_memory.md R230, R234): the accesses and the access
widths (in bytes) it supports. An address in no region does not exist (R235). -/
structure PmaRegion where
  base : Nat
  size : Nat
  kind : RegionKind
  accs : List PhysAcc
  widths : List Nat
deriving DecidableEq, Repr

/-- One grant of the per-hart physical access control (20_memory.md R232): the modes `privs` may make the accesses
`accs` in the region. What no grant covers is refused. A grant of `store` is what an AMO needs (R228, R247). -/
structure AccessGrant where
  base : Nat
  size : Nat
  privs : List Priv
  accs : List PhysAcc
deriving DecidableEq, Repr

/-- One CSR an implementation adds (EXTRA_CSRS; 10_state.md R51, 11_state_machine_csrs.md R155): the non-standard
addresses it answers to (an address and its shadows), the bits a write changes, whether it is state of the extension that
`mstatus.XS` tracks (R110), and whether another agent changes it between instructions (assumption log 32). -/
structure ExtraCsr where
  addrs : List CsrAddr
  mask : Word
  unitX : Bool
  external : Bool
deriving DecidableEq, Repr

/-- One machine-level interrupt source an implementation adds (EXTRA_INTERRUPTS; 11_state_machine_csrs.md R135): its bit
in `mip` and `mie`, its cause code, and whether a write of `mip` changes its pending bit (assumption log 32). -/
structure ExtraInterrupt where
  bit : Nat
  code : BitVec 4
  writable : Bool
deriving DecidableEq, Repr

/-- One trap entry point an implementation adds (EXTRA_VECTORS; 11_state_machine_csrs.md R121, 60_exceptions.md R441): a
machine-level trap of this cause from one of these levels goes to `mtvec + offset` (assumption log 32). -/
structure ExtraVector where
  interrupt : Bool
  code : BitVec 4
  levels : List Priv
  offset : Word
deriving DecidableEq, Repr

/-- The implementation parameters of 00_scope.md R7. -/
structure Config where
  /-- Base ISA; it gives XLEN (11_state_machine_csrs.md R93). -/
  base : BaseIsa
  /-- MODES. -/
  modes : Modes
  /-- VM_SUPPORTED, as one flag per scheme; Mbare is always supported. -/
  mbb : Bool
  mbbid : Bool
  sv32 : Bool
  sv39 : Bool
  sv48 : Bool
  /-- HAS_F, HAS_X: whether `mstatus.FS`, `mstatus.XS` are live. -/
  hasF : Bool
  hasX : Bool
  /-- IALIGN. -/
  ialign : Ialign
  /-- MCPUID, MIMPID, MHARTID. -/
  mcpuid : Word
  mimpid : Word
  mhartid : Word
  /-- MTVEC_RESET and MTVEC_WMASK. -/
  mtvecReset : VectorPlacement
  mtvecWmask : Word
  /-- MTDELEG_WMASK and HTDELEG_WMASK. -/
  mtdelegWmask : Word
  htdelegWmask : Word
  /-- ASIDLEN. -/
  asidlen : Nat
  /-- PALEN. -/
  palen : Nat
  /-- PMA, the physical memory map with its attributes. -/
  pma : List PmaRegion
  /-- PMACCESS, the per-hart access control. -/
  pmaccess : List AccessGrant
  /-- CSRRWI_ZIMM0_WRITES. -/
  csrrwiZimm0Writes : Bool
  /-- MISALIGNED_DATA_OK. -/
  misalignedDataOk : Bool
  /-- ERET_ESCALATION. -/
  eretEscalation : EretEscalation
  /-- HAS_NMI. -/
  hasNmi : Bool
  /-- Whether a remote hart or a platform device can write this hart's `mip.MSIP` (11_state_machine_csrs.md R131). -/
  remoteMsip : Bool
  /-- EXTRA_CSRS, EXTRA_INTERRUPTS and EXTRA_VECTORS. -/
  extraCsrs : List ExtraCsr
  extraInterrupts : List ExtraInterrupt
  extraVectors : List ExtraVector
  /-- Whether some non-standard extension is present that the other fields do not show: one with no state of the
  privileged architecture (11_state_machine_csrs.md R94, bit X; assumption log 45). -/
  otherNonStandard : Bool
deriving DecidableEq, Repr

/-- The configuration the spec recommends for a first model (92_eei_decisions.md, last section; CFG-A of
95_test_vectors.md), with RAM over the whole machine-physical address space, open to every access. -/
def Config.recommended : Config where
  base := .rv64i
  modes := .msu
  mbb := false
  mbbid := false
  sv32 := false
  sv39 := true
  sv48 := false
  hasF := false
  hasX := false
  ialign := .i32
  mcpuid := 0
  mimpid := 0
  mhartid := 0
  mtvecReset := .low
  mtvecWmask := 0
  mtdelegWmask := 0x220FFF
  htdelegWmask := 0
  asidlen := 0
  palen := 50
  pma := [{ base := 0, size := 2 ^ 50, kind := .memory,
            accs := [.fetch, .load, .store, .amo, .pteRead, .pteWrite], widths := [1, 2, 4, 8] }]
  pmaccess := [{ base := 0, size := 2 ^ 50, privs := [.u, .s, .h],
                 accs := [.fetch, .load, .store, .pteRead, .pteWrite] }]
  csrrwiZimm0Writes := true
  misalignedDataOk := false
  eretEscalation := .literal
  hasNmi := false
  remoteMsip := false
  extraCsrs := []
  extraInterrupts := []
  extraVectors := []
  otherNonStandard := false

/-! ## Free values

Each is applied to the counter `State.draws`, which every use of one advances (00_scope.md R12: an unspecified value is
a draw, never a fixed number). -/

/-- What a bad-address register holds after a trap that does not define it (60_exceptions.md R424). -/
opaque Config.undefinedBadaddr : Nat → Word

/-- What `mcause` holds after a non-maskable interrupt (60_exceptions.md R436): Interrupt bit and code. -/
opaque Config.nmiCause : Nat → Bool × BitVec 4

/-- Which of several enabled interrupts is taken (60_exceptions.md R437). -/
opaque Config.interruptPick : Nat → Nat

/-- Whether a WFI stalls the hart when nothing is pending (43_wfi.md R390). -/
opaque Config.wfiStalls : Nat → Bool

/-- Whether a stalled hart wakes for no cause (43_wfi.md R390). -/
opaque Config.spuriousWake : Nat → Bool

/-- By how many ticks beyond the first the real-time value advances at a boundary where it ticks, and for how many
boundaries after that it stands still (60_exceptions.md R470; assumption log 8). -/
opaque Config.rtcAdvance : Nat → Nat
opaque Config.rtcHold : Nat → Nat

/-- By how much `cycle` advances at a boundary, and `instret` for an instruction (10_state.md R55, R57). -/
opaque Config.cycleAdvance : Nat → Nat
opaque Config.instretAdvance : Nat → Nat

/-- A remote write of `mip.MSIP` at a boundary: none, or the value written (11_state_machine_csrs.md R131). -/
opaque Config.remoteMsipWrite : Nat → Option Bool

/-- The pending bits of the added interrupt sources after a boundary (11_state_machine_csrs.md R135). -/
opaque Config.extraPending : Nat → Word

/-- What another agent writes to an added CSR at a boundary: nothing, or a value; draw, place in EXTRA_CSRS. -/
opaque Config.extraCsrUpdate : Nat → Nat → Option Word

/-- Whether a non-maskable interrupt arrives at a boundary, and whether one that was taken is still pending
(60_exceptions.md R436: neither is given). -/
opaque Config.nmiArrives : Nat → Bool
opaque Config.nmiStays : Nat → Bool

/-- Which usable entry of the translation cache, or memory, a walk uses at a level (20_memory.md R245): draw, level. -/
opaque Config.tcChoice : Nat → Nat → Nat

/-- Whether a PTE read by a walk is added to the translation cache (20_memory.md R245): draw, level. -/
opaque Config.tcAdds : Nat → Nat → Bool

/-- Whether an entry of the translation cache survives a boundary (20_memory.md R245): draw, its place in the list. -/
opaque Config.tcKeeps : Nat → Nat → Bool

/-- Where `fflags` and `frm` stand in `fcsr` and how wide they are (10_state.md R54 gives neither; assumption log 18). -/
opaque Config.fflagsShift : Nat
opaque Config.fflagsWidth : Nat
opaque Config.frmShift : Nat
opaque Config.frmWidth : Nat

end Sys2Proof
end

