-- ==== Sys2Proof/Machine/Params.lean ====
section
/-!
DEFINITION. What follows from the configuration: widths, modes, stack depth, supported schemes, reset vectors, writable
masks, and the constraints between the parameters (00_scope.md R7, R8).
-/

namespace Sys2Proof

/-! ### Privilege levels (10_state.md R40) -/

/-- The number of a level, U = 0 < S = 1 < H = 2 < M = 3. -/
def Priv.level : Priv → Nat
  | .u => 0
  | .s => 1
  | .h => 2
  | .m => 3

/-- The 2-bit encoding of Table 1.1. -/
def Priv.bits : Priv → BitVec 2
  | .u => 0b00
  | .s => 0b01
  | .h => 0b10
  | .m => 0b11

/-- The level a 2-bit encoding names. -/
def Priv.ofBits (b : BitVec 2) : Priv :=
  if b = 0b00 then .u else if b = 0b01 then .s else if b = 0b10 then .h else .m

/-! ### Width -/

/-- XLEN (11_state_machine_csrs.md R93). -/
def Config.xlen (c : Config) : Nat :=
  match c.base with
  | .rv64i => 64
  | .rv32i | .rv32e => 32

def Config.isRv32 (c : Config) : Bool :=
  match c.base with
  | .rv64i => false
  | .rv32i | .rv32e => true

/-- A value modulo `2^XLEN` (00_scope.md R10). -/
def Config.trunc (c : Config) (v : Word) : Word :=
  if c.isRv32 then (v.setWidth 32).setWidth 64 else v

/-- The value with only bit XLEN-1 set. -/
def Config.signBit (c : Config) : Word :=
  if c.isRv32 then 0x80000000 else 0x8000000000000000

/-- Bit XLEN-1 of a value. -/
def Config.topBit (c : Config) (v : Word) : Bool :=
  v.getLsbD (c.xlen - 1)

/-- How many integer registers the base ISA has (10_state.md R32). -/
def Config.nregs (c : Config) : Nat :=
  match c.base with
  | .rv32e => 16
  | .rv32i | .rv64i => 32

/-! ### Modes (10_state.md R40) -/

/-- The mode is supported. -/
def Config.has (c : Config) (p : Priv) : Bool :=
  match c.modes, p with
  | _, .m => true
  | .m, _ => false
  | .mu, p => p = .u
  | .msu, p => p = .u || p = .s
  | .mhsu, _ => true

/-- DEPTH of the privilege stack, `max(2, |MODES|)` (11_state_machine_csrs.md R103). -/
def Config.depth (c : Config) : Nat :=
  match c.modes with
  | .m => 2
  | .mu => 2
  | .msu => 3
  | .mhsu => 4

/-- LOWEST, the lowest supported level (R104). -/
def Config.lowest (c : Config) : Priv :=
  match c.modes with
  | .m => .m
  | .mu | .msu | .mhsu => .u

/-! ### Virtualization schemes (11_state_machine_csrs.md R107) -/

/-- A value `mstatus.VM` may hold: one of VM_SUPPORTED. -/
def Config.vmSupported (c : Config) (vm : BitVec 5) : Bool :=
  vm = 0 || (vm = 1 && c.mbb) || (vm = 2 && c.mbbid) || (vm = 8 && c.sv32) || (vm = 9 && c.sv39)
    || (vm = 10 && c.sv48)

/-- A paged scheme is supported (10_state.md R53). -/
def Config.paged (c : Config) : Bool :=
  c.sv32 || c.sv39 || c.sv48

/-! ### Alignment -/

/-- IALIGN in bytes (20_memory.md R224). -/
def Config.ialignBytes (c : Config) : Nat :=
  match c.ialign with
  | .i16 => 2
  | .i32 => 4

/-- An epc register's value: the low bits that IALIGN makes always zero are cleared (11_state_machine_csrs.md R142). -/
def Config.alignEpc (c : Config) (v : Word) : Word :=
  match c.ialign with
  | .i16 => c.trunc v &&& ~~~1
  | .i32 => c.trunc v &&& ~~~3

/-- A trap-vector register below M: bits 1:0 hard-wired zero (12_state_supervisor_csrs.md R175). -/
def Config.alignTvec (c : Config) (v : Word) : Word :=
  c.trunc v &&& ~~~3

/-! ### Trap vectors (11_state_machine_csrs.md R119, R120) -/

/-- The standard value of `mtvec` after reset: `2^XLEN - 0x200` or `0x100`. -/
def Config.resetMtvec (c : Config) : Word :=
  match c.mtvecReset with
  | .high => c.trunc (0 - 0x200)
  | .low => 0x100

/-- The standard reset vector: `2^XLEN - 0x100` or `0x200`, which is the reset value of `mtvec` plus `0x100` (R121). -/
def Config.resetVector (c : Config) : Word :=
  c.trunc (c.resetMtvec + 0x100)

/-- The non-writable bits from bit `n - 1` down to the next writable bit: those that take the sign bit's value. -/
def mtvecFillBelow (mask : Word) : Nat → Word
  | 0 => 0
  | n + 1 => if mask.getLsbD n then 0 else (1#64 <<< n) ||| mtvecFillBelow mask n

/-- What `mtvec` holds after a write of `v` (R120): nothing changes where MTVEC_WMASK is 0; otherwise each writable bit
comes from `v`, the non-writable bits between bit XLEN-1 and the next lower writable bit take `v`'s bit XLEN-1, and every
other bit keeps its hard-wired value, the one it has at reset. -/
def Config.writeMtvec (c : Config) (v : Word) : Word :=
  if c.mtvecWmask = 0 then c.resetMtvec
  else
    let fill := mtvecFillBelow c.mtvecWmask (c.xlen - 1) &&& ~~~3
    let kept := c.resetMtvec &&& ~~~(c.mtvecWmask ||| fill)
    c.trunc (kept ||| (v &&& c.mtvecWmask) ||| (if c.topBit v then fill else 0)) &&& ~~~3

/-! ### What an implementation adds (10_state.md R44, R51; 11_state_machine_csrs.md R121, R135) -/

/-- The addresses Table 2.1 gives to non-standard use (10_state.md R44), by `csr[11:10]`, `csr[9:8]` and `csr[7:6]`. -/
def csrNonStandard (a : CsrAddr) : Bool :=
  let use := a.extractLsb' 10 2
  let top := a.extractLsb' 6 2
  if a.extractLsb' 8 2 = 0 then use = 0b10 || (use = 0b11 && top = 0b11)
  else (use = 0b01 && top.getLsbD 1) || (use = 0b10 && top = 0b11) || (use = 0b11 && top = 0b11)

/-- The word with the bits of a list set. -/
def bitsAt : List Nat → Word
  | [] => 0
  | b :: rest => 1#64 <<< b ||| bitsAt rest

/-- The bits of `mip` and `mie` that belong to added sources: above the eight the spec lays out (R129, R133, R135). -/
def Config.extraIntBits (c : Config) : Word :=
  c.trunc (bitsAt (c.extraInterrupts.map (·.bit))) &&& ~~~0xFF

/-- Those of them whose pending bit a write of `mip` changes. -/
def Config.extraIntWritable (c : Config) : Word :=
  c.trunc (bitsAt ((c.extraInterrupts.filter (·.writable)).map (·.bit))) &&& ~~~0xFF

/-- The entry point of a machine-level trap, as an offset from `mtvec` (R121; 60_exceptions.md R441): an added one for
the cause and the level it came from, else the level's of the four. -/
def Config.entryOffset (c : Config) (interrupt : Bool) (code : BitVec 4) (from_ : Priv) : Word :=
  match c.extraVectors.find? fun v => v.interrupt = interrupt && v.code = code && v.levels.contains from_ with
  | some v => v.offset
  | none => BitVec.ofNat 64 (from_.level * 0x40)

/-! ### Delegation (11_state_machine_csrs.md R124, R126) -/

/-- The delegation bits with a defined trap: synchronous codes 0 to 11, and `mip` shifted left by 16. -/
def Config.delegDefined (c : Config) : Word :=
  (0xEE0FFF : Word) ||| c.trunc (c.extraIntBits <<< 16)

/-- The writable bits of `mtdeleg`: none where neither H nor S is implemented (R125). -/
def Config.mtdelegMask (c : Config) : Word :=
  if c.has .s || c.has .h then c.mtdelegWmask &&& c.delegDefined else 0

/-- The writable bits of `htdeleg` (12_state_supervisor_csrs.md R196). -/
def Config.htdelegMask (c : Config) : Word :=
  if c.has .h then c.htdelegWmask &&& c.delegDefined else 0

/-- The bits of `sasid` (12_state_supervisor_csrs.md R189). -/
def Config.sasidMask (c : Config) : Word :=
  BitVec.ofNat 64 (2 ^ c.asidlen - 1)

/-! ### Physical addresses -/

/-- The machine-physical address of a supervisor-physical one: modulo `2^PALEN` (21_translation.md R265). -/
def Config.physical (c : Config) (a : Word) : Nat :=
  a.toNat % 2 ^ c.palen

/-- The region holds the `n` bytes at `pa`. -/
def PmaRegion.covers (r : PmaRegion) (pa n : Nat) : Bool :=
  decide (r.base ≤ pa) && decide (pa + n ≤ r.base + r.size)

/-- PMA (20_memory.md R230): some region holds the bytes and supports the access at its width. -/
def Config.pmaOk (c : Config) (acc : PhysAcc) (pa n : Nat) : Bool :=
  c.pma.any fun r => r.covers pa n && r.accs.contains acc && r.widths.contains n

/-- The bytes lie in a device region (20_memory.md R234). -/
def Config.isDevice (c : Config) (pa n : Nat) : Bool :=
  c.pma.any fun r => r.covers pa n && decide (r.kind = .device)

/-- PMACCESS (20_memory.md R232): some grant lets the mode make the access at `pa`. -/
def Config.pmaccessOk (c : Config) (acc : PhysAcc) (pa : Nat) (p : Priv) : Bool :=
  c.pmaccess.any fun g =>
    decide (g.base ≤ pa) && decide (pa < g.base + g.size) && g.privs.contains p && g.accs.contains acc

/-! ### Constraints between the parameters (00_scope.md R8; 11_state_machine_csrs.md R92 to R94, R120) -/

/-- Some non-standard extension is present (R94, R116): one with state that XS tracks, one with CSRs, or another. -/
def Config.nonStandard (c : Config) : Bool :=
  c.hasX || !c.extraCsrs.isEmpty || c.otherNonStandard

/-- `mcpuid` is 0 or agrees with the other parameters: `Base` names the base ISA, bits XLEN-3:26 are zero, the I, E, U,
S, H and X bits are as R94 fixes them, and bit F says whether there is a floating-point unit. -/
def Config.mcpuidValid (c : Config) : Bool :=
  let baseCode : Word :=
    match c.base with
    | .rv32i => 0
    | .rv32e => 1
    | .rv64i => 2
  c.mcpuid = 0 ||
    (c.mcpuid &&& ~~~(0x3FFFFFF : Word) = baseCode <<< (c.xlen - 2)
      && c.mcpuid.getLsbD 8 = decide (c.base ≠ .rv32e)
      && c.mcpuid.getLsbD 4 = decide (c.base = .rv32e)
      && c.mcpuid.getLsbD 20 = c.has .u && c.mcpuid.getLsbD 18 = c.has .s && c.mcpuid.getLsbD 7 = c.has .h
      && c.mcpuid.getLsbD 23 = c.nonStandard && c.mcpuid.getLsbD 5 = c.hasF)

/-- A non-zero MTVEC_WMASK has bits 1:0 clear and the sign bit set, and both standard values can be written (R120). -/
def Config.mtvecValid (c : Config) : Bool :=
  c.mtvecWmask = 0 ||
    (c.mtvecWmask &&& 3 = 0 && c.trunc c.mtvecWmask = c.mtvecWmask && c.topBit c.mtvecWmask
      && c.writeMtvec 0x100 = 0x100 && c.writeMtvec (c.trunc (0 - 0x200)) = c.trunc (0 - 0x200))

/-- No entry of a list stands in it twice. -/
def noRepeats {α : Type} [DecidableEq α] : List α → Bool
  | [] => true
  | a :: rest => !rest.contains a && noRepeats rest

/-- Added CSRs stand at non-standard addresses, no two at one, and are state of XS only where XS is live; added sources
have bits of their own above the standard ones and codes that R422 leaves; added entry points are aligned. -/
def Config.extrasValid (c : Config) : Bool :=
  (c.extraCsrs.all fun e => e.addrs.all csrNonStandard && (!e.unitX || c.hasX))
    && noRepeats (c.extraCsrs.flatMap (·.addrs))
    && (c.extraInterrupts.all fun e => decide (8 ≤ e.bit) && decide (e.bit < c.xlen) && decide (2 ≤ e.code.toNat))
    && noRepeats (c.extraInterrupts.map (·.bit))
    && c.extraVectors.all fun v => c.trunc v.offset = v.offset && v.offset &&& 3 = 0

/-- The parameters form a machine the spec admits. -/
def Config.valid (c : Config) : Bool :=
  (!c.mbbid || c.mbb) && (!c.mbb || c.has .u)
    && (!c.sv32 || (c.has .s && c.isRv32)) && (!c.sv39 || (c.has .s && !c.isRv32))
    && (!c.sv48 || (c.has .s && !c.isRv32))
    && decide (c.asidlen ≤ c.xlen) && decide (c.palen ≤ 64)
    && c.trunc c.mcpuid = c.mcpuid && c.trunc c.mimpid = c.mimpid && c.trunc c.mhartid = c.mhartid
    && c.mcpuidValid && c.mtvecValid && c.extrasValid
    && c.pma.all fun r => r.kind = .memory || (!r.accs.contains .pteRead && !r.accs.contains .pteWrite)

end Sys2Proof
end

