-- ==== Sys2Proof/Machine/State.lean ====
section
/-!
DEFINITION. The state of one hart and of the memory it reaches: all of 10_state.md R71's table, as plain data. A field
that the spec hard-wires or computes at a read (x0, SD, fflags, frm, the views) is not stored.
-/

namespace Sys2Proof.Machine

/-- One entry of the privilege stack of `mstatus`: a mode and its interrupt enable (11_state_machine_csrs.md R100). -/
structure StackEntry where
  prv : Priv
  ie : Bool
deriving DecidableEq, Repr

/-- The stored fields of `mstatus` (R100). `SD` is computed (R111); bits XLEN-2:22 are hard-wired 0. -/
structure Mstatus where
  /-- Bits 21:17, the virtualization scheme (R106). -/
  vm : BitVec 5
  /-- Bit 16, memory privilege (R108). -/
  mprv : Bool
  /-- Bits 15:14 and 13:12, status of the extension and of the floating-point state (R110). -/
  xs : BitVec 2
  fs : BitVec 2
  /-- Entries 3 to 0 of the stack, bits 3k+2:3k; entry 0 is the current mode and enable (R101, R102). -/
  e3 : StackEntry
  e2 : StackEntry
  e1 : StackEntry
  e0 : StackEntry
deriving DecidableEq, Repr

/-- The live bits of `mip` or of `mie` (11_state_machine_csrs.md R129, R133): software and timer, per level, and those of
the sources an implementation adds, in their places in the word (R135). -/
structure IntBits where
  ssi : Bool
  hsi : Bool
  msi : Bool
  sti : Bool
  hti : Bool
  mti : Bool
  extra : Word
deriving DecidableEq, Repr

/-- A cause register: the Interrupt bit and the 4-bit code; the bits between are hard-wired 0 (11_state_machine_csrs.md
R145). -/
structure Cause where
  interrupt : Bool
  code : BitVec 4
deriving DecidableEq, Repr

/-- The trap registers of one level: scratch, exception pc, cause, bad address (60_exceptions.md R458). -/
structure TrapRegs where
  scratch : Word
  epc : Word
  cause : Cause
  badaddr : Word
deriving DecidableEq, Repr

/-- The base-and-bound registers (11_state_machine_csrs.md R151, R152). -/
structure Segments where
  mbase : Word
  mbound : Word
  mibase : Word
  mibound : Word
  mdbase : Word
  mdbound : Word
deriving DecidableEq, Repr

/-- Clock and counters (60_exceptions.md R470 to R472): the platform's real-time value, the difference of each time
register from it, the compare registers, and the two counters. Each counter is 64 bits at either XLEN (10_state.md R55). -/
structure Clock where
  rtc : Word
  /-- The MODEL's own: how many boundaries pass before the real-time value ticks again (assumption log 8). -/
  hold : Nat
  mDelta : Word
  hDelta : Word
  sDelta : Word
  uDelta : Word
  mtimecmp : BitVec 32
  htimecmp : BitVec 32
  stimecmp : BitVec 32
  /-- The last write of the level's compare register made it equal to the counter, and no advance has followed: the
  pending bit is set at the next one (R471; assumption log 10). -/
  mArmed : Bool
  hArmed : Bool
  sArmed : Bool
  cycle : Word
  instret : Word
deriving DecidableEq, Repr

/-- The floating-point state (10_state.md R39, R54): f0 to f31 (FLEN bits, in a 128-bit container) and `fcsr`, of which
`fflags` and `frm` are fields. -/
structure FpState where
  f : Vector (BitVec 128) 32
  fcsr : Word
deriving DecidableEq, Repr

/-- One entry of the translation cache (20_memory.md R245): the PTE a walk read at `level` for the virtual addresses
that agree with `vaBase` above bit `vaBits`, tagged with the `sasid` in force. `pteAddr` and `pteBytes` say where in
memory the PTE stands, for the update of its R and D bits (21_translation.md R290). -/
structure TcEntry where
  asid : Word
  global : Bool
  vaBase : Word
  vaBits : Nat
  level : Nat
  pte : Word
  pteAddr : Nat
  pteBytes : Nat
deriving DecidableEq, Repr

/-- Physical memory: the bytes that differ from what an unlisted address reads as, addresses strictly rising. -/
abbrev Memory := List Host.Cell

/-- The whole state of a hart (10_state.md R71) and the memory it reaches. -/
structure State where
  /-- The implementation parameters (00_scope.md R7); no step changes them. -/
  cfg : Config
  /-- x0 to x31 (10_state.md R32); entry 0 is never read. -/
  x : Vector Word 32
  /-- The virtual address of the instruction being executed (R34). -/
  pc : Word
  fp : FpState
  mstatus : Mstatus
  mip : IntBits
  mie : IntBits
  mtvec : Word
  htvec : Word
  stvec : Word
  mtdeleg : Word
  htdeleg : Word
  /-- The trap registers of M, H and S. -/
  tm : TrapRegs
  th : TrapRegs
  ts : TrapRegs
  seg : Segments
  sptbr : Word
  sasid : Word
  clock : Clock
  /-- The CSRs an implementation adds (EXTRA_CSRS), in the order of `cfg.extraCsrs`. -/
  extra : List Word
  /-- A non-maskable interrupt is pending: hidden state (60_exceptions.md R436). -/
  nmiPending : Bool
  /-- The hart is stalled in WFI: hidden state (10_state.md R65). -/
  stalled : Bool
  /-- The address-translation cache: hidden state (10_state.md R63). -/
  tc : List TcEntry
  mem : Memory
  /-- The MODEL's own: how many free values have been drawn. -/
  draws : Nat
deriving DecidableEq, Repr

/-- The reasons the machine stops with a fault. Every exception of the spec is a next state, so there is one. -/
inductive Fault where
  /-- Raised by a fetch, a load or a store whose bytes lie in a device region of the configuration: the spec gives no
  device's behaviour (00_scope.md R6). Safe: the hardware goes on where the model stops. -/
  | deviceAccess
deriving DecidableEq, Repr

/-- The reasons the model gives a situation no meaning. -/
inductive Refusal where
  /-- Raised by no arm of this model: an instruction with no meaning yet. Safe. -/
  | notModelled (mnemonic : String)
  /-- Raised by the step on a word of another major opcode, which belongs to the user-level ISA (00_scope.md R6,
  30_encoding.md R333). Safe. -/
  | userLevelInstruction
  /-- Raised by a CSR write that would give `mstatus.VM` a reserved or unsupported value (92_eei_decisions.md D16,
  70_reset_and_hazards.md R510). Safe. -/
  | unsupportedVm
  /-- Raised by a CSR write that would give a PRV field an unsupported mode, and by ERET popping one (D16). Safe. -/
  | unsupportedMode
  /-- Raised by an ERET that would raise the privilege level, only where ERET_ESCALATION is `refuse` (D39). Safe. -/
  | eretEscalation
deriving DecidableEq, Repr

/-! ### Reset (70_reset_and_hazards.md R490) -/

/-- An empty stack entry: what a hard-wired entry reads as (11_state_machine_csrs.md R103). -/
def StackEntry.zero : StackEntry := { prv := .u, ie := false }

/-- No interrupt bit set. -/
def IntBits.none : IntBits :=
  { ssi := false, hsi := false, msi := false, sti := false, hti := false, mti := false,
    extra := 0 }

/-- Trap registers that hold zeros. -/
def TrapRegs.zero : TrapRegs :=
  { scratch := 0, epc := 0, cause := { interrupt := false, code := 0 }, badaddr := 0 }

/-- The hart of configuration `c` right after reset. The spec gives PRV, VM, mtvec, pc and the hidden state; every other
register holds the zero that assumption log 3 names (unsafe: the spec leaves it unspecified). -/
def State.ofReset (c : Config) : State where
  cfg := c
  x := Vector.replicate 32 0
  pc := c.resetVector
  fp := { f := Vector.replicate 32 0, fcsr := 0 }
  mstatus :=
    { vm := 0, mprv := false, xs := 0, fs := 0, e3 := StackEntry.zero, e2 := StackEntry.zero,
      e1 := { prv := if c.modes = .m then .m else .u, ie := false }, e0 := { prv := .m, ie := false } }
  mip := IntBits.none
  mie := IntBits.none
  mtvec := c.resetMtvec
  htvec := 0
  stvec := 0
  mtdeleg := 0
  htdeleg := 0
  tm := TrapRegs.zero
  th := TrapRegs.zero
  ts := TrapRegs.zero
  seg := { mbase := 0, mbound := 0, mibase := 0, mibound := 0, mdbase := 0, mdbound := 0 }
  sptbr := 0
  sasid := 0
  clock :=
    { rtc := 0, hold := 0, mDelta := 0, hDelta := 0, sDelta := 0, uDelta := 0, mtimecmp := 0, htimecmp := 0,
      stimecmp := 0, mArmed := false, hArmed := false, sArmed := false, cycle := 0, instret := 0 }
  extra := c.extraCsrs.map fun _ => 0
  nmiPending := false
  stalled := false
  tc := []
  mem := []
  draws := 0

/-- The machine right after reset, in the configuration the spec recommends for a first model. -/
def State.reset : State := State.ofReset Config.recommended

end Sys2Proof.Machine
end

