-- ==== Sys2Proof/Machine/Clock.lean ====
section
/-!
DEFINITION. Time registers, compare registers and counters (60_exceptions.md section 10; 92_eei_decisions.md D25, D26;
assumption logs 8 to 10). Each time register reads as the platform's real-time value plus a difference; a write sets
the difference.
-/

namespace Sys2Proof.Machine

/-- The difference of a level's time register from the real-time value: `mtime`, `htime`, `stime`, `time`. -/
def Clock.delta (k : Clock) : Priv → Word
  | .m => k.mDelta
  | .h => k.hDelta
  | .s => k.sDelta
  | .u => k.uDelta

/-- The 64-bit time register of a level, `RTC + delta_X` (R470). -/
def Clock.time (k : Clock) (p : Priv) : Word :=
  k.rtc + k.delta p

/-- The 64-bit time register of a level written: the difference is set (R470). -/
def Clock.setTime (k : Clock) (p : Priv) (v : Word) : Clock :=
  match p with
  | .m => { k with mDelta := v - k.rtc }
  | .h => { k with hDelta := v - k.rtc }
  | .s => { k with sDelta := v - k.rtc }
  | .u => { k with uDelta := v - k.rtc }

/-- The compare register of a level (R471); U has none, and no rule asks for it. -/
def Clock.timecmp (k : Clock) : Priv → BitVec 32
  | .m => k.mtimecmp
  | .h => k.htimecmp
  | .s => k.stimecmp
  | .u => 0

/-- The compare register of a level written, and whether the write made it equal to the counter (R471). -/
def Clock.setTimecmp (k : Clock) (p : Priv) (v : BitVec 32) : Clock :=
  match p with
  | .m => { k with mtimecmp := v, mArmed := decide (v = (k.time .m).setWidth 32) }
  | .h => { k with htimecmp := v, hArmed := decide (v = (k.time .h).setWidth 32) }
  | .s => { k with stimecmp := v, sArmed := decide (v = (k.time .s).setWidth 32) }
  | .u => k

/-- The timer-pending bit of a level. -/
def IntBits.setTimer (b : IntBits) (p : Priv) (pending : Bool) : IntBits :=
  match p with
  | .m => { b with mti := pending }
  | .h => { b with hti := pending }
  | .s => { b with sti := pending }
  | .u => b

/-! ### Reading and writing a 64-bit counter at XLEN (10_state.md R55 to R58) -/

/-- The value the CSR of a counter reads: all of it, or its low half on RV32. -/
def counterLow (c : Config) (v : Word) : Word :=
  c.trunc v

/-- The value the `h` CSR of a counter reads on RV32: its high half. -/
def counterHigh (v : Word) : Word :=
  v >>> 32

/-- A counter after its CSR is written: all of it, or its low half on RV32. -/
def setCounterLow (c : Config) (old v : Word) : Word :=
  if c.isRv32 then (old &&& ~~~0xFFFFFFFF) ||| (v &&& 0xFFFFFFFF) else v

/-- A counter after its `h` CSR is written on RV32. -/
def setCounterHigh (old v : Word) : Word :=
  (old &&& 0xFFFFFFFF) ||| v <<< 32

/-! ### Writing time and compare registers (R471; 92_eei_decisions.md D26) -/

/-- A write of a level's compare register clears the level's timer-pending bit; equality that it makes sets the bit at
the next advance. -/
def writeTimecmp (p : Priv) (v : Word) (s : State) : State :=
  { s with clock := s.clock.setTimecmp p (v.setWidth 32), mip := s.mip.setTimer p false }

/-- The low 32 bits of a level's counter equal its compare register, at a level that is supported and has one. -/
def timeMatches (c : Config) (k : Clock) (p : Priv) : Bool :=
  c.has p && decide (p ≠ .u) && decide ((k.time p).setWidth 32 = k.timecmp p)

/-- A write of a level's time register, whole or its low half: equality with the compare register sets the level's
timer-pending bit at once. -/
def writeTimeLow (p : Priv) (v : Word) (s : State) : State :=
  let k := s.clock.setTime p (setCounterLow s.cfg (s.clock.time p) v)
  { s with clock := k, mip := if timeMatches s.cfg k p then s.mip.setTimer p true else s.mip }

/-- A write of the high half of a level's time register on RV32: no bit that is compared changes. -/
def writeTimeHigh (p : Priv) (v : Word) (s : State) : State :=
  { s with clock := s.clock.setTime p (setCounterHigh (s.clock.time p) v) }

/-! ### The passage of time -/

/-- A counter at `now` that advances by `n` ticks reaches or passes through the compare value: only the low 32 bits are
compared, and equality before the advance counts at an advance (R471; 92_eei_decisions.md D26). -/
def passes (now : Word) (cmp : BitVec 32) (n : Nat) : Bool :=
  decide (1 ≤ n) && decide ((cmp - now.setWidth 32).toNat ≤ n)

/-- An advance by `n` ticks makes a timer interrupt pending: the counter passes the compare value, or equality that the
last write of the compare register made was waiting for an advance (R471). -/
def fires (armed : Bool) (now : Word) (cmp : BitVec 32) (n : Nat) : Bool :=
  passes now cmp n || (armed && decide (1 ≤ n))

/-- The real-time value advances by `n` ticks, and every timer-pending bit whose counter passes its compare value is
set (11_state_machine_csrs.md R139, 12_state_supervisor_csrs.md R180, R198). -/
def advanceClock (n : Nat) (s : State) : State :=
  { s with
    clock :=
      { s.clock with
        rtc := s.clock.rtc + BitVec.ofNat 64 n
        mArmed := s.clock.mArmed && decide (n = 0)
        hArmed := s.clock.hArmed && decide (n = 0)
        sArmed := s.clock.sArmed && decide (n = 0) }
    mip :=
      { s.mip with
        mti := s.mip.mti || fires s.clock.mArmed (s.clock.time .m) s.clock.mtimecmp n
        hti := s.mip.hti || (s.cfg.has .h && fires s.clock.hArmed (s.clock.time .h) s.clock.htimecmp n)
        sti := s.mip.sti || (s.cfg.has .s && fires s.clock.sArmed (s.clock.time .s) s.clock.stimecmp n) } }

/-- The ticks of the real-time value at a boundary: none while it stands still, at least one otherwise (R470). -/
def ticks (s : State) : Nat :=
  if s.clock.hold = 0 then 1 + Config.rtcAdvance s.draws else 0

/-- Time passes at a boundary: the real-time value ticks, then stands still for a free number of boundaries, so that
over an unbounded run it grows without bound (R470; assumption log 8). -/
def passTime (s : State) : State :=
  let s1 := advanceClock (ticks s) s
  { s1 with
    clock := { s1.clock with hold := if s.clock.hold = 0 then Config.rtcHold s.draws else s.clock.hold - 1 } }

/-- `cycle` advances (10_state.md R55). -/
def advanceCycles (cycles : Nat) (s : State) : State :=
  { s with clock := { s.clock with cycle := s.clock.cycle + BitVec.ofNat 64 cycles } }

/-- `instret` advances by what one instruction counts for (10_state.md R57). -/
def retire (s : State) : State :=
  { s with clock := { s.clock with instret := s.clock.instret + BitVec.ofNat 64 (Config.instretAdvance s.draws) } }

end Sys2Proof.Machine
end

