-- ==== Sys2Proof/Machine/Flags.lean ====
section
/-!
DEFINITION. The status fields as words. The privileged architecture has no condition codes (10_state.md R38): the only
flags are fields of CSRs. Here stand the layouts of `mstatus`, of `mip` and `mie`, and of the cause registers, the
hard-wired fields of `mstatus`, and its privilege stack's push and pop.
-/

namespace Sys2Proof.Machine

/-- The word with bit `n` equal to `b` and every other bit 0. -/
def flagAt (b : Bool) (n : Nat) : Word :=
  (BitVec.ofBool b).setWidth 64 <<< n

/-- A value with the bits of a mask replaced, the others kept (10_state.md R43, R52). -/
def maskedWrite (old mask v : Word) : Word :=
  (old &&& ~~~mask) ||| (v &&& mask)

/-! ### The privilege stack (11_state_machine_csrs.md R100, R103) -/

/-- The three bits of a stack entry: the mode above the interrupt enable. -/
def StackEntry.bits (e : StackEntry) : Word :=
  e.prv.bits.setWidth 64 <<< 1 ||| flagAt e.ie 0

/-- The stack entry at bits `lo + 2 : lo` of a word. -/
def stackEntryAt (w : Word) (lo : Nat) : StackEntry :=
  { prv := Priv.ofBits (w.extractLsb' (lo + 1) 2), ie := w.getLsbD lo }

/-- The mode field of an M-only machine is hard-wired to M (R103). -/
def StackEntry.hardwire (c : Config) (e : StackEntry) : StackEntry :=
  if c.modes = .m then { e with prv := .m } else e

/-- The stack with its hard-wired entries at their values: entries at or above DEPTH are zero, and every mode field of
an M-only machine is M (R103). -/
def Mstatus.hardwireStack (c : Config) (m : Mstatus) : Mstatus :=
  { m with
    e3 := if c.depth ≤ 3 then StackEntry.zero else m.e3
    e2 := if c.depth ≤ 2 then StackEntry.zero else m.e2
    e1 := m.e1.hardwire c
    e0 := m.e0.hardwire c }

/-- PushStack(T) (60_exceptions.md R442): the entries move up, entry 0 becomes T with interrupts disabled. -/
def Mstatus.push (c : Config) (t : Priv) (m : Mstatus) : Mstatus :=
  Mstatus.hardwireStack c { m with e3 := m.e2, e2 := m.e1, e1 := m.e0, e0 := { prv := t, ie := false } }

/-- The entry a pop puts into the leftmost place: the lowest level, interrupts enabled (R104). -/
def popFiller (c : Config) : StackEntry :=
  { prv := c.lowest, ie := true }

/-- PopStack() (60_exceptions.md R450): the entries move down, entry DEPTH-1 becomes the filler. -/
def Mstatus.pop (c : Config) (m : Mstatus) : Mstatus :=
  Mstatus.hardwireStack c
    { m with
      e3 := popFiller c
      e2 := if c.depth = 3 then popFiller c else m.e3
      e1 := if c.depth = 2 then popFiller c else m.e2
      e0 := m.e1 }

/-! ### `mstatus` as a word (R100, R111) -/

/-- SD: the floating-point or the extension state is Dirty (R111). -/
def Mstatus.sd (m : Mstatus) : Bool :=
  m.fs = 3 || m.xs = 3

/-- Bits 21:0 of `mstatus`. -/
def Mstatus.fields (m : Mstatus) : Word :=
  m.vm.setWidth 64 <<< 17 ||| flagAt m.mprv 16 ||| m.xs.setWidth 64 <<< 14 ||| m.fs.setWidth 64 <<< 12
    ||| m.e3.bits <<< 9 ||| m.e2.bits <<< 6 ||| m.e1.bits <<< 3 ||| m.e0.bits

/-- `mstatus` as it is read: bits 21:0 and SD at bit XLEN-1. -/
def Mstatus.word (c : Config) (m : Mstatus) : Word :=
  m.fields ||| (if m.sd then c.signBit else 0)

/-- The fields a word of the layout R100 gives. -/
def mstatusOfWord (w : Word) : Mstatus where
  vm := w.extractLsb' 17 5
  mprv := w.getLsbD 16
  xs := w.extractLsb' 14 2
  fs := w.extractLsb' 12 2
  e3 := stackEntryAt w 9
  e2 := stackEntryAt w 6
  e1 := stackEntryAt w 3
  e0 := stackEntryAt w 0

/-- FS and XS are hard-wired to zero without the unit or the extension (R116). -/
def Mstatus.hardwireUnits (c : Config) (m : Mstatus) : Mstatus :=
  { m with xs := if c.hasX then m.xs else 0, fs := if c.hasF then m.fs else 0 }

/-- Every mode field of the stack names a supported mode (R101). -/
def Mstatus.modesOk (c : Config) (m : Mstatus) : Bool :=
  c.has m.e0.prv && c.has m.e1.prv && (decide (c.depth ≤ 2) || c.has m.e2.prv)
    && (decide (c.depth ≤ 3) || c.has m.e3.prv)

/-- The fields of `mstatus` that `sstatus` shows but for SD: bits 16:12, 4, 3 and 0 (12_state_supervisor_csrs.md
R171). -/
def sstatusMask : Word := 0x1F019

/-! ### `mip`, `mie` as words (R129, R133) -/

/-- The word of the bits: software at 3, 2, 1 and timer at 7, 6, 5 for M, H, S, and the added sources in their places. -/
def IntBits.word (b : IntBits) : Word :=
  flagAt b.ssi 1 ||| flagAt b.hsi 2 ||| flagAt b.msi 3 ||| flagAt b.sti 5 ||| flagAt b.hti 6 ||| flagAt b.mti 7
    ||| b.extra

/-- The bits of a word; those of an unsupported level or of no source are hard-wired to zero (R130, R133). -/
def intBitsOfWord (c : Config) (w : Word) : IntBits where
  ssi := w.getLsbD 1 && c.has .s
  hsi := w.getLsbD 2 && c.has .h
  msi := w.getLsbD 3
  sti := w.getLsbD 5 && c.has .s
  hti := w.getLsbD 6 && c.has .h
  mti := w.getLsbD 7
  extra := w &&& c.extraIntBits

/-- Some source is pending. -/
def IntBits.any (b : IntBits) : Bool :=
  b.ssi || b.hsi || b.msi || b.sti || b.hti || b.mti || decide (b.extra ≠ 0)

/-- The bits of `mip` and `mie` that `sip` and `sie` show: 5 and 1 (12_state_supervisor_csrs.md R176, R177). -/
def sipMask : Word := 0x22

/-! ### Cause registers (R145) -/

/-- The Interrupt bit at XLEN-1, the code at bits 3:0. -/
def Cause.word (c : Config) (k : Cause) : Word :=
  (if k.interrupt then c.signBit else 0) ||| k.code.setWidth 64

/-- The Interrupt bit and the code of a word; the other bits are dropped. -/
def causeOfWord (c : Config) (w : Word) : Cause :=
  { interrupt := c.topBit w, code := w.setWidth 4 }

end Sys2Proof.Machine
end

