-- ==== Sys2Proof/Machine/Ops.lean ====
section
/-!
DEFINITION. The shared operations: integer registers, the program counter, TAKING A TRAP and returning from one
(60_exceptions.md sections 4 to 6), and the reset event (70_reset_and_hazards.md R490).
-/

namespace Sys2Proof.Machine

/-- What an instruction or a step answers. -/
abbrev Result := Host.Outcome State Fault Refusal

/-! ### Registers and the program counter -/

/-- `x[r]`; x0 reads 0 (10_state.md R32). -/
def State.readReg (s : State) (r : Reg) : Word :=
  if r = 0 then 0 else s.x.get r

/-- `x[r] <- v` modulo `2^XLEN`; a write of x0 is discarded (10_state.md R32). -/
def State.writeReg (s : State) (r : Reg) (v : Word) : State :=
  if r = 0 then s else { s with x := s.x.set r (s.cfg.trunc v) }

/-- `pc <- pc + 4` modulo `2^XLEN` (10_state.md R35, R37). -/
def State.advance (s : State) : State :=
  { s with pc := s.cfg.trunc (s.pc + 4) }

/-- The current privilege mode, `mstatus.PRV` (10_state.md R40). -/
def State.priv (s : State) : Priv :=
  s.mstatus.e0.prv

/-! ### The registers of one level -/

/-- The trap registers of a level; U has none, and no rule asks for them. -/
def State.trapRegs (s : State) : Priv → TrapRegs
  | .m => s.tm
  | .h => s.th
  | .s => s.ts
  | .u => TrapRegs.zero

/-- The trap registers of a level replaced. -/
def State.setTrapRegs (s : State) (p : Priv) (r : TrapRegs) : State :=
  match p with
  | .m => { s with tm := r }
  | .h => { s with th := r }
  | .s => { s with ts := r }
  | .u => s

/-! ### Taking a trap (60_exceptions.md R440) -/

/-- `Target(b, from)`, the level that handles a trap with delegation bit `b` raised in the current mode (R445). -/
def trapTarget (s : State) (b : Nat) : Priv :=
  if s.priv = .m then .m
  else if s.cfg.has .h then
    if !s.mtdeleg.getLsbD b then .m
    else if s.priv = .h then .h
    else if s.htdeleg.getLsbD b then .s
    else .h
  else if s.cfg.has .s then (if s.mtdeleg.getLsbD b then .s else .m)
  else .m

/-- The handler's address (R441): at M one of four entries chosen by the mode the trap came from, or one that the
implementation adds for the cause; below M the one value of the level's vector register. -/
def handlerAddress (s : State) (cause : Cause) : Priv → Word
  | .h => s.htvec
  | .s => s.stvec
  | .m | .u => s.cfg.trunc (s.mtvec + s.cfg.entryOffset cause.interrupt cause.code s.priv)

/-- What the bad-address register receives: the address given, or an arbitrary value where the cause defines none
(R424, 92_eei_decisions.md D34; assumption log 7). -/
def badaddrValue (s : State) : Option Word → Word
  | some v => s.cfg.trunc v
  | none => s.cfg.trunc (Config.undefinedBadaddr s.draws)

/-- Trap entry into level `t` at address `handler`, steps 3 to 7 of R440: the level's epc, cause and bad-address
registers are written, the stack is pushed, `MPRV` and the stall end. -/
def enterTrap (t : Priv) (handler : Word) (cause : Cause) (epc : Word) (badaddr : Option Word) (s : State) : State :=
  let s1 := s.setTrapRegs t
    { s.trapRegs t with epc := s.cfg.alignEpc epc, cause := cause, badaddr := badaddrValue s badaddr }
  { s1 with
    mstatus := { Mstatus.push s.cfg t s.mstatus with mprv := false }
    pc := handler
    stalled := false
    draws := if badaddr = none then s.draws + 1 else s.draws }

/-- `Trap(interrupt, code, epc, badaddr)` with delegation bit `b` (R440). -/
def takeTrap (b : Nat) (cause : Cause) (epc : Word) (badaddr : Option Word) (s : State) : State :=
  enterTrap (trapTarget s b) (handlerAddress s cause (trapTarget s b)) cause epc badaddr s

/-- A synchronous exception of the instruction at `pc`: the delegation bit is the code (R440, R443). -/
def raiseException (code : BitVec 4) (badaddr : Option Word) (s : State) : State :=
  takeTrap code.toNat { interrupt := false, code := code } s.pc badaddr s

/-- Illegal instruction, code 2 (R413): the bad address is undefined. -/
def raiseIllegal (s : State) : State :=
  raiseException 2 none s

/-! ### Returning from a trap (60_exceptions.md R450, 41_privilege_change.md R372) -/

/-- The stack is popped and execution goes on at `target`. -/
def trapReturn (target : Word) (s : State) : State :=
  { s with mstatus := Mstatus.pop s.cfg s.mstatus, pc := target }

/-! ### Reset (70_reset_and_hazards.md R490) -/

/-- The reset event on a hart in any state: what R490 fixes is set, hard-wired fields hold their values, and everything
else is kept, standing for an arbitrary value (R491; assumption log 42). -/
def resetHart (s : State) : State :=
  let m := Mstatus.hardwireUnits s.cfg (Mstatus.hardwireStack s.cfg s.mstatus)
  { s with
    mstatus := { m with vm := 0, e0 := { m.e0 with prv := .m } }
    mtvec := s.cfg.resetMtvec
    pc := s.cfg.resetVector
    stalled := false
    tc := [] }

end Sys2Proof.Machine
end

