-- ==== Sys2Proof/Machine/Csr.lean ====
section
/-!
DEFINITION. The control and status registers: the listing with what each one's existence needs (10_state.md R47 to R50,
R53), reading (R52), and writing with its side effects (R43, R52).
-/

namespace Sys2Proof.Machine

/-- The registers behind the CSR addresses; a shadow address names the same register (10_state.md R45). -/
inductive Csr where
  | fflags | frm | fcsr
  | cycle | time | instret | cycleh | timeh | instreth
  | sstatus | stvec | sie | stimecmp | stime | stimeh | sscratch | sepc | scause | sbadaddr | sip | sptbr | sasid
  | hstatus | htvec | htdeleg | htimecmp | htime | htimeh | hscratch | hepc | hcause | hbadaddr
  | mcpuid | mimpid | mhartid | mstatus | mtvec | mtdeleg | mie | mtimecmp | mtime | mtimeh | mscratch | mepc | mcause
  | mbadaddr | mip | mbase | mbound | mibase | mibound | mdbase | mdbound
  /-- An added one, by its place in EXTRA_CSRS. -/
  | extra (k : Nat)
deriving DecidableEq, Repr

/-- What a CSR's existence needs (10_state.md R53). -/
inductive CsrNeed where
  | always | unitF | modeS | modeH | modeSPaged | schemeMbb | schemeMbbid | rv32 | rv32S | rv32H
deriving DecidableEq, Repr

/-- The configuration meets a need. -/
def CsrNeed.met (c : Config) : CsrNeed → Bool
  | .always => true
  | .unitF => c.hasF
  | .modeS => c.has .s
  | .modeH => c.has .h
  | .modeSPaged => c.has .s && c.paged
  | .schemeMbb => c.mbb
  | .schemeMbbid => c.mbbid
  | .rv32 => c.isRv32
  | .rv32S => c.isRv32 && c.has .s
  | .rv32H => c.isRv32 && c.has .h

/-- User-level addresses (10_state.md R47). -/
def userCsrs : List (CsrAddr × Csr × CsrNeed) :=
  [(0x001, .fflags, .unitF), (0x002, .frm, .unitF), (0x003, .fcsr, .unitF),
    (0xC00, .cycle, .always), (0xC01, .time, .always), (0xC02, .instret, .always),
    (0xC80, .cycleh, .rv32), (0xC81, .timeh, .rv32), (0xC82, .instreth, .rv32)]

/-- Supervisor-level addresses (R48). -/
def supervisorCsrs : List (CsrAddr × Csr × CsrNeed) :=
  [(0x100, .sstatus, .modeS), (0x101, .stvec, .modeS), (0x104, .sie, .modeS), (0x121, .stimecmp, .modeS),
    (0xD01, .stime, .modeS), (0xD81, .stimeh, .rv32S), (0x140, .sscratch, .modeS), (0x141, .sepc, .modeS),
    (0x142, .scause, .modeS), (0x143, .sbadaddr, .modeS), (0x144, .sip, .modeS), (0x180, .sptbr, .modeSPaged),
    (0x181, .sasid, .modeSPaged), (0x900, .cycle, .modeS), (0x901, .time, .modeS), (0x902, .instret, .modeS),
    (0x980, .cycleh, .rv32S), (0x981, .timeh, .rv32S), (0x982, .instreth, .rv32S)]

/-- Hypervisor-level addresses (R49). -/
def hypervisorCsrs : List (CsrAddr × Csr × CsrNeed) :=
  [(0x200, .hstatus, .modeH), (0x201, .htvec, .modeH), (0x202, .htdeleg, .modeH), (0x221, .htimecmp, .modeH),
    (0xE01, .htime, .modeH), (0xE81, .htimeh, .rv32H), (0x240, .hscratch, .modeH), (0x241, .hepc, .modeH),
    (0x242, .hcause, .modeH), (0x243, .hbadaddr, .modeH), (0xA01, .stime, .modeS), (0xA81, .stimeh, .rv32S)]

/-- Machine-level addresses (R50) but for `mtohost` and `mfromhost`, which exist where EXTRA_CSRS has them
(11_state_machine_csrs.md R155). -/
def machineCsrs : List (CsrAddr × Csr × CsrNeed) :=
  [(0xF00, .mcpuid, .always), (0xF01, .mimpid, .always), (0xF10, .mhartid, .always), (0x300, .mstatus, .always),
    (0x301, .mtvec, .always), (0x302, .mtdeleg, .always), (0x304, .mie, .always), (0x321, .mtimecmp, .always),
    (0x701, .mtime, .always), (0x741, .mtimeh, .rv32), (0x340, .mscratch, .always), (0x341, .mepc, .always),
    (0x342, .mcause, .always), (0x343, .mbadaddr, .always), (0x344, .mip, .always), (0x380, .mbase, .schemeMbb),
    (0x381, .mbound, .schemeMbb), (0x382, .mibase, .schemeMbbid), (0x383, .mibound, .schemeMbbid),
    (0x384, .mdbase, .schemeMbbid), (0x385, .mdbound, .schemeMbbid), (0xB01, .htime, .modeH),
    (0xB81, .htimeh, .rv32H)]

/-- The register at an address in a list. -/
def findCsr (c : Config) (a : CsrAddr) : List (CsrAddr × Csr × CsrNeed) → Option Csr
  | [] => none
  | (b, r, need) :: rest => if a = b && need.met c then some r else findCsr c a rest

/-- The added register at an address: the first that answers to it, counted from `k`. -/
def findExtra (a : CsrAddr) : Nat → List ExtraCsr → Option Csr
  | _, [] => none
  | k, e :: rest => if e.addrs.contains a then some (.extra k) else findExtra a (k + 1) rest

/-- The register an address names, where it exists (`Exists(a)`, 10_state.md R53): a listed one, or an added one at a
non-standard address (R51). -/
def csrAt (c : Config) (a : CsrAddr) : Option Csr :=
  match findCsr c a (userCsrs ++ supervisorCsrs ++ hypervisorCsrs ++ machineCsrs) with
  | some r => some r
  | none => if csrNonStandard a then findExtra a 0 c.extraCsrs else none

/-- `ReadOnly(a)`: `a[11:10]` is 11, or the address is that of `scause` or `sbadaddr` (10_state.md R42, D40). -/
def csrReadOnly (a : CsrAddr) : Bool :=
  a.extractLsb' 10 2 = 0b11 || a = 0x142 || a = 0x143

/-- The lowest privilege level that may access an address, `a[9:8]` (10_state.md R41). -/
def csrLevel (a : CsrAddr) : Nat :=
  (a.extractLsb' 8 2).toNat

/-- The register belongs to the floating-point state, which `mstatus.FS` switches off (10_state.md R54). -/
def Csr.isFp : Csr → Bool
  | .fflags | .frm | .fcsr => true
  | _ => false

/-- The register belongs to the state of the extension that `mstatus.XS` switches off (11_state_machine_csrs.md R110). -/
def Csr.isX (c : Config) : Csr → Bool
  | .extra k => (c.extraCsrs[k]?).any (·.unitX)
  | _ => false

/-- The register is state of a unit that is Off, so that an instruction that names it is illegal (R110, R112). -/
def csrUnitOff (s : State) (r : Csr) : Bool :=
  (r.isFp && decide (s.mstatus.fs = 0)) || (r.isX s.cfg && decide (s.mstatus.xs = 0))

/-! ### The fields of `fcsr` (10_state.md R54; assumption log 18) -/

/-- `n` bits of an XLEN-bit register from bit `lo` up. -/
def fieldMask (c : Config) (lo n : Nat) : Word :=
  c.trunc (BitVec.ofNat 64 (2 ^ n - 1) <<< lo)

/-- The bits of `fcsr` that are `fflags`, and those that are `frm`. -/
def fflagsMask (c : Config) : Word := fieldMask c Config.fflagsShift Config.fflagsWidth
def frmMask (c : Config) : Word := fieldMask c Config.frmShift Config.frmWidth &&& ~~~fflagsMask c

/-! ### Reading (10_state.md R52) -/

/-- The restricted view of `mstatus` that `sstatus` is (12_state_supervisor_csrs.md R171), and `hstatus` after it
(assumption log 17). -/
def readSstatus (s : State) : Word :=
  (Mstatus.word s.cfg s.mstatus &&& sstatusMask) ||| (if s.mstatus.sd then s.cfg.signBit else 0)

/-- `CsrRead`: the register's current value, zero-extended to XLEN. -/
def csrRead (s : State) : Csr → Word
  | .fflags => (s.fp.fcsr &&& fflagsMask s.cfg) >>> Config.fflagsShift
  | .frm => (s.fp.fcsr &&& frmMask s.cfg) >>> Config.frmShift
  | .fcsr => s.fp.fcsr
  | .cycle => counterLow s.cfg s.clock.cycle
  | .time => counterLow s.cfg (s.clock.time .u)
  | .instret => counterLow s.cfg s.clock.instret
  | .cycleh => counterHigh s.clock.cycle
  | .timeh => counterHigh (s.clock.time .u)
  | .instreth => counterHigh s.clock.instret
  | .sstatus => readSstatus s
  | .stvec => s.stvec
  | .sie => s.mie.word &&& sipMask
  | .stimecmp => s.clock.stimecmp.setWidth 64
  | .stime => counterLow s.cfg (s.clock.time .s)
  | .stimeh => counterHigh (s.clock.time .s)
  | .sscratch => s.ts.scratch
  | .sepc => s.ts.epc
  | .scause => s.ts.cause.word s.cfg
  | .sbadaddr => s.ts.badaddr
  | .sip => s.mip.word &&& sipMask
  | .sptbr => s.sptbr
  | .sasid => s.sasid
  | .hstatus => readSstatus s
  | .htvec => s.htvec
  | .htdeleg => s.htdeleg
  | .htimecmp => s.clock.htimecmp.setWidth 64
  | .htime => counterLow s.cfg (s.clock.time .h)
  | .htimeh => counterHigh (s.clock.time .h)
  | .hscratch => s.th.scratch
  | .hepc => s.th.epc
  | .hcause => s.th.cause.word s.cfg
  | .hbadaddr => s.th.badaddr
  | .mcpuid => s.cfg.mcpuid
  | .mimpid => s.cfg.mimpid
  | .mhartid => s.cfg.mhartid
  | .mstatus => Mstatus.word s.cfg s.mstatus
  | .mtvec => s.mtvec
  | .mtdeleg => s.mtdeleg
  | .mie => s.mie.word
  | .mtimecmp => s.clock.mtimecmp.setWidth 64
  | .mtime => counterLow s.cfg (s.clock.time .m)
  | .mtimeh => counterHigh (s.clock.time .m)
  | .mscratch => s.tm.scratch
  | .mepc => s.tm.epc
  | .mcause => s.tm.cause.word s.cfg
  | .mbadaddr => s.tm.badaddr
  | .mip => s.mip.word
  | .mbase => if s.cfg.mbbid then s.seg.mdbase else s.seg.mbase
  | .mbound => if s.cfg.mbbid then s.seg.mdbound else s.seg.mbound
  | .mibase => s.seg.mibase
  | .mibound => s.seg.mibound
  | .mdbase => s.seg.mdbase
  | .mdbound => s.seg.mdbound
  | .extra k => s.extra.getD k 0

/-! ### Writing (10_state.md R43, R52) -/

/-- `mstatus` replaced by the word `v`: hard-wired fields keep their values; a reserved or unsupported value of `VM` or
of a mode field is the spec's refusal point (70_reset_and_hazards.md R510, 92_eei_decisions.md D16). -/
def writeMstatus (s : State) (v : Word) : Except Refusal State :=
  let m := Mstatus.hardwireUnits s.cfg (Mstatus.hardwireStack s.cfg (mstatusOfWord v))
  if !s.cfg.vmSupported m.vm then .error .unsupportedVm
  else if !Mstatus.modesOk s.cfg m then .error .unsupportedMode
  else .ok { s with mstatus := m }

/-- A write through the restricted view changes only the view's fields of `mstatus` (12_state_supervisor_csrs.md
R171). -/
def writeSstatus (s : State) (v : Word) : Except Refusal State :=
  writeMstatus s ((s.mstatus.fields &&& ~~~sstatusMask) ||| (v &&& sstatusMask))

/-- A write of some bits of `fcsr`: FS becomes Dirty (10_state.md R54, 11_state_machine_csrs.md R112). -/
def writeFcsr (s : State) (mask v : Word) : State :=
  { s with fp := { s.fp with fcsr := maskedWrite s.fp.fcsr mask v }, mstatus := { s.mstatus with fs := 3 } }

/-- A write of an added register; XS becomes Dirty where it is state of the extension (R112). -/
def writeExtra (s : State) (k : Nat) (v : Word) : State :=
  match s.cfg.extraCsrs[k]? with
  | none => s
  | some e =>
    { s with
      extra := s.extra.set k (maskedWrite (s.extra.getD k 0) e.mask v)
      mstatus := { s.mstatus with xs := if e.unitX then 3 else s.mstatus.xs } }

/-- `CsrWrite` with `v` already modulo `2^XLEN`: the writable bits are replaced, the side effect performed. A read-only
register is never written: the access check refuses it first (R42). -/
def csrWrite (s : State) (r : Csr) (v : Word) : Except Refusal State :=
  match r with
  | .fflags => .ok (writeFcsr s (fflagsMask s.cfg) (v <<< Config.fflagsShift))
  | .frm => .ok (writeFcsr s (frmMask s.cfg) (v <<< Config.frmShift))
  | .fcsr => .ok (writeFcsr s (fflagsMask s.cfg ||| frmMask s.cfg) v)
  | .cycle => .ok { s with clock := { s.clock with cycle := setCounterLow s.cfg s.clock.cycle v } }
  | .time => .ok (writeTimeLow .u v s)
  | .instret => .ok { s with clock := { s.clock with instret := setCounterLow s.cfg s.clock.instret v } }
  | .cycleh => .ok { s with clock := { s.clock with cycle := setCounterHigh s.clock.cycle v } }
  | .timeh => .ok (writeTimeHigh .u v s)
  | .instreth => .ok { s with clock := { s.clock with instret := setCounterHigh s.clock.instret v } }
  | .sstatus => writeSstatus s v
  | .stvec => .ok { s with stvec := s.cfg.alignTvec v }
  | .sie =>
    .ok { s with mie := { s.mie with ssi := v.getLsbD 1 && s.cfg.has .s, sti := v.getLsbD 5 && s.cfg.has .s } }
  | .stimecmp => .ok (writeTimecmp .s v s)
  | .stime => .ok (writeTimeLow .s v s)
  | .stimeh => .ok (writeTimeHigh .s v s)
  | .sscratch => .ok { s with ts := { s.ts with scratch := v } }
  | .sepc => .ok { s with ts := { s.ts with epc := s.cfg.alignEpc v } }
  | .scause => .ok s
  | .sbadaddr => .ok s
  | .sip => .ok { s with mip := { s.mip with ssi := v.getLsbD 1 && s.cfg.has .s } }
  | .sptbr => .ok { s with sptbr := v &&& ~~~0xFFF }
  | .sasid => .ok { s with sasid := v &&& s.cfg.sasidMask }
  | .hstatus => writeSstatus s v
  | .htvec => .ok { s with htvec := s.cfg.alignTvec v }
  | .htdeleg => .ok { s with htdeleg := v &&& s.cfg.htdelegMask }
  | .htimecmp => .ok (writeTimecmp .h v s)
  | .htime => .ok (writeTimeLow .h v s)
  | .htimeh => .ok (writeTimeHigh .h v s)
  | .hscratch => .ok { s with th := { s.th with scratch := v } }
  | .hepc => .ok { s with th := { s.th with epc := s.cfg.alignEpc v } }
  | .hcause => .ok { s with th := { s.th with cause := causeOfWord s.cfg v } }
  | .hbadaddr => .ok { s with th := { s.th with badaddr := v } }
  | .mcpuid => .ok s
  | .mimpid => .ok s
  | .mhartid => .ok s
  | .mstatus => writeMstatus s v
  | .mtvec => .ok { s with mtvec := s.cfg.writeMtvec v }
  | .mtdeleg => .ok { s with mtdeleg := v &&& s.cfg.mtdelegMask }
  | .mie => .ok { s with mie := intBitsOfWord s.cfg v }
  | .mtimecmp => .ok (writeTimecmp .m v s)
  | .mtime => .ok (writeTimeLow .m v s)
  | .mtimeh => .ok (writeTimeHigh .m v s)
  | .mscratch => .ok { s with tm := { s.tm with scratch := v } }
  | .mepc => .ok { s with tm := { s.tm with epc := s.cfg.alignEpc v } }
  | .mcause => .ok { s with tm := { s.tm with cause := causeOfWord s.cfg v } }
  | .mbadaddr => .ok { s with tm := { s.tm with badaddr := v } }
  | .mip =>
    .ok
      { s with
        mip :=
          { s.mip with
            ssi := v.getLsbD 1 && s.cfg.has .s, hsi := v.getLsbD 2 && s.cfg.has .h, msi := v.getLsbD 3,
            extra := maskedWrite s.mip.extra s.cfg.extraIntWritable v } }
  | .mbase =>
    .ok
      { s with
        seg := if s.cfg.mbbid then { s.seg with mibase := v, mdbase := v } else { s.seg with mbase := v } }
  | .mbound =>
    .ok
      { s with
        seg := if s.cfg.mbbid then { s.seg with mibound := v, mdbound := v } else { s.seg with mbound := v } }
  | .mibase => .ok { s with seg := { s.seg with mibase := v } }
  | .mibound => .ok { s with seg := { s.seg with mibound := v } }
  | .mdbase => .ok { s with seg := { s.seg with mdbase := v } }
  | .mdbound => .ok { s with seg := { s.seg with mdbound := v } }
  | .extra k => .ok (writeExtra s k v)

end Sys2Proof.Machine
end

