-- ==== Sys2Proof/Machine/Operands.lean ====
section
/-!
DEFINITION. The operand forms of the CSR instructions and their common behaviour (40_csr_instructions.md R350 to R361):
a register or a 5-bit immediate source, the access check, and the read-modify-write.
-/

namespace Sys2Proof.Machine

/-- The immediate source: 5 bits, zero-extended (40_csr_instructions.md section 3). -/
def zimmValue (z : BitVec 5) : Word :=
  z.setWidth 64

/-- The value each kind of CSR instruction writes, from the old value and the source (R352 to R357). -/
def newSwap (_old src : Word) : Word := src
def newSet (old src : Word) : Word := old ||| src
def newClear (old src : Word) : Word := old &&& ~~~src

/-- The access check (10_state.md R42, R54): the register an address names, where it exists, the mode may access it, it
is not written while read-only, and it is not state of a unit that is Off. -/
def csrAccess (s : State) (a : CsrAddr) (w : Bool) : Option Csr :=
  match csrAt s.cfg a with
  | none => none
  | some r =>
    if decide (csrLevel a ≤ s.priv.level) && !(w && csrReadOnly a) && !csrUnitOff s r then some r
    else none

/-- The six steps of every CSR instruction (R350): `w` is the will-write predicate of R351, `new` the new value from the
old one, its source already sampled. -/
def csrInstr (rd : Reg) (a : CsrAddr) (w : Bool) (new : Word → Word) (s : State) : Result :=
  match csrAccess s a w with
  | none => .next (raiseIllegal s)
  | some r =>
    if w then
      match csrWrite s r (s.cfg.trunc (new (csrRead s r))) with
      | .error e => .refused e
      | .ok s1 => .next ((s1.writeReg rd (csrRead s r)).advance)
    else .next ((s.writeReg rd (csrRead s r)).advance)

end Sys2Proof.Machine
end

