-- ==== Sys2Proof/Machine/CsrInstr.lean ====
section
/-!
DEFINITION. The six CSR access instructions (40_csr_instructions.md R352 to R357).
-/

namespace Sys2Proof.Machine

/-- CSRRW (R352): always writes. -/
def execCsrrw (rd : Reg) (csr : CsrAddr) (rs1 : Reg) (s : State) : Result :=
  csrInstr rd csr true (fun old => newSwap old (s.readReg rs1)) s

/-- CSRRS (R353): writes unless the source register is x0. -/
def execCsrrs (rd : Reg) (csr : CsrAddr) (rs1 : Reg) (s : State) : Result :=
  csrInstr rd csr (decide (rs1 ≠ 0)) (fun old => newSet old (s.readReg rs1)) s

/-- CSRRC (R354): writes unless the source register is x0. -/
def execCsrrc (rd : Reg) (csr : CsrAddr) (rs1 : Reg) (s : State) : Result :=
  csrInstr rd csr (decide (rs1 ≠ 0)) (fun old => newClear old (s.readReg rs1)) s

/-- CSRRWI (R355): writes, with an immediate of zero as CSRRWI_ZIMM0_WRITES says (R351, 92_eei_decisions.md D14). -/
def execCsrrwi (rd : Reg) (csr : CsrAddr) (zimm : BitVec 5) (s : State) : Result :=
  csrInstr rd csr (decide (zimm ≠ 0) || s.cfg.csrrwiZimm0Writes) (fun old => newSwap old (zimmValue zimm)) s

/-- CSRRSI (R356): writes unless the immediate is zero. -/
def execCsrrsi (rd : Reg) (csr : CsrAddr) (zimm : BitVec 5) (s : State) : Result :=
  csrInstr rd csr (decide (zimm ≠ 0)) (fun old => newSet old (zimmValue zimm)) s

/-- CSRRCI (R357): writes unless the immediate is zero. -/
def execCsrrci (rd : Reg) (csr : CsrAddr) (zimm : BitVec 5) (s : State) : Result :=
  csrInstr rd csr (decide (zimm ≠ 0)) (fun old => newClear old (zimmValue zimm)) s

end Sys2Proof.Machine
end

