-- ==== Sys2Proof/Machine/Memory.lean ====
section
/-!
DEFINITION. Physical memory, byte-addressed (20_memory.md R220) and little-endian (R221, assumption log 26), as a list
of cells in one canonical form: addresses strictly rising, and no cell equal to what an unlisted address reads as.
-/

namespace Sys2Proof.Machine

/-- What an unlisted byte reads as. The spec leaves memory at reset to the platform (20_memory.md R235): DESIGN CHOICE,
unsafe (assumption log 4). -/
def unlistedByte : Byte := 0

/-- The byte at an address. -/
def Memory.read : Memory → Nat → Byte
  | [], _ => unlistedByte
  | (b, v) :: rest, a => if a = b then v else Memory.read rest a

/-- Memory with the byte at an address replaced; the canonical form is kept. -/
def Memory.write : Memory → Nat → Byte → Memory
  | [], a, v => if v = unlistedByte then [] else [(a, v)]
  | (b, w) :: rest, a, v =>
    if a < b then (if v = unlistedByte then (b, w) :: rest else (a, v) :: (b, w) :: rest)
    else if a = b then (if v = unlistedByte then rest else (a, v) :: rest)
    else (b, w) :: Memory.write rest a v

/-- The canonical form, every address being at least `lo`. -/
def Memory.wfFrom : Nat → Memory → Bool
  | _, [] => true
  | lo, (a, v) :: rest => decide (lo ≤ a) && decide (v ≠ unlistedByte) && Memory.wfFrom (a + 1) rest

/-- The canonical form. -/
def Memory.wf (m : Memory) : Bool :=
  Memory.wfFrom 0 m

/-- The `n` bytes at an address as one little-endian value (R221). -/
def Memory.readLE (m : Memory) (a : Nat) : Nat → Word
  | 0 => 0
  | n + 1 => (Memory.read m a).setWidth 64 ||| Memory.readLE m (a + 1) n <<< 8

/-- The low `n` bytes of a value stored at an address, little-endian (R221). -/
def Memory.writeLE (m : Memory) (a : Nat) (v : Word) : Nat → Memory
  | 0 => m
  | n + 1 => Memory.writeLE (Memory.write m a (v.setWidth 8)) (a + 1) (v >>> 8) n

end Sys2Proof.Machine
end

