-- ==== Sys2Proof/Machine/Translate.lean ====
section
/-!
DEFINITION. Address translation and protection (21_translation.md): effective privilege, the base-and-bound
environments, and the page-table walk with the translation cache (20_memory.md R245, assumption log 15).
-/

namespace Sys2Proof.Machine

/-- The kinds of access; an AMO is a store for permissions and causes (20_memory.md R228, R247). -/
inductive Acc where
  | fetch | load | store | amo
deriving DecidableEq, Repr

/-- The access-fault code of an access kind (R247). -/
def Acc.faultCode : Acc → BitVec 4
  | .fetch => 1
  | .load => 5
  | .store | .amo => 7

/-- The misaligned code of an access kind (R247). -/
def Acc.misalignedCode : Acc → BitVec 4
  | .fetch => 0
  | .load => 4
  | .store | .amo => 6

/-- The access as the physical memory attributes see it (20_memory.md R230). -/
def Acc.phys : Acc → PhysAcc
  | .fetch => .fetch
  | .load => .load
  | .store => .store
  | .amo => .amo

/-- The access writes: it needs write permission and sets D (R228, R285). -/
def Acc.isStore : Acc → Bool
  | .fetch | .load => false
  | .store | .amo => true

/-- The privilege an access is made with: `MPRV` redirects loads and stores to `PRV1`, never a fetch (21_translation.md
R262). -/
def State.effPriv (s : State) (acc : Acc) : Priv :=
  if acc ≠ .fetch && s.mstatus.mprv then s.mstatus.e1.prv else s.priv

/-- The access as PMACCESS sees it: an AMO is a store (20_memory.md R228, R247). -/
def permissionKind : PhysAcc → PhysAcc
  | .amo => .store
  | .fetch => .fetch
  | .load => .load
  | .store => .store
  | .pteRead => .pteRead
  | .pteWrite => .pteWrite

/-- PMACCESS is consulted exactly for the accesses made with less than machine privilege, PMA for every access
(20_memory.md R231, R232, R247 steps 3 and 4); PMA alone tells an AMO from a store (R230). -/
def physOk (c : Config) (acc : PhysAcc) (pa n : Nat) (p : Priv) : Bool :=
  (decide (p = .m) || c.pmaccessOk (permissionKind acc) pa p) && c.pmaOk acc pa n

/-! ### Base and bound (R270 to R274) -/

/-- The segment Mbb uses for an access: `mbase` and `mbound`, or on an Mbbid system the split registers (R273, D21). -/
def mbbSegment (s : State) (acc : Acc) : Word × Word :=
  if s.cfg.mbbid then
    if acc = .fetch then (s.seg.mibase, s.seg.mibound) else (s.seg.mdbase, s.seg.mdbound)
  else (s.seg.mbase, s.seg.mbound)

/-- Mbb (R270): below the bound, the base is added modulo `2^XLEN`; otherwise an address fault. -/
def translateMbb (s : State) (va : Word) (acc : Acc) : Option Word :=
  if (mbbSegment s acc).2 ≤ va then none
  else some (s.cfg.trunc (va + (mbbSegment s acc).1))

/-- Mbbid (R272): the instruction segment stands in the upper half of the address space, the data segment at 0. -/
def translateMbbid (s : State) (va : Word) (acc : Acc) : Option Word :=
  if acc = .fetch then
    if !s.cfg.topBit va then none
    else if s.seg.mibound ≤ va &&& ~~~s.cfg.signBit then none
    else some (s.cfg.trunc ((va &&& ~~~s.cfg.signBit) + s.seg.mibase))
  else if s.seg.mdbound ≤ va then none
  else some (s.cfg.trunc (va + s.seg.mdbase))

/-! ### Page-table entries (R282 to R287, R296, R301) -/

/-- A paged scheme: levels, bytes of a PTE, bits of a virtual page number at one level. -/
structure Scheme where
  levels : Nat
  pteBytes : Nat
  vpnBits : Nat
deriving DecidableEq, Repr

def sv32 : Scheme := { levels := 2, pteBytes := 4, vpnBits := 10 }
def sv39 : Scheme := { levels := 3, pteBytes := 8, vpnBits := 9 }
def sv48 : Scheme := { levels := 4, pteBytes := 8, vpnBits := 9 }

/-- How many low bits of an address a leaf at `level` leaves untranslated. -/
def Scheme.pageBits (sch : Scheme) (level : Nat) : Nat :=
  12 + level * sch.vpnBits

/-- `va.vpn[level]`. -/
def Scheme.vpn (sch : Scheme) (va : Word) (level : Nat) : Nat :=
  (va >>> sch.pageBits level).toNat % 2 ^ sch.vpnBits

/-- `V`, bit 0. -/
def pteValid (pte : Word) : Bool := pte.getLsbD 0

/-- `Type`, bits 4:1. -/
def pteType (pte : Word) : Nat := (pte.extractLsb' 1 4).toNat

/-- `pte.ppn * PAGESIZE`: bits 31:10 (Sv32) or 47:10 (Sv39, Sv48); the reserved bits 63:48 are ignored (R296, D43). -/
def pteBase (pte : Word) : Word := (pte.extractLsb' 10 38).setWidth 64 <<< 12

/-- What a page type lets an access do: read, write, execute. -/
structure Rights where
  r : Bool
  w : Bool
  x : Bool
deriving DecidableEq, Repr

/-- The rights of Table 4.2 for supervisor and for user, types 0 to 15 in order (R283). -/
def pteRights : List (Rights × Rights) :=
  let no : Rights := ⟨false, false, false⟩
  let r : Rights := ⟨true, false, false⟩
  let rw : Rights := ⟨true, true, false⟩
  let rx : Rights := ⟨true, false, true⟩
  let rwx : Rights := ⟨true, true, true⟩
  [(no, no), (no, no), (r, rx), (rw, rwx), (r, r), (rw, rw), (rx, rx), (rwx, rwx),
    (r, no), (rw, no), (rx, no), (rwx, no), (r, no), (rw, no), (rx, no), (rwx, no)]

/-- `Allowed(type, acc, p)` (R284); H as S (R305). -/
def pteAllowed (type : Nat) (acc : Acc) (p : Priv) : Bool :=
  match pteRights[type]? with
  | none => false
  | some (sup, user) =>
    let rights := if p = .u then user else sup
    match acc with
    | .fetch => rights.x
    | .load => rights.r
    | .store | .amo => rights.w

/-- A type that makes a mapping, or everything below a pointer, global: 1 and 12 to 15 (R287). -/
def pteGlobal (type : Nat) : Bool :=
  decide (type = 1) || decide (12 ≤ type)

/-- The bits an access sets in its leaf PTE: R, and D for a store (R285). -/
def pteUsedBits (acc : Acc) : Word :=
  if acc.isStore then 0x60 else 0x20

/-! ### The walk (R290 to R292) -/

/-- One translation to make: scheme, address, access kind, and the privilege it is made with. -/
structure WalkReq where
  sch : Scheme
  va : Word
  acc : Acc
  priv : Priv
deriving DecidableEq, Repr

/-- The cache entry maps `va` in the current address space (20_memory.md R245, 70_reset_and_hazards.md R502). -/
def TcEntry.usable (e : TcEntry) (sasid va : Word) : Bool :=
  (e.global || e.asid = sasid) && va >>> e.vaBits = e.vaBase >>> e.vaBits

/-- The cached PTEs a walk may use at a level. -/
def cachedAt (s : State) (va : Word) (level : Nat) : List TcEntry :=
  s.tc.filter fun e => e.level = level && e.usable s.sasid va

/-- The cached leaves for an address, of any level (92_eei_decisions.md D24). -/
def cachedLeaves (s : State) (va : Word) : List TcEntry :=
  s.tc.filter fun e => pteValid e.pte && e.usable s.sasid va && 2 ≤ pteType e.pte

/-- A free choice among cached PTEs and none of them (20_memory.md R245): nothing is drawn where nothing is cached. -/
def chooseCached (draw place : Nat) : List TcEntry → Option TcEntry
  | [] => none
  | e :: rest => (e :: rest)[Config.tcChoice draw place % (rest.length + 2)]?

/-- The PTE of a level read from memory at table `base`, as a cache entry; none where a physical check refuses the read
(20_memory.md R248). -/
def readPte (s : State) (req : WalkReq) (base : Word) (level : Nat) : Option TcEntry :=
  let addr := s.cfg.physical (base + BitVec.ofNat 64 (req.sch.vpn req.va level * req.sch.pteBytes))
  if physOk s.cfg .pteRead addr req.sch.pteBytes req.priv then
    let pte := Memory.readLE s.mem addr req.sch.pteBytes
    some
      { asid := s.sasid, global := pteGlobal (pteType pte), vaBase := req.va, vaBits := req.sch.pageBits level,
        level := level, pte := pte, pteAddr := addr, pteBytes := req.sch.pteBytes }
  else none

/-- A PTE read from memory may be added to the cache if it is valid (20_memory.md R245). -/
def mayCache (e : TcEntry) (s : State) : State :=
  { s with tc := if pteValid e.pte && Config.tcAdds s.draws e.level then e :: s.tc else s.tc }

/-- R and D are set in the PTE's place in memory and in every cached copy of it (21_translation.md R290; assumption log
16). -/
def setUsedBits (e : TcEntry) (bits : Word) (s : State) : State :=
  { s with
    mem := Memory.writeLE s.mem e.pteAddr (Memory.readLE s.mem e.pteAddr e.pteBytes ||| bits) e.pteBytes
    tc := s.tc.map fun d => if d.pteAddr = e.pteAddr then { d with pte := d.pte ||| bits } else d }

/-- Step 5 of the walk (R291): permission, R and D, and the address. Nothing is written where the bits are already set
(R285), and the PTE write passes the physical checks (20_memory.md R248). -/
def useLeaf (req : WalkReq) (e : TcEntry) (s : State) : Option Word × State :=
  if !pteAllowed (pteType e.pte) req.acc req.priv then (none, s)
  else
    let low : Word := BitVec.ofNat 64 (2 ^ e.vaBits - 1)
    let pa := (pteBase e.pte &&& ~~~low) ||| (req.va &&& low)
    if e.pte &&& pteUsedBits req.acc = pteUsedBits req.acc then (some pa, s)
    else if !physOk s.cfg .pteWrite e.pteAddr e.pteBytes req.priv then (none, s)
    else (some pa, setUsedBits e (pteUsedBits req.acc) s)

/-- Steps 2 to 4 of the walk (R291) from table `base` at `level`, below a global pointer or not: the leaf found, or none
for an address error. The cached PTEs are those of the state `s0` in which the walk began; only the cache changes. -/
def walk (req : WalkReq) (s0 : State) : Nat → Word → Bool → State → Option TcEntry × State
  | level, base, global, s =>
    let fromCache := chooseCached s0.draws level (cachedAt s0 req.va level)
    let source :=
      match fromCache with
      | some e => some e
      | none => (readPte s req base level).map fun (e : TcEntry) => { e with global := e.global || global }
    match source with
    | none => (none, s)
    | some e =>
      if !pteValid e.pte then (none, s)
      else
        let s1 := if fromCache = none then mayCache e s else s
        if 2 ≤ pteType e.pte then (some e, s1)
        else
          match level with
          | 0 => (none, s1)
          | below + 1 => walk req s0 below (pteBase e.pte) (global || e.global) s1

/-- The leaf a paged translation uses: a cached one, or the one the walk from `sptbr` finds (92_eei_decisions.md D24). -/
def findLeaf (req : WalkReq) (s : State) : Option TcEntry × State :=
  match chooseCached s.draws req.sch.levels (cachedLeaves s req.va) with
  | some e => (some e, s)
  | none => walk req s (req.sch.levels - 1) s.sptbr false s

/-- A paged translation (R290, R291). It takes one draw, which its choices share. -/
def translatePaged (req : WalkReq) (s : State) : Option Word × State :=
  let r :=
    match findLeaf req s with
    | (some e, s1) => useLeaf req e s1
    | (none, s1) => (none, s1)
  (r.1, { r.2 with draws := r.2.draws + 1 })

/-- Bits 63:n of the address equal bit `n - 1` (R297, R302). -/
def canonical (va : Word) (n : Nat) : Bool :=
  va = (va.setWidth n).signExtend 64

/-- `Translate(va, acc, eff_priv)` (R260): a supervisor physical address, or none for an access fault. The canonical
check is applied to fetches too (D23). -/
def translateAddress (va : Word) (acc : Acc) (p : Priv) (s : State) : Option Word × State :=
  if p = .m then (some va, s)
  else if s.mstatus.vm = 0 then (some va, s)
  else if s.mstatus.vm = 1 then (translateMbb s va acc, s)
  else if s.mstatus.vm = 2 then (translateMbbid s va acc, s)
  else if s.mstatus.vm = 8 then translatePaged { sch := sv32, va := va, acc := acc, priv := p } s
  else if s.mstatus.vm = 9 then
    if canonical va 39 then translatePaged { sch := sv39, va := va, acc := acc, priv := p } s else (none, s)
  else if s.mstatus.vm = 10 then
    if canonical va 48 then translatePaged { sch := sv48, va := va, acc := acc, priv := p } s else (none, s)
  else (none, s)

end Sys2Proof.Machine
end

