-- ==== Sys2Proof/Machine/Fence.lean ====
section
/-!
DEFINITION. The supervisor memory-management fence (44_sfence_vm.md).
-/

namespace Sys2Proof.Machine

/-- The cache entry is in `Removed(sasid, rs1, v)` (R401): of the address spaces the fence covers, and of the addresses
it names; the test on `rs1` is on the register's number. -/
def fenceRemoves (sasid : Word) (rs1 : Reg) (v : Word) (e : TcEntry) : Bool :=
  (sasid = 0 || (!e.global && e.asid = sasid)) && (rs1 = 0 || v >>> e.vaBits = e.vaBase >>> e.vaBits)

/-- SFENCE.VM (R400): illegal at U; otherwise the covered entries leave the translation cache. -/
def execSfenceVm (rs1 : Reg) (s : State) : Result :=
  if s.priv = .u then .next (raiseIllegal s)
  else .next { s.advance with tc := s.tc.filter fun e => !fenceRemoves s.sasid rs1 (s.readReg rs1) e }

end Sys2Proof.Machine
end

