-- ==== Sys2Proof/Machine/PrivInstr.lean ====
section
/-!
DEFINITION. The instructions that change the privilege level (41_privilege_change.md).
-/

namespace Sys2Proof.Machine

/-- The code of an environment call, 8 plus the current mode (41_privilege_change.md R370). -/
def ecallCode (p : Priv) : BitVec 4 :=
  8 + p.bits.setWidth 4

/-- ECALL (R370): an environment-call exception, at every level. -/
def execEcall (s : State) : Result :=
  .next (raiseException (ecallCode s.priv) none s)

/-- EBREAK (R371): a breakpoint exception, at every level. -/
def execEbreak (s : State) : Result :=
  .next (raiseException 3 none s)

/-- ERET (R372): illegal at U; otherwise the stack is popped and execution goes on at the epc of the mode the
instruction ran in, read before the pop. A stack that would pop an unsupported mode is the spec's refusal point
(92_eei_decisions.md D16), and so is a rise of the level where ERET_ESCALATION is `refuse` (D39). -/
def execEret (s : State) : Result :=
  if s.priv = .u then .next (raiseIllegal s)
  else if !s.cfg.has (Mstatus.pop s.cfg s.mstatus).e0.prv then .refused .unsupportedMode
  else if decide (s.cfg.eretEscalation = .refuse)
      && decide (s.priv.level < (Mstatus.pop s.cfg s.mstatus).e0.prv.level) then .refused .eretEscalation
  else .next (trapReturn (s.trapRegs s.priv).epc s)

end Sys2Proof.Machine
end

