-- ==== Sys2Proof/Machine/Redirect.lean ====
section
/-!
DEFINITION. The trap-redirection instructions (42_trap_redirect.md).
-/

namespace Sys2Proof.Machine

/-- Redirection of a trap from M to level `t` (R380, R381): the machine's epc, cause and bad address are copied to the
level's, entry 0 of the stack takes its mode, and execution goes on at its handler. Nothing is pushed or popped. -/
def redirectTrap (t : Priv) (handler : Word) (s : State) : State :=
  let s1 := s.setTrapRegs t
    { s.trapRegs t with epc := s.tm.epc, cause := s.tm.cause, badaddr := s.tm.badaddr }
  { s1 with mstatus := { s.mstatus with e0 := { s.mstatus.e0 with prv := t } }, pc := handler }

/-- MRTS (R380): illegal outside M or without S. -/
def execMrts (s : State) : Result :=
  if s.priv = .m && s.cfg.has .s then .next (redirectTrap .s s.stvec s) else .next (raiseIllegal s)

/-- MRTH (R381): illegal outside M or without H. -/
def execMrth (s : State) : Result :=
  if s.priv = .m && s.cfg.has .h then .next (redirectTrap .h s.htvec s) else .next (raiseIllegal s)

/-- HRTS (R382): an encoding with no operation, an illegal instruction at every level. -/
def execHrts (s : State) : Result :=
  .next (raiseIllegal s)

end Sys2Proof.Machine
end

