-- ==== Sys2Proof/Machine/Wait.lean ====
section
/-!
DEFINITION. Wait for interrupt (43_wfi.md).
-/

namespace Sys2Proof.Machine

/-- `pending_any`: some source, added ones included, is pending, enabled or not (R390). -/
def pendingAny (s : State) : Bool :=
  s.mip.any || s.nmiPending

/-- WFI (R390): illegal at U; otherwise complete at once, with a free choice to stall where nothing is pending. -/
def execWfi (s : State) : Result :=
  if s.priv = .u then .next (raiseIllegal s)
  else .next { s.advance with stalled := !pendingAny s && Config.wfiStalls s.draws, draws := s.draws + 1 }

/-- One step of a stalled hart (R390): it must wake where something is pending, and may wake for no cause. -/
def idleStep (s : State) : State :=
  { s with stalled := !(pendingAny s || Config.spuriousWake s.draws), draws := s.draws + 1 }

end Sys2Proof.Machine
end

