-- ==== Sys2Proof/Syntax.lean ====
section
/-!
DEFINITION. The instructions: one constructor per row of spec/opcode_table.json, in the table's order
(30_encoding.md R324). Operands stand in assembler order, destination first (R330).
-/

namespace Sys2Proof

/-- The 14 encodings of the privileged architecture (00_scope.md R3, 30_encoding.md R324). -/
inductive Instr where
  /-- CSRRW rd, csr, rs1 (40_csr_instructions.md R352). -/
  | csrrw (rd : Reg) (csr : CsrAddr) (rs1 : Reg)
  /-- CSRRS rd, csr, rs1 (R353). -/
  | csrrs (rd : Reg) (csr : CsrAddr) (rs1 : Reg)
  /-- CSRRC rd, csr, rs1 (R354). -/
  | csrrc (rd : Reg) (csr : CsrAddr) (rs1 : Reg)
  /-- CSRRWI rd, csr, zimm (R355). -/
  | csrrwi (rd : Reg) (csr : CsrAddr) (zimm : BitVec 5)
  /-- CSRRSI rd, csr, zimm (R356). -/
  | csrrsi (rd : Reg) (csr : CsrAddr) (zimm : BitVec 5)
  /-- CSRRCI rd, csr, zimm (R357). -/
  | csrrci (rd : Reg) (csr : CsrAddr) (zimm : BitVec 5)
  /-- ECALL (41_privilege_change.md R370). -/
  | ecall
  /-- EBREAK (R371). -/
  | ebreak
  /-- ERET (R372). -/
  | eret
  /-- MRTS (42_trap_redirect.md R380). -/
  | mrts
  /-- MRTH (R381). -/
  | mrth
  /-- HRTS, an encoding with no operation: always an illegal instruction (R382). -/
  | hrts
  /-- WFI (43_wfi.md R390). -/
  | wfi
  /-- SFENCE.VM rs1 (44_sfence_vm.md R400). -/
  | sfenceVm (rs1 : Reg)
deriving DecidableEq, Repr

end Sys2Proof
end

