-- ==== Sys2Proof/Machine/Environment.lean ====
section
/-!
DEFINITION. What happens to a hart between two instructions from outside it (10_state.md R30): the clock and `cycle`
advance, `MSIP`, added interrupt bits and added CSRs may be written by other agents, a non-maskable interrupt may arrive,
cached translations may vanish.
-/

namespace Sys2Proof.Machine

/-- A remote write of `mip.MSIP` (11_state_machine_csrs.md R131; assumption log 13). -/
def remoteMsip (s : State) : State :=
  { s with
    mip :=
      { s.mip with
        msi := if s.cfg.remoteMsip then (Config.remoteMsipWrite s.draws).getD s.mip.msi else s.mip.msi } }

/-- The pending bits of added sources are what the platform makes them (11_state_machine_csrs.md R135; assumption log
32). -/
def extraSources (s : State) : State :=
  { s with
    mip := { s.mip with extra := maskedWrite s.mip.extra s.cfg.extraIntBits (Config.extraPending s.draws) } }

/-- Added CSRs after other agents may have written those that are theirs to write; `k` counts the place in EXTRA_CSRS. -/
def updatedExtras (c : Config) (draw : Nat) : Nat → List ExtraCsr → List Word → List Word
  | k, e :: rest, v :: vs =>
    (if e.external then c.trunc ((Config.extraCsrUpdate draw k).getD v) else v) :: updatedExtras c draw (k + 1) rest vs
  | _, _, vs => vs

/-- Other agents may write added CSRs (10_state.md R51; assumption log 32). -/
def extraCsrWrites (s : State) : State :=
  { s with extra := updatedExtras s.cfg s.draws 0 s.cfg.extraCsrs s.extra }

/-- A non-maskable interrupt may arrive (60_exceptions.md R436; assumption log 12). -/
def nmiArrival (s : State) : State :=
  { s with nmiPending := s.nmiPending || (s.cfg.hasNmi && Config.nmiArrives s.draws) }

/-- The entries of a list that a free choice keeps; each is asked for by its place. -/
def keptEntries (draw : Nat) : Nat → List TcEntry → List TcEntry
  | _, [] => []
  | k, e :: rest =>
    if Config.tcKeeps draw k then e :: keptEntries draw (k + 1) rest else keptEntries draw (k + 1) rest

/-- Entries of the translation cache may be dropped at any time (20_memory.md R245). -/
def dropTranslations (s : State) : State :=
  { s with tc := keptEntries s.draws 0 s.tc }

/-- Everything the outside does at one boundary; it takes one draw, which its parts share. -/
def environment (s : State) : State :=
  let s1 := advanceCycles (Config.cycleAdvance s.draws) (passTime s)
  let s2 := extraCsrWrites (extraSources (remoteMsip s1))
  let s3 := dropTranslations (nmiArrival s2)
  { s3 with draws := s3.draws + 1 }

end Sys2Proof.Machine
end

