-- ==== Sys2Proof/WellFormed.lean ====
section
/-!
DEFINITION. Well-formedness of an instruction: every register it names exists. The base ISA has 32 integer
registers, RV32E has 16 (10_state.md R32); every other field is of its exact width by its type.
-/

namespace Sys2Proof

/-- The integer registers an instruction names in its `rd` and `rs1` fields (10_state.md R33). -/
def Instr.regs : Instr → List Reg
  | .csrrw rd _ rs1 => [rd, rs1]
  | .csrrs rd _ rs1 => [rd, rs1]
  | .csrrc rd _ rs1 => [rd, rs1]
  | .csrrwi rd _ _ => [rd]
  | .csrrsi rd _ _ => [rd]
  | .csrrci rd _ _ => [rd]
  | .ecall => []
  | .ebreak => []
  | .eret => []
  | .mrts => []
  | .mrth => []
  | .hrts => []
  | .wfi => []
  | .sfenceVm rs1 => [rs1]

/-- The instruction names only registers below `nregs`, the number of integer registers of the base ISA
(32, or 16 on RV32E: 10_state.md R32). -/
def Instr.wellFormed (nregs : Nat) (i : Instr) : Bool :=
  i.regs.all fun r => decide (r.val < nregs)

end Sys2Proof
end

