-- ==== Sys2Proof/Decode.lean ====
section
/-!
DEFINITION. The decoder (30_encoding.md R333), total on every word and on every list of bytes, and the encoder, written
from the same table (R321, R324).
-/

namespace Sys2Proof

/-- Why a word is no instruction of the privileged architecture. -/
inductive DecodeError where
  /-- A SYSTEM word that matches no row of the table: an illegal instruction (30_encoding.md R327). -/
  | unallocatedSystem
  /-- Another major opcode: the word belongs to the user-level ISA (R333, last sentence; 00_scope.md R6). -/
  | notSystem
  /-- Fewer than the four bytes of an instruction were given. -/
  | tooShort
deriving DecidableEq, Repr

/-- The major opcode SYSTEM, `1110011` (R320). -/
def opcodeSystem : BitVec 7 := 0b1110011#7

/-! ### Fields of the I-type format (R321) -/

def opcodeOf (w : BitVec 32) : BitVec 7 := w.extractLsb' 0 7
def rdOf (w : BitVec 32) : Reg := (w.extractLsb' 7 5).toFin
def funct3Of (w : BitVec 32) : BitVec 3 := w.extractLsb' 12 3
def rs1Of (w : BitVec 32) : Reg := (w.extractLsb' 15 5).toFin
def zimmOf (w : BitVec 32) : BitVec 5 := w.extractLsb' 15 5
def csrOf (w : BitVec 32) : CsrAddr := w.extractLsb' 20 12

/-- The PRIV minor opcode, `funct3` = 000: `rd` is 0, and so is `rs1` but for SFENCE.VM (R324, R327, R333). HRTS has an
encoding, so it decodes; its meaning is an illegal instruction (R382). -/
def decodePriv (w : BitVec 32) : Except DecodeError Instr :=
  if rdOf w ≠ 0 then .error .unallocatedSystem
  else if csrOf w = 0x101#12 then .ok (.sfenceVm (rs1Of w))
  else if rs1Of w ≠ 0 then .error .unallocatedSystem
  else if csrOf w = 0x000#12 then .ok .ecall
  else if csrOf w = 0x001#12 then .ok .ebreak
  else if csrOf w = 0x100#12 then .ok .eret
  else if csrOf w = 0x102#12 then .ok .wfi
  else if csrOf w = 0x305#12 then .ok .mrts
  else if csrOf w = 0x306#12 then .ok .mrth
  else if csrOf w = 0x205#12 then .ok .hrts
  else .error .unallocatedSystem

/-- Decoding of a 32-bit word (R333). -/
def decode (w : BitVec 32) : Except DecodeError Instr :=
  if opcodeOf w ≠ opcodeSystem then .error .notSystem
  else if funct3Of w = 0b000#3 then decodePriv w
  else if funct3Of w = 0b001#3 then .ok (.csrrw (rdOf w) (csrOf w) (rs1Of w))
  else if funct3Of w = 0b010#3 then .ok (.csrrs (rdOf w) (csrOf w) (rs1Of w))
  else if funct3Of w = 0b011#3 then .ok (.csrrc (rdOf w) (csrOf w) (rs1Of w))
  else if funct3Of w = 0b101#3 then .ok (.csrrwi (rdOf w) (csrOf w) (zimmOf w))
  else if funct3Of w = 0b110#3 then .ok (.csrrsi (rdOf w) (csrOf w) (zimmOf w))
  else if funct3Of w = 0b111#3 then .ok (.csrrci (rdOf w) (csrOf w) (zimmOf w))
  else .error .unallocatedSystem

/-- Four bytes as a word, the byte at the lowest address being bits 7:0 (20_memory.md R221). -/
def wordOfBytes (b0 b1 b2 b3 : Byte) : BitVec 32 :=
  b0.setWidth 32 ||| b1.setWidth 32 <<< 8 ||| b2.setWidth 32 <<< 16 ||| b3.setWidth 32 <<< 24

/-- The four bytes of a word, lowest address first (20_memory.md R221). -/
def bytesOfWord (w : BitVec 32) : List Byte :=
  [w.extractLsb' 0 8, w.extractLsb' 8 8, w.extractLsb' 16 8, w.extractLsb' 24 8]

/-- Decoding of the bytes at an address, in rising order: the instruction and the bytes after it. Every encoding is four
bytes long (R320). -/
def decodeBytes : List Byte → Except DecodeError (Instr × List Byte)
  | b0 :: b1 :: b2 :: b3 :: rest =>
    match decode (wordOfBytes b0 b1 b2 b3) with
    | .ok i => .ok (i, rest)
    | .error e => .error e
  | _ => .error .tooShort

/-- What the decoder reads from an instruction whose first `nbits` bits are `w`, every bit above being 0. -/
def decodeTableWord (nbits w : Nat) : Option Instr :=
  match decodeBytes (bytesOfWord (BitVec.ofNat 32 (w % 2 ^ nbits))) with
  | .ok (i, _) => some i
  | .error _ => none

/-! ### Encoding (R321, R324) -/

/-- A field's bits, put at bit `lo` of the word. -/
def placeAt {n : Nat} (lo : Nat) (v : BitVec n) : BitVec 32 := v.setWidth 32 <<< lo

/-- The I-type word of a 12-bit, a 5-bit, a 3-bit and a 5-bit field under the major opcode SYSTEM (R321). -/
def iType (imm : BitVec 12) (rs1 : BitVec 5) (funct3 : BitVec 3) (rd : BitVec 5) : BitVec 32 :=
  placeAt 20 imm ||| placeAt 15 rs1 ||| placeAt 12 funct3 ||| placeAt 7 rd ||| placeAt 0 opcodeSystem

/-- The word of an instruction (R324). -/
def encode : Instr → BitVec 32
  | .csrrw rd csr rs1 => iType csr (BitVec.ofFin (w := 5) rs1) 0b001 (BitVec.ofFin (w := 5) rd)
  | .csrrs rd csr rs1 => iType csr (BitVec.ofFin (w := 5) rs1) 0b010 (BitVec.ofFin (w := 5) rd)
  | .csrrc rd csr rs1 => iType csr (BitVec.ofFin (w := 5) rs1) 0b011 (BitVec.ofFin (w := 5) rd)
  | .csrrwi rd csr zimm => iType csr zimm 0b101 (BitVec.ofFin (w := 5) rd)
  | .csrrsi rd csr zimm => iType csr zimm 0b110 (BitVec.ofFin (w := 5) rd)
  | .csrrci rd csr zimm => iType csr zimm 0b111 (BitVec.ofFin (w := 5) rd)
  | .ecall => iType 0x000 0 0 0
  | .ebreak => iType 0x001 0 0 0
  | .eret => iType 0x100 0 0 0
  | .sfenceVm rs1 => iType 0x101 (BitVec.ofFin (w := 5) rs1) 0 0
  | .wfi => iType 0x102 0 0 0
  | .hrts => iType 0x205 0 0 0
  | .mrts => iType 0x305 0 0 0
  | .mrth => iType 0x306 0 0 0

/-- The bits a row of the table fixes, as (match, mask) (R324). -/
def Instr.row : Instr → BitVec 32 × BitVec 32
  | .csrrw _ _ _ => (0x00001073, 0x0000707F)
  | .csrrs _ _ _ => (0x00002073, 0x0000707F)
  | .csrrc _ _ _ => (0x00003073, 0x0000707F)
  | .csrrwi _ _ _ => (0x00005073, 0x0000707F)
  | .csrrsi _ _ _ => (0x00006073, 0x0000707F)
  | .csrrci _ _ _ => (0x00007073, 0x0000707F)
  | .ecall => (0x00000073, 0xFFFFFFFF)
  | .ebreak => (0x00100073, 0xFFFFFFFF)
  | .eret => (0x10000073, 0xFFFFFFFF)
  | .sfenceVm _ => (0x10100073, 0xFFF07FFF)
  | .wfi => (0x10200073, 0xFFFFFFFF)
  | .hrts => (0x20500073, 0xFFFFFFFF)
  | .mrts => (0x30500073, 0xFFFFFFFF)
  | .mrth => (0x30600073, 0xFFFFFFFF)

end Sys2Proof
end

