-- ==== Sys2Proof/Machine/Access.lean ====
section
/-!
DEFINITION. The access path of 20_memory.md R247, which every fetch, load and store follows. The loads and stores
themselves belong to the user-level ISA (00_scope.md R6); their path and their exceptions stand here for a base-ISA model
to call (92_eei_decisions.md D4).
-/

namespace Sys2Proof.Machine

/-- What an access answers: a value with the state after it, an exception to raise in that state, or a device. -/
inductive Access (α : Type) where
  | done (value : α) (s : State)
  | trap (code : BitVec 4) (badaddr : Word) (s : State)
  | device
deriving DecidableEq, Repr

/-- Steps 2 to 4 of the access path (R247) for `n` bytes at `va`: translation, PMACCESS, PMA. The value is the
machine-physical address. -/
def accessPath (acc : Acc) (va : Word) (n : Nat) (s : State) : Access Nat :=
  match translateAddress va acc (s.effPriv acc) s with
  | (none, s1) => .trap acc.faultCode va s1
  | (some a, s1) =>
    if !physOk s.cfg acc.phys (s.cfg.physical a) n (s.effPriv acc) then .trap acc.faultCode va s1
    else if s.cfg.isDevice (s.cfg.physical a) n then .device
    else .done (s.cfg.physical a) s1

/-- The machine-physical addresses of `n` bytes at `va`, each found by the access path on its own; a fault reports the
byte's address (assumption log 29). -/
def bytePaths (acc : Acc) (va : Word) : Nat → State → Access (List Nat)
  | 0, s => .done [] s
  | n + 1, s =>
    match accessPath acc va 1 s with
    | .trap code badaddr s1 => .trap code badaddr s1
    | .device => .device
    | .done pa s1 =>
      match bytePaths acc (s.cfg.trunc (va + 1)) n s1 with
      | .trap code badaddr s2 => .trap code badaddr s2
      | .device => .device
      | .done rest s2 => .done (pa :: rest) s2

/-- The machine-physical addresses of the `n` bytes of a data access, with the alignment check of R223 first: an aligned
access is one access of `n` bytes; a misaligned one raises its code, or goes byte by byte where MISALIGNED_DATA_OK. -/
def dataPath (acc : Acc) (va : Word) (n : Nat) (s : State) : Access (List Nat) :=
  if va.toNat % n = 0 then
    match accessPath acc va n s with
    | .trap code badaddr s1 => .trap code badaddr s1
    | .device => .device
    | .done pa s1 => .done (List.range' pa n) s1
  else if s.cfg.misalignedDataOk then bytePaths acc va n s
  else .trap acc.misalignedCode va s

/-- The bytes at a list of addresses, as one little-endian value. -/
def gatherBytes (m : Memory) : List Nat → Word
  | [] => 0
  | a :: rest => (Memory.read m a).setWidth 64 ||| gatherBytes m rest <<< 8

/-- The low bytes of a value stored at a list of addresses. -/
def scatterBytes (m : Memory) (v : Word) : List Nat → Memory
  | [] => m
  | a :: rest => scatterBytes (Memory.write m a (v.setWidth 8)) (v >>> 8) rest

/-- A load of `n` bytes, zero-extended (R247, R415, R416). -/
def loadData (va : Word) (n : Nat) (s : State) : Access Word :=
  match dataPath .load va n s with
  | .trap code badaddr s1 => .trap code badaddr s1
  | .device => .device
  | .done addrs s1 => .done (gatherBytes s1.mem addrs) s1

/-- A store of the low `n` bytes of a value; every byte's path is found before the first is written (R247, R417, R418,
60_exceptions.md R443). -/
def storeData (va v : Word) (n : Nat) (s : State) : Access Unit :=
  match dataPath .store va n s with
  | .trap code badaddr s1 => .trap code badaddr s1
  | .device => .device
  | .done addrs s1 => .done () { s1 with mem := scatterBytes s1.mem v addrs }

end Sys2Proof.Machine
end

