-- ==== Sys2Proof/Machine/Fetch.lean ====
section
/-!
DEFINITION. Instruction fetch (20_memory.md R247 with the access kind Fetch; 60_exceptions.md R411, R412).
-/

namespace Sys2Proof.Machine

/-- The little-endian bytes at machine-physical addresses. -/
def fetchBytes (s : State) (addrs : List Nat) : List Byte :=
  addrs.map (Memory.read s.mem)

/-- The machine-physical addresses of the bytes of the instruction at `pc`. A misaligned `pc` raises code 0 (assumption
log 31). With IALIGN = 32 the instruction is one access of four bytes; with IALIGN = 16 two of two bytes, and a fault of
the second reports its own address (R412; assumption log 30). A first parcel whose low bits are not 11 is no 32-bit
instruction: its two bytes are answered alone (30_encoding.md R329). -/
def fetchPath (s : State) : Access (List Nat) :=
  if s.pc.toNat % s.cfg.ialignBytes ≠ 0 then .trap Acc.fetch.misalignedCode s.pc s
  else
    match s.cfg.ialign with
    | .i32 =>
      match accessPath .fetch s.pc 4 s with
      | .trap code badaddr s1 => .trap code badaddr s1
      | .device => .device
      | .done pa s1 => .done [pa, pa + 1, pa + 2, pa + 3] s1
    | .i16 =>
      match accessPath .fetch s.pc 2 s with
      | .trap code badaddr s1 => .trap code badaddr s1
      | .device => .device
      | .done pa s1 =>
        if (Memory.read s1.mem pa).extractLsb' 0 2 ≠ 0b11#2 then .done [pa, pa + 1] s1
        else
          match accessPath .fetch (s.cfg.trunc (s.pc + 2)) 2 s1 with
          | .trap code badaddr s2 => .trap code badaddr s2
          | .device => .device
          | .done qa s2 => .done [pa, pa + 1, qa, qa + 1] s2

/-- What the bytes at `pc` decode to. Two bytes alone are an instruction of another length, which is no SYSTEM
instruction (30_encoding.md R329). -/
def decodeFetched (bytes : List Byte) : Except DecodeError Instr :=
  match decodeBytes bytes with
  | .ok (i, _) => .ok i
  | .error .tooShort => .error .notSystem
  | .error e => .error e

/-- Bytes stored at a list of addresses. -/
def storeBytes (m : Memory) : List Nat → List Byte → Memory
  | a :: addrs, b :: bytes => storeBytes (Memory.write m a b) addrs bytes
  | _, _ => m

/-- The addresses the next fetch reads, four in number: those the access path gives, or, where it gives none, those of
`pc` itself. -/
def fetchAddresses (s : State) : List Nat :=
  let here := [s.cfg.physical s.pc, s.cfg.physical s.pc + 1, s.cfg.physical s.pc + 2, s.cfg.physical s.pc + 3]
  match s.cfg.ialign with
  | .i32 =>
    match fetchPath s with
    | .done addrs _ => addrs
    | _ => here
  | .i16 =>
    match accessPath .fetch s.pc 2 s with
    | .done pa s1 =>
      match accessPath .fetch (s.cfg.trunc (s.pc + 2)) 2 s1 with
      | .done qa _ => [pa, pa + 1, qa, qa + 1]
      | _ => here
    | _ => here

/-- The word `w` stored where the next fetch reads. -/
def storeAtFetch (s : State) (w : BitVec 32) : State :=
  { s with mem := storeBytes s.mem (fetchAddresses s) (bytesOfWord w) }

end Sys2Proof.Machine
end

