-- ==== Sys2Proof/Machine/Interrupts.lean ====
section
/-!
DEFINITION. Interrupts: sources, enabling, choice and entry (60_exceptions.md section 2; assumption logs 11 and 12).
-/

namespace Sys2Proof.Machine

/-- The maskable sources of R430, and those an implementation adds (11_state_machine_csrs.md R135). -/
inductive IntSource where
  | ssi | hsi | msi | sti | hti | mti
  | extra (bit : Nat) (code : BitVec 4)
deriving DecidableEq, Repr

/-- The bit of a source in `mip` and `mie` (R430). -/
def IntSource.bit : IntSource → Nat
  | .ssi => 1
  | .hsi => 2
  | .msi => 3
  | .sti => 5
  | .hti => 6
  | .mti => 7
  | .extra bit _ => bit

/-- The level a source belongs to (R430); an added one is of the machine level (R135). -/
def IntSource.level : IntSource → Priv
  | .ssi | .sti => .s
  | .hsi | .hti => .h
  | .msi | .mti | .extra _ _ => .m

/-- The cause of a source: 0 for software, 1 for timer (R421, R422). -/
def IntSource.cause : IntSource → Cause
  | .ssi | .hsi | .msi => { interrupt := true, code := 0 }
  | .sti | .hti | .mti => { interrupt := true, code := 1 }
  | .extra _ code => { interrupt := true, code := code }

/-- A source's bit. -/
def IntBits.get (b : IntBits) : IntSource → Bool
  | .ssi => b.ssi
  | .hsi => b.hsi
  | .msi => b.msi
  | .sti => b.sti
  | .hti => b.hti
  | .mti => b.mti
  | .extra bit _ => b.extra.getLsbD bit

/-- `enabled(i)` (R431): pending, individually enabled, and of a higher level than the current mode, or of the same
level with `IE` set. -/
def intEnabled (s : State) (i : IntSource) : Bool :=
  s.mie.get i && s.mip.get i
    && (decide (s.priv.level < i.level.level) || (decide (s.priv = i.level) && s.mstatus.e0.ie))

/-- Every source, in the order 60_exceptions.md R437 names for a refinement; the order decides nothing. -/
def intSources (c : Config) : List IntSource :=
  [.msi, .mti, .hsi, .hti, .ssi, .sti] ++ c.extraInterrupts.map fun e => .extra e.bit e.code

/-- The enabled sources. -/
def enabledSources (s : State) : List IntSource :=
  (intSources s.cfg).filter (intEnabled s)

/-- Which enabled source is taken: the only one, or any one of several (R437, 92_eei_decisions.md D10). -/
def pickSource (draw : Nat) : List IntSource → Option IntSource
  | [] => none
  | [i] => some i
  | i :: j :: rest => (i :: j :: rest)[Config.interruptPick draw % (rest.length + 2)]?

/-- An interrupt trap of a source: the epc is the instruction that would have run next (R431, R432), the delegation bit
is 16 plus the source's bit (R440). -/
def takeInterrupt (i : IntSource) (s : State) : State :=
  takeTrap (16 + i.bit) i.cause s.pc none s

/-- A non-maskable interrupt (R436, 92_eei_decisions.md D27): to M at `mtvec + 0xFC`, the stack pushed, `mepc` as for an
interrupt, `mcause` arbitrary; whether it is still pending afterwards is not given. -/
def takeNmi (s : State) : State :=
  let cause : Cause := { interrupt := (Config.nmiCause s.draws).1, code := (Config.nmiCause s.draws).2 }
  { enterTrap .m (s.cfg.trunc (s.mtvec + 0xFC)) cause s.pc none s with nmiPending := Config.nmiStays s.draws }

/-- The interrupt taken at a boundary, if any (R431): a non-maskable one whatever is masked, else one of the enabled
sources. -/
def interruptAtBoundary (s : State) : Option State :=
  if s.cfg.hasNmi && s.nmiPending then some (takeNmi s)
  else (pickSource s.draws (enabledSources s)).map fun i => takeInterrupt i s

end Sys2Proof.Machine
end

