-- ==== Sys2Proof/Machine/Cycle.lean ====
section
/-!
DEFINITION. One instruction boundary and the instruction after it (60_exceptions.md R431, R438, R439): an interrupt is
taken first, a stalled hart waits, else an instruction is fetched, decoded, executed and counted. The outside acts once,
at the end.
-/

namespace Sys2Proof.Machine

/-- An outcome with an action after its next state. -/
def andThen (f : State → State) : Result → Result
  | .next s => .next (f s)
  | .fault e => .fault e
  | .refused r => .refused r

/-- What the hart does with the decoded bytes (30_encoding.md R327, R333): an instruction is executed, one that names a
register the base ISA lacks is illegal (assumption log 25), an unallocated SYSTEM word is illegal, and a word of another
major opcode belongs to the user-level ISA (assumption log 24). -/
def runDecoded (d : Except DecodeError Instr) (s : State) : Result :=
  match d with
  | .ok i => if i.wellFormed s.cfg.nregs then exec i s else .next (raiseIllegal s)
  | .error .notSystem => .refused .userLevelInstruction
  | .error .unallocatedSystem => .next (raiseIllegal s)
  | .error .tooShort => .refused .userLevelInstruction

/-- The instruction at `pc`: fetched, decoded, executed. -/
def runInstruction (s : State) : Result :=
  match fetchPath s with
  | .trap code badaddr s1 => .next (raiseException code (some badaddr) s1)
  | .device => .fault .deviceAccess
  | .done addrs s1 => runDecoded (decodeFetched (fetchBytes s1 addrs)) s1

/-- One step of the hart. Only an instruction moves `instret` (10_state.md R57): a stalled hart retires none
(43_wfi.md R390). -/
def cycle (s : State) : Result :=
  andThen environment
    (match interruptAtBoundary s with
    | some t => .next t
    | none => if s.stalled then .next (idleStep s) else andThen retire (runInstruction s))

end Sys2Proof.Machine
end

