-- ==== Sys2Proof/Machine/Step.lean ====
section
/-!
DEFINITION. The step, and the placing of an instruction where the step fetches.
-/

namespace Sys2Proof.Machine

/-- One step of the hart: an interrupt, a step of a stall, or an instruction; then the outside's action. -/
def step (s : State) : Host.Outcome State Fault Refusal :=
  cycle s

/-- The state with the instruction whose first `nbits` bits are `w` stored where the next step fetches (assumption log
5). -/
def State.withFetchWord (s : State) (nbits w : Nat) : State :=
  storeAtFetch s (BitVec.ofNat 32 (w % 2 ^ nbits))

end Sys2Proof.Machine
end

