-- ==== Sys2Proof/Safety.lean ====
section
/-!
DEFINITION. What the statements mean by a legal state: each predicate says what the spec keeps true of one kind of state
in every run, and `Inv` joins them.
-/

namespace Sys2Proof.Machine

/-- The value is one of XLEN bits (10_state.md R34). -/
def fits (c : Config) (v : Word) : Bool :=
  c.trunc v = v

/-- Every integer register holds XLEN bits (10_state.md R32). -/
def regsFit (s : State) : Bool :=
  decide (∀ i : Fin 32, fits s.cfg (s.x.get i) = true)

/-- `pc` is of XLEN bits and a multiple of IALIGN (10_state.md R36, 20_memory.md R224). -/
def pcOk (s : State) : Bool :=
  fits s.cfg s.pc && decide (s.pc.toNat % s.cfg.ialignBytes = 0)

/-- The fields of `mstatus` that must hold supported or hard-wired values do (11_state_machine_csrs.md R101, R103, R107,
R116). -/
def mstatusOk (c : Config) (m : Mstatus) : Bool :=
  decide (Mstatus.hardwireStack c m = m) && decide (Mstatus.hardwireUnits c m = m) && c.vmSupported m.vm
    && Mstatus.modesOk c m

/-- The trap registers of a level hold XLEN bits, and the epc no misaligned address (R142, R183). -/
def trapRegsOk (c : Config) (r : TrapRegs) : Bool :=
  fits c r.scratch && decide (c.alignEpc r.epc = r.epc) && fits c r.badaddr

/-- The bits of an unsupported level and those of no source are zero (R130, R133). -/
def intBitsOk (c : Config) (b : IntBits) : Bool :=
  (c.has .s || (!b.ssi && !b.sti)) && (c.has .h || (!b.hsi && !b.hti)) && decide (b.extra &&& c.extraIntBits = b.extra)

/-- The trap vectors are 4-byte aligned (R118, 12_state_supervisor_csrs.md R175; of `htvec` assumption logs 17 and 34).
-/
def vectorsOk (s : State) : Bool :=
  decide (s.cfg.alignTvec s.mtvec = s.mtvec) && decide (s.cfg.alignTvec s.stvec = s.stvec)
    && decide (s.cfg.alignTvec s.htvec = s.htvec)

/-- The delegation registers hold only their writable bits (R124, R126). -/
def delegationOk (s : State) : Bool :=
  decide (s.mtdeleg &&& s.cfg.mtdelegMask = s.mtdeleg) && decide (s.htdeleg &&& s.cfg.htdelegMask = s.htdeleg)

/-- `sptbr` names a page-aligned table (12_state_supervisor_csrs.md R188) and `sasid` holds ASIDLEN bits (R189). -/
def pagingOk (s : State) : Bool :=
  fits s.cfg s.sptbr && decide (s.sptbr &&& 0xFFF = 0) && decide (s.sasid &&& s.cfg.sasidMask = s.sasid)

/-- `fcsr` is `frm` and `fflags` (10_state.md R54); that no other bit is set is the model's choice (assumption log 18).
-/
def fcsrOk (s : State) : Bool :=
  decide (s.fp.fcsr &&& (fflagsMask s.cfg ||| frmMask s.cfg) = s.fp.fcsr)

/-- Every added CSR has a value, of XLEN bits (10_state.md R51; assumption log 32). -/
def extrasOk (s : State) : Bool :=
  decide (s.extra.length = s.cfg.extraCsrs.length) && s.extra.all (fits s.cfg)

/-- A legal state. -/
structure Inv (s : State) : Prop where
  cfg : s.cfg.valid = true
  mem : Memory.wf s.mem = true
  regs : regsFit s = true
  pc : pcOk s = true
  mstatus : mstatusOk s.cfg s.mstatus = true
  trapM : trapRegsOk s.cfg s.tm = true
  trapH : trapRegsOk s.cfg s.th = true
  trapS : trapRegsOk s.cfg s.ts = true
  mip : intBitsOk s.cfg s.mip = true
  mie : intBitsOk s.cfg s.mie = true
  vectors : vectorsOk s = true
  delegation : delegationOk s = true
  paging : pagingOk s = true
  fcsr : fcsrOk s = true
  extras : extrasOk s = true

/-! ### What the statements say of instructions -/

/-- At this boundary the hart takes no interrupt, is not stalled, and fetches the word `w`, the fetch leaving state `s1`
(60_exceptions.md R431, R439; 20_memory.md R221, R247). -/
def FetchesWord (s s1 : State) (w : BitVec 32) : Prop :=
  interruptAtBoundary s = none ∧ s.stalled = false ∧
    ∃ a b c d, fetchPath s = .done [a, b, c, d] s1 ∧ fetchBytes s1 [a, b, c, d] = bytesOfWord w

/-- The paged scheme a value of `mstatus.VM` names (11_state_machine_csrs.md R107). -/
def pagedScheme (vm : BitVec 5) : Option Scheme :=
  if vm = 8 then some sv32 else if vm = 9 then some sv39 else if vm = 10 then some sv48 else none

/-- `a` is a byte of the leaf PTE that a translation of `va` uses and may set R and D in: there is none where machine mode
or the scheme has no pages, or where the translation fails (21_translation.md R266, R285, R291, R292). -/
def InLeafPte (s : State) (va : Word) (acc : Acc) (p : Priv) (a : Nat) : Prop :=
  p ≠ .m ∧ (translateAddress va acc p s).1 ≠ none ∧ ∃ sch e, pagedScheme s.mstatus.vm = some sch
    ∧ (findLeaf { sch := sch, va := va, acc := acc, priv := p } s).1 = some e
    ∧ e.pteAddr ≤ a ∧ a < e.pteAddr + e.pteBytes

/-- A SYSTEM word to which the table assigns no instruction, as 30_encoding.md R327 lists them. -/
def Unallocated (w : BitVec 32) : Prop :=
  funct3Of w = 0b100#3 ∨
    (funct3Of w = 0b000#3 ∧
      (rdOf w ≠ 0 ∨ csrOf w ∉ [0x000#12, 0x001#12, 0x100#12, 0x101#12, 0x102#12, 0x205#12, 0x305#12, 0x306#12]
        ∨ (csrOf w ≠ 0x101#12 ∧ rs1Of w ≠ 0)))

/-- The destination, the CSR address and the will-write predicate W of a CSR instruction (40_csr_instructions.md R351);
none for the other instructions. -/
def csrUse (c : Config) : Instr → Option (Reg × CsrAddr × Bool)
  | .csrrw rd a _ => some (rd, a, true)
  | .csrrs rd a rs1 => some (rd, a, decide (rs1.val ≠ 0))
  | .csrrc rd a rs1 => some (rd, a, decide (rs1.val ≠ 0))
  | .csrrwi rd a zimm => some (rd, a, decide (zimm ≠ 0) || c.csrrwiZimm0Writes)
  | .csrrsi rd a zimm => some (rd, a, decide (zimm ≠ 0))
  | .csrrci rd a zimm => some (rd, a, decide (zimm ≠ 0))
  | .ecall => none
  | .ebreak => none
  | .eret => none
  | .mrts => none
  | .mrth => none
  | .hrts => none
  | .wfi => none
  | .sfenceVm _ => none

/-- The value a CSR instruction writes over the old value (40_csr_instructions.md R352 to R357). -/
def csrNew (s : State) (old : Word) : Instr → Word
  | .csrrw _ _ rs1 => s.readReg rs1
  | .csrrs _ _ rs1 => old ||| s.readReg rs1
  | .csrrc _ _ rs1 => old &&& ~~~s.readReg rs1
  | .csrrwi _ _ zimm => zimm.setWidth 64
  | .csrrsi _ _ zimm => old ||| zimm.setWidth 64
  | .csrrci _ _ zimm => old &&& ~~~(zimm.setWidth 64)
  | .ecall => old
  | .ebreak => old
  | .eret => old
  | .mrts => old
  | .mrth => old
  | .hrts => old
  | .wfi => old
  | .sfenceVm _ => old

/-- Where each listed CSR stands and on what condition it exists (10_state.md R47 to R50, R53): address, register,
condition. Here the machine's. -/
def machineRows (c : Config) : List (CsrAddr × Csr × Bool) :=
  [(0xF00, .mcpuid, true), (0xF01, .mimpid, true), (0xF10, .mhartid, true), (0x300, .mstatus, true),
    (0x301, .mtvec, true), (0x302, .mtdeleg, true), (0x304, .mie, true), (0x321, .mtimecmp, true),
    (0x701, .mtime, true), (0x741, .mtimeh, c.isRv32), (0x340, .mscratch, true), (0x341, .mepc, true),
    (0x342, .mcause, true), (0x343, .mbadaddr, true), (0x344, .mip, true), (0x380, .mbase, c.mbb),
    (0x381, .mbound, c.mbb), (0x382, .mibase, c.mbbid), (0x383, .mibound, c.mbbid), (0x384, .mdbase, c.mbbid),
    (0x385, .mdbound, c.mbbid), (0xB01, .htime, c.has .h), (0xB81, .htimeh, c.has .h && c.isRv32)]

/-- The supervisor's. -/
def supervisorRows (c : Config) : List (CsrAddr × Csr × Bool) :=
  [(0x100, .sstatus, c.has .s), (0x101, .stvec, c.has .s), (0x104, .sie, c.has .s), (0x121, .stimecmp, c.has .s),
    (0xD01, .stime, c.has .s), (0xD81, .stimeh, c.has .s && c.isRv32), (0x140, .sscratch, c.has .s),
    (0x141, .sepc, c.has .s), (0x142, .scause, c.has .s), (0x143, .sbadaddr, c.has .s), (0x144, .sip, c.has .s),
    (0x180, .sptbr, c.has .s && c.paged), (0x181, .sasid, c.has .s && c.paged)]

/-- The hypervisor's, with the supervisor's clock at the addresses that write it. -/
def hypervisorRows (c : Config) : List (CsrAddr × Csr × Bool) :=
  [(0x200, .hstatus, c.has .h), (0x201, .htvec, c.has .h), (0x202, .htdeleg, c.has .h), (0x221, .htimecmp, c.has .h),
    (0xE01, .htime, c.has .h), (0xE81, .htimeh, c.has .h && c.isRv32), (0x240, .hscratch, c.has .h),
    (0x241, .hepc, c.has .h), (0x242, .hcause, c.has .h), (0x243, .hbadaddr, c.has .h), (0xA01, .stime, c.has .s),
    (0xA81, .stimeh, c.has .s && c.isRv32)]

/-- The user's, and the supervisor's addresses that write its counters. -/
def userRows (c : Config) : List (CsrAddr × Csr × Bool) :=
  [(0x001, .fflags, c.hasF), (0x002, .frm, c.hasF), (0x003, .fcsr, c.hasF), (0xC00, .cycle, true),
    (0xC01, .time, true), (0xC02, .instret, true), (0xC80, .cycleh, c.isRv32), (0xC81, .timeh, c.isRv32),
    (0xC82, .instreth, c.isRv32), (0x900, .cycle, c.has .s), (0x901, .time, c.has .s), (0x902, .instret, c.has .s),
    (0x980, .cycleh, c.has .s && c.isRv32), (0x981, .timeh, c.has .s && c.isRv32),
    (0x982, .instreth, c.has .s && c.isRv32)]

/-- Every listed CSR. -/
def existenceRows (c : Config) : List (CsrAddr × Csr × Bool) :=
  machineRows c ++ supervisorRows c ++ hypervisorRows c ++ userRows c

/-- A live mode field of the word names an unsupported mode (11_state_machine_csrs.md R101, R103; an M-only machine has no
live one). -/
def namesUnsupportedMode (c : Config) (v : Word) : Prop :=
  c.modes ≠ .m ∧ ∃ k, k < c.depth ∧ c.has (Priv.ofBits (v.extractLsb' (3 * k + 1) 2)) = false

/-- Steps 2 to 4 of the walk (21_translation.md R291) in numbers, every PTE read from memory: from the table at `a`, the
leaf's machine-physical address, level and value; none for an address error. -/
def memoryLeaf (s : State) (req : WalkReq) : Nat → Nat → Option (Nat × Nat × Word)
  | level, a =>
    let vpn := req.va.toNat / 2 ^ (12 + level * req.sch.vpnBits) % 2 ^ req.sch.vpnBits
    let addr := (a + vpn * req.sch.pteBytes) % 2 ^ s.cfg.palen
    let pte := Memory.readLE s.mem addr req.sch.pteBytes
    if physOk s.cfg .pteRead addr req.sch.pteBytes req.priv = false ∨ pte.toNat % 2 = 0 then none
    else if 2 ≤ pte.toNat / 2 % 16 then some (addr, level, pte)
    else
      match level with
      | 0 => none
      | below + 1 => memoryLeaf s req below (pte.toNat / 2 ^ 10 % 2 ^ 38 * 4096)

/-- The translation of `req` is the one the page tables in memory give (21_translation.md R291, R292): the address of the
leaf with the untranslated bits of the virtual one, R and D set where they were clear; none, with memory unchanged, where
there is no leaf, where it does not allow the access, or where a physical check refuses the update (20_memory.md R248). -/
def TranslatesByMemory (s : State) (req : WalkReq) (result : Option Word) (after : Memory) : Prop :=
  match memoryLeaf s req (req.sch.levels - 1) s.sptbr.toNat with
  | none => result = none ∧ after = s.mem
  | some (addr, level, pte) =>
    let used := pte &&& pteUsedBits req.acc = pteUsedBits req.acc
    let page := 2 ^ (12 + level * req.sch.vpnBits)
    if pteAllowed (pte.toNat / 2 % 16) req.acc req.priv = false
        ∨ (¬used ∧ physOk s.cfg .pteWrite addr req.sch.pteBytes req.priv = false) then
      result = none ∧ after = s.mem
    else
      (∃ pa, result = some pa
        ∧ pa.toNat = pte.toNat / 2 ^ 10 % 2 ^ 38 * 4096 / page * page + req.va.toNat % page)
      ∧ after = if used then s.mem
        else Memory.writeLE s.mem addr (pte ||| pteUsedBits req.acc) req.sch.pteBytes

/-- The mode a pop would enter: `PRV1`, which an M-only machine hard-wires to M (11_state_machine_csrs.md R103). -/
def modeBelow (s : State) : Priv :=
  if s.cfg.modes = .m then .m else s.mstatus.e1.prv

/-- The trap registers of `p` after a trap: cause and epc are written, the scratch register is kept, and the bad address
is the one given, where one is (60_exceptions.md R440, R424). -/
def TrapRecorded (s t : State) (p : Priv) (cause : Cause) (epc : Word) (badaddr : Option Word) : Prop :=
  (t.trapRegs p).cause = cause ∧ (t.trapRegs p).epc = s.cfg.alignEpc epc
    ∧ (t.trapRegs p).scratch = (s.trapRegs p).scratch
    ∧ ∀ a, badaddr = some a → (t.trapRegs p).badaddr = s.cfg.trunc a

/-- A data access is made untranslated, to bytes of memory that exist (20_memory.md R247, 21_translation.md R266). -/
def PlainData (s : State) (acc : Acc) (va : Word) (n : Nat) : Prop :=
  s.effPriv acc = .m ∧ s.cfg.pmaOk acc.phys (s.cfg.physical va) n = true
    ∧ s.cfg.isDevice (s.cfg.physical va) n = false

end Sys2Proof.Machine
end

