-- ==== Sys2Proof/Certificates/Slice0/Obligations.lean ====
section
/-!
DEFINITION. The statements for the provers. A record update `t = { s with f := t.f }` is a frame: every field it does not
name is unchanged.
-/

open Sys2Proof Sys2Proof.Machine

/-! ### Encoding -/

/-- 30_encoding.md R324, R333: the decoder reads every instruction back from its word, with every operand at every
value, from the word and from its bytes in memory order. -/
def Obligations.DecodeEncode : Prop :=
  ∀ (i : Instr) (rest : List Byte),
    decode (encode i) = .ok i ∧ decodeBytes (bytesOfWord (encode i) ++ rest) = .ok (i, rest)

/-- 30_encoding.md R324: a word that decodes carries the fixed bits of its row of the table, and no other word decodes
to the same instruction. -/
def Obligations.EncodeDecode : Prop :=
  ∀ (w : BitVec 32) (i : Instr), decode w = .ok i → w &&& i.row.2 = i.row.1 ∧ encode i = w

/-- 30_encoding.md R324: words written out from the table decode to their instructions. -/
def Obligations.DecodeWords : Prop :=
  decode 0b001101000000_00110_001_00101_1110011 = .ok (.csrrw 5 0x340 6)
    ∧ decode 0b001101000000_11111_101_00101_1110011 = .ok (.csrrwi 5 0x340 31)
    ∧ decode 0b000100000000_00000_000_00000_1110011 = .ok .eret
    ∧ decode 0b001100000101_00000_000_00000_1110011 = .ok .mrts
    ∧ decode 0b000100000010_00000_000_00000_1110011 = .ok .wfi
    ∧ decode 0b000100000001_00111_000_00000_1110011 = .ok (.sfenceVm 7)

/-- 30_encoding.md R327: a step that fetches an unallocated SYSTEM word raises illegal instruction, code 2. -/
def Obligations.UnallocatedSystemTraps : Prop :=
  ∀ (s s1 : State) (w : BitVec 32), FetchesWord s s1 w → opcodeOf w = 0b1110011#7 → Unallocated w →
    step s = .next (environment (retire (raiseException 2 none s1)))

/-! ### The step -/

/-- A step runs the decoded instruction: the outcome is that of its meaning in the state the fetch leaves, and where
that is a next state `instret` counts the instruction and the outside acts. -/
def Obligations.StepRunsDecoded : Prop :=
  ∀ (s s1 : State) (w : BitVec 32) (i : Instr),
    FetchesWord s s1 w → decode w = .ok i → i.wellFormed s.cfg.nregs = true →
      step s =
        match exec i s1 with
        | .next t => .next (environment (retire t))
        | .fault f => .fault f
        | .refused r => .refused r

/-- 21_translation.md R266, R265; 20_memory.md R247: a machine-mode fetch reads the four bytes at the address `pc`
modulo `2^PALEN` and changes nothing. -/
def Obligations.MachineFetch : Prop :=
  ∀ s : State, s.priv = .m → s.cfg.ialign = .i32 → s.pc.toNat % 4 = 0 →
    s.cfg.pmaOk .fetch (s.cfg.physical s.pc) 4 = true → s.cfg.isDevice (s.cfg.physical s.pc) 4 = false →
      fetchPath s = .done [s.pc.toNat % 2 ^ s.cfg.palen, s.pc.toNat % 2 ^ s.cfg.palen + 1,
        s.pc.toNat % 2 ^ s.cfg.palen + 2, s.pc.toNat % 2 ^ s.cfg.palen + 3] s

/-- 60_exceptions.md R412: a fetch that fails at an aligned `pc` raises code 1 and the instruction is not executed. The
bad address is the virtual address that failed: `pc`, or with IALIGN = 16 that of the second parcel, `pc + 2`, where the
first was fetched. The state in which the exception is raised is the one the translation of `pc` leaves, or that of `pc`
and then `pc + 2`; in memory it differs from the state before in bytes of the leaf page-table entries of those
translations alone (what a translation does to such an entry is PageTableUpdate), and elsewhere in hidden state alone.
Two clauses are the model's choices: that with IALIGN = 16 the fetch is of two parcels, each translated on its own
(log 30), and that a misaligned `pc` raises code 0 at the fetch, with `pc` as the bad address and nothing changed
(log 31): R411 leaves to the user-level ISA whether the jump or the target's fetch raises it, and R438 only places it in
the order. -/
def Obligations.FetchFaultTraps : Prop :=
  ∀ (s s1 : State) (code : BitVec 4) (bad : Word),
    interruptAtBoundary s = none → s.stalled = false → fetchPath s = .trap code bad s1 →
      let second := s.cfg.trunc (s.pc + 2)
      let one := (translateAddress s.pc .fetch s.priv s).2
      let two := (translateAddress second .fetch s.priv one).2
      step s = .next (environment (retire (raiseException code (some bad) s1)))
        ∧ (s.pc.toNat % s.cfg.ialignBytes ≠ 0 → code = 0 ∧ bad = s.pc ∧ s1 = s)
        ∧ (s.pc.toNat % s.cfg.ialignBytes = 0 → code = 1
          ∧ ((bad = s.pc ∧ s1 = one)
            ∨ (s.cfg.ialign = .i16 ∧ bad = second ∧ s1 = two
              ∧ ∃ pa, accessPath .fetch s.pc 2 s = .done pa one)))
        ∧ s1 = { s with mem := s1.mem, tc := s1.tc, draws := s1.draws }
        ∧ ∀ a, ¬InLeafPte s s.pc .fetch s.priv a → (bad = s.pc ∨ ¬InLeafPte one second .fetch s.priv a) →
          Memory.read s1.mem a = Memory.read s.mem a

/-- 10_state.md R32: the integer register file. A register written reads back modulo `2^XLEN`, every other register is
unchanged, x0 reads 0 and its writes are dropped. R32 is general knowledge, which the model presumes (log 27). -/
def Obligations.RegisterFile : Prop :=
  ∀ (s : State) (r q : Reg) (v : Word),
    s.readReg 0 = 0 ∧ (s.writeReg r v).readReg q = (if q = r ∧ r ≠ 0 then s.cfg.trunc v else s.readReg q)
      ∧ s.writeReg r v = { s with x := (s.writeReg r v).x }

/-! ### CSR instructions -/

/-- 10_state.md R42: a CSR instruction that names a CSR that does not exist, lacks the privilege, or would write a
read-only register raises illegal instruction, before any state changes; where none of the three holds, and the register
is not state of a unit that is Off (R54; 11_state_machine_csrs.md R112), the access check gives the register. -/
def Obligations.CsrAccessRefused : Prop :=
  ∀ (i : Instr) (s : State) (rd : Reg) (a : CsrAddr) (w : Bool), csrUse s.cfg i = some (rd, a, w) →
    ((csrAt s.cfg a = none ∨ s.priv.level < (a.extractLsb' 8 2).toNat
      ∨ (w = true ∧ (a.extractLsb' 10 2 = 0b11#2 ∨ a = 0x142#12 ∨ a = 0x143#12))) →
      exec i s = .next (raiseException 2 none s))
    ∧ ∀ r, csrAt s.cfg a = some r → (a.extractLsb' 8 2).toNat ≤ s.priv.level →
      (w = true → a.extractLsb' 10 2 ≠ 0b11#2 ∧ a ≠ 0x142#12 ∧ a ≠ 0x143#12) →
      (s.mstatus.fs ≠ 0 ∨ a ∉ [0x001#12, 0x002#12, 0x003#12]) →
      (s.mstatus.xs ≠ 0 ∨ ∀ e ∈ s.cfg.extraCsrs, a ∈ e.addrs → e.unitX = false) →
      csrAccess s a w = some r

/-- 40_csr_instructions.md R350, R351: CSRRS and CSRRC of x0, CSRRSI and CSRRCI of 0, and CSRRWI of 0 where the
configuration says that it does not write, complete: the register is read into `rd` and nothing else changes but `pc`.
-/
def Obligations.CsrReadOnlyForms : Prop :=
  ∀ (i : Instr) (s : State) (rd : Reg) (a : CsrAddr) (r : Csr), csrUse s.cfg i = some (rd, a, false) →
    csrAccess s a false = some r →
      exec i s = .next ((s.writeReg rd (csrRead s r)).advance)

/-- 40_csr_instructions.md R350, R352 to R357: CSRRW, CSRRS, CSRRC, CSRRWI, CSRRSI and CSRRCI, where they write: the
register receives the instruction's new value, then `rd` the old one, then `pc` advances. Every register but the three
status registers takes every value, so that the instruction completes; a status register may refuse a value
(92_eei_decisions.md D16), and the instruction then stops by that name. -/
def Obligations.CsrWriteForms : Prop :=
  ∀ (i : Instr) (s : State) (rd : Reg) (a : CsrAddr) (r : Csr), csrUse s.cfg i = some (rd, a, true) →
    csrAccess s a true = some r →
      let v := s.cfg.trunc (csrNew s (csrRead s r) i)
      (∀ t, csrWrite s r v = .ok t → exec i s = .next ((t.writeReg rd (csrRead s r)).advance))
        ∧ (∀ e, csrWrite s r v = .error e → exec i s = .refused e)
        ∧ (r ≠ .mstatus → r ≠ .sstatus → r ≠ .hstatus → ∃ t, csrWrite s r v = .ok t
          ∧ exec i s = .next ((t.writeReg rd (csrRead s r)).advance))

/-- 10_state.md R52: a CSR write changes CSR state only. Only a write of `mstatus` changes the mode or the translation
scheme, only one of an added CSR changes an added CSR, and none changes the platform's clock. -/
def Obligations.CsrWriteFrame : Prop :=
  ∀ (s t : State) (r : Csr) (v : Word), mstatusOk s.cfg s.mstatus = true → csrWrite s r v = .ok t →
    t.cfg = s.cfg ∧ t.x = s.x ∧ t.pc = s.pc ∧ t.mem = s.mem ∧ t.tc = s.tc ∧ t.stalled = s.stalled
      ∧ t.nmiPending = s.nmiPending ∧ t.draws = s.draws ∧ t.clock.rtc = s.clock.rtc
      ∧ t.clock.hold = s.clock.hold ∧ t.fp.f = s.fp.f
      ∧ (r ≠ .mstatus → t.priv = s.priv ∧ t.mstatus.vm = s.mstatus.vm)
      ∧ ((∀ k, r ≠ .extra k) → t.extra = s.extra)

/-- 10_state.md R53, R47 to R51: which CSRs exist. A listed register stands at an address exactly where a row gives the
address, the register and a condition the configuration meets; nothing else exists but the added CSRs (EXTRA_CSRS). The
addresses and registers are R47 to R50's. Most of the conditions are the spec's own decision, which R53 marks as such
(92_eei_decisions.md D15), and the model follows it (log 39). That an added CSR stands exactly at the non-standard
addresses it answers to, the first in the list where several answer, is the model's form of EXTRA_CSRS (log 32). -/
def Obligations.CsrExistence : Prop :=
  ∀ (c : Config) (a : CsrAddr),
    (∀ r, (∀ k, r ≠ .extra k) → (csrAt c a = some r ↔ (a, r, true) ∈ existenceRows c))
      ∧ ∀ k, csrAt c a = some (.extra k) ↔
        (csrNonStandard a = true ∧ ∃ e, c.extraCsrs[k]? = some e ∧ a ∈ e.addrs
          ∧ ∀ j < k, ∀ d, c.extraCsrs[j]? = some d → a ∉ d.addrs)

/-- 11_state_machine_csrs.md R100, R101, R103, R107, R116: any CSR instruction that writes `mstatus` in machine mode.
With supported values it completes: `rd` receives the old value and each live field the bits of its place in the new
one; mode fields of an M-only machine stay M, entries beyond the stack depth stay zero, and FS and XS are zero without
their unit. An unsupported scheme, or else an unsupported mode in a live field, is the refusal point of
92_eei_decisions.md D16. -/
def Obligations.MstatusWrite : Prop :=
  ∀ (i : Instr) (s : State) (rd : Reg), csrUse s.cfg i = some (rd, 0x300#12, true) → s.priv = .m →
    let v := s.cfg.trunc (csrNew s (csrRead s .mstatus) i)
    let mode : Nat → Priv := fun lo => if s.cfg.modes = .m then .m else Priv.ofBits (v.extractLsb' lo 2)
    (s.cfg.vmSupported (v.extractLsb' 17 5) = false → exec i s = .refused .unsupportedVm)
    ∧ (s.cfg.vmSupported (v.extractLsb' 17 5) = true → namesUnsupportedMode s.cfg v →
      exec i s = .refused .unsupportedMode)
    ∧ (s.cfg.vmSupported (v.extractLsb' 17 5) = true → ¬namesUnsupportedMode s.cfg v →
      ∃ t, exec i s = .next t
        ∧ t = { s.writeReg rd (csrRead s .mstatus) with pc := s.cfg.trunc (s.pc + 4), mstatus := t.mstatus }
        ∧ t.mstatus.vm = v.extractLsb' 17 5 ∧ t.mstatus.mprv = v.getLsbD 16
        ∧ t.mstatus.xs = (if s.cfg.hasX then v.extractLsb' 14 2 else 0)
        ∧ t.mstatus.fs = (if s.cfg.hasF then v.extractLsb' 12 2 else 0)
        ∧ t.mstatus.e0 = { prv := mode 1, ie := v.getLsbD 0 }
        ∧ t.mstatus.e1 = { prv := mode 4, ie := v.getLsbD 3 }
        ∧ t.mstatus.e2 = (if 3 ≤ s.cfg.depth then { prv := mode 7, ie := v.getLsbD 6 }
            else { prv := .u, ie := false })
        ∧ t.mstatus.e3 = (if 4 ≤ s.cfg.depth then { prv := mode 10, ie := v.getLsbD 9 }
            else { prv := .u, ie := false }))

/-- 12_state_supervisor_csrs.md R171: `sstatus` is a view of `mstatus`. A read shows bits 16:12, 4, 3, 0 and SD. Any CSR
instruction that writes it changes those bits of `mstatus` alone (FS and XS only where live), completing where the mode
that the write leaves in `PRV1` is supported; else it is the refusal point of 92_eei_decisions.md D16. That `hstatus` is
the same view is the model's choice (log 17). -/
def Obligations.SstatusView : Prop :=
  ∀ (i : Instr) (s : State) (rd : Reg) (a : CsrAddr) (w : Bool), mstatusOk s.cfg s.mstatus = true →
    csrUse s.cfg i = some (rd, a, w) →
    ((a = 0x100#12 ∧ s.cfg.has .s = true ∧ 1 ≤ s.priv.level)
      ∨ (a = 0x200#12 ∧ s.cfg.has .h = true ∧ 2 ≤ s.priv.level)) →
    let old := (csrRead s .mstatus &&& 0x1F019) ||| (if s.mstatus.fs = 3 ∨ s.mstatus.xs = 3 then s.cfg.signBit else 0)
    let v := s.cfg.trunc (csrNew s old i)
    let below := Priv.ofBits (BitVec.ofBool (s.mstatus.e1.prv.bits.getLsbD 1) ++ BitVec.ofBool (v.getLsbD 4))
    (w = false → exec i s = .next ((s.writeReg rd old).advance))
      ∧ (w = true → s.cfg.has below = false → exec i s = .refused .unsupportedMode)
      ∧ (w = true → s.cfg.has below = true →
        ∃ t, exec i s = .next t
          ∧ t = { s.writeReg rd old with pc := s.cfg.trunc (s.pc + 4), mstatus := t.mstatus }
          ∧ t.mstatus = { s.mstatus with
              mprv := v.getLsbD 16
              xs := if s.cfg.hasX then v.extractLsb' 14 2 else 0
              fs := if s.cfg.hasF then v.extractLsb' 12 2 else 0
              e1 := { prv := below, ie := v.getLsbD 3 }
              e0 := { s.mstatus.e0 with ie := v.getLsbD 0 } })

/-- 11_state_machine_csrs.md R111: SD, bit XLEN-1 of `mstatus` and of `sstatus`, is 1 exactly when FS or XS is Dirty; it
is computed at every read, and a write to that bit is ignored. -/
def Obligations.SdComputed : Prop :=
  ∀ (s : State) (v : Word),
    ((csrRead s .mstatus).getLsbD (s.cfg.xlen - 1) = true ↔ (s.mstatus.fs = 3 ∨ s.mstatus.xs = 3))
      ∧ ((csrRead s .sstatus).getLsbD (s.cfg.xlen - 1) = true ↔ (s.mstatus.fs = 3 ∨ s.mstatus.xs = 3))
      ∧ csrWrite s .mstatus (v ||| s.cfg.signBit) = csrWrite s .mstatus (v &&& ~~~s.cfg.signBit)
      ∧ csrWrite s .sstatus (v ||| s.cfg.signBit) = csrWrite s .sstatus (v &&& ~~~s.cfg.signBit)

/-- 10_state.md R54, R52, 11_state_machine_csrs.md R112: a CSR instruction that names `fflags`, `frm` or `fcsr` is
illegal while FS is Off; otherwise it completes, and sets FS to Dirty exactly when it writes. A write of a field of
`fcsr` leaves the other bits of `fcsr` as they were, and a write of `fcsr` replaces its bits. Where the fields stand is
free (log 18). The same holds of an added CSR that is state of the extension XS tracks (R110, log 32). -/
def Obligations.FloatStatus : Prop :=
  ∀ (i : Instr) (s : State) (rd : Reg) (a : CsrAddr) (w : Bool), csrUse s.cfg i = some (rd, a, w) →
    ((a = 0x001#12 ∨ a = 0x002#12 ∨ a = 0x003#12) →
      (s.mstatus.fs = 0 → exec i s = .next (raiseException 2 none s))
        ∧ (s.cfg.hasF = true → s.mstatus.fs ≠ 0 →
          ∃ t, exec i s = .next t
            ∧ t.mstatus = { s.mstatus with fs := if w then 3 else s.mstatus.fs }
            ∧ t = { s with x := t.x, pc := s.cfg.trunc (s.pc + 4), fp := t.fp, mstatus := t.mstatus }
            ∧ (w = false → t.fp = s.fp) ∧ t.fp.f = s.fp.f
            ∧ (w = true → a = 0x001#12 →
              let v := s.cfg.trunc (csrNew s (csrRead s .fflags) i) <<< Config.fflagsShift
              csrRead t .fflags = (v &&& fflagsMask s.cfg) >>> Config.fflagsShift
                ∧ csrRead t .frm = csrRead s .frm ∧ (t.fp.fcsr ^^^ s.fp.fcsr) &&& ~~~fflagsMask s.cfg = 0)
            ∧ (w = true → a = 0x002#12 →
              let v := s.cfg.trunc (csrNew s (csrRead s .frm) i) <<< Config.frmShift
              csrRead t .frm = (v &&& frmMask s.cfg) >>> Config.frmShift
                ∧ csrRead t .fflags = csrRead s .fflags ∧ (t.fp.fcsr ^^^ s.fp.fcsr) &&& ~~~frmMask s.cfg = 0)
            ∧ (w = true → a = 0x003#12 →
              let v := s.cfg.trunc (csrNew s (csrRead s .fcsr) i)
              let bits := fflagsMask s.cfg ||| frmMask s.cfg
              csrRead t .fcsr &&& bits = v &&& bits ∧ (t.fp.fcsr ^^^ s.fp.fcsr) &&& ~~~bits = 0)))
    ∧ ∀ (k : Nat) (e : ExtraCsr), csrAt s.cfg a = some (.extra k) → s.cfg.extraCsrs[k]? = some e →
      (e.unitX = true → s.mstatus.xs = 0 → exec i s = .next (raiseException 2 none s))
        ∧ (csrAccess s a w = some (.extra k) → k < s.extra.length →
          ∃ t, exec i s = .next t
            ∧ t = { s with x := t.x, pc := s.cfg.trunc (s.pc + 4), extra := t.extra, mstatus := t.mstatus }
            ∧ t.mstatus = { s.mstatus with xs := if w = true ∧ e.unitX = true then 3 else s.mstatus.xs }
            ∧ (∀ j, j ≠ k → t.extra[j]? = s.extra[j]?)
            ∧ (w = false → t.extra = s.extra)
            ∧ (w = true →
              csrRead t (.extra k) &&& e.mask = s.cfg.trunc (csrNew s (csrRead s (.extra k)) i) &&& e.mask
                ∧ (csrRead t (.extra k) ^^^ csrRead s (.extra k)) &&& ~~~e.mask = 0))

/-- 11_state_machine_csrs.md R130, R133, R135; 12_state_supervisor_csrs.md R176, R177: `mip` takes a write in its
software bits of supported levels, `sip` in SSIP alone; `mie` in the bits of supported levels, `sie` in STIE and SSIE.
The bits of sources an implementation adds can be written in `mie`, and in `mip` where the source says so (log 32). -/
def Obligations.InterruptRegisterWrites : Prop :=
  ∀ (s : State) (v : Word),
    csrWrite s .mip v
        = .ok { s with mip := { s.mip with
            ssi := v.getLsbD 1 && s.cfg.has .s, hsi := v.getLsbD 2 && s.cfg.has .h, msi := v.getLsbD 3,
            extra := (s.mip.extra &&& ~~~s.cfg.extraIntWritable) ||| (v &&& s.cfg.extraIntWritable) } }
      ∧ csrWrite s .sip v = .ok { s with mip := { s.mip with ssi := v.getLsbD 1 && s.cfg.has .s } }
      ∧ csrWrite s .mie v
        = .ok { s with mie :=
            { ssi := v.getLsbD 1 && s.cfg.has .s, hsi := v.getLsbD 2 && s.cfg.has .h, msi := v.getLsbD 3,
              sti := v.getLsbD 5 && s.cfg.has .s, hti := v.getLsbD 6 && s.cfg.has .h, mti := v.getLsbD 7,
              extra := v &&& s.cfg.extraIntBits } }
      ∧ csrWrite s .sie v
        = .ok { s with mie := { s.mie with
            ssi := v.getLsbD 1 && s.cfg.has .s, sti := v.getLsbD 5 && s.cfg.has .s } }
      ∧ csrRead s .sip = csrRead s .mip &&& 0x22 ∧ csrRead s .sie = csrRead s .mie &&& 0x22
      ∧ (s.cfg.extraInterrupts = [] → s.cfg.extraIntBits = 0 ∧ s.cfg.extraIntWritable = 0)

/-- 11_state_machine_csrs.md R138, R139; 12_state_supervisor_csrs.md R180, R198; 40_csr_instructions.md R363;
60_exceptions.md R471: any CSR instruction that writes a compare register, even with the value it held, stores the low
32 bits and clears that level's timer-pending bit, and no other bit of `mip`; equality with the counter that the write
makes is remembered for the next advance (92_eei_decisions.md D26, log 10). -/
def Obligations.CompareWriteClears : Prop :=
  ∀ (i : Instr) (s : State) (rd : Reg) (a : CsrAddr), csrUse s.cfg i = some (rd, a, true) →
    (a = 0x321#12 → csrAccess s a true = some .mtimecmp → ∃ t, exec i s = .next t
        ∧ t.clock = { s.clock with
            mtimecmp := (csrNew s (s.clock.mtimecmp.setWidth 64) i).setWidth 32
            mArmed := decide (t.clock.mtimecmp = (s.clock.time .m).setWidth 32) }
        ∧ t.mip = { s.mip with mti := false })
      ∧ (a = 0x221#12 → csrAccess s a true = some .htimecmp → ∃ t, exec i s = .next t
        ∧ t.clock = { s.clock with
            htimecmp := (csrNew s (s.clock.htimecmp.setWidth 64) i).setWidth 32
            hArmed := decide (t.clock.htimecmp = (s.clock.time .h).setWidth 32) }
        ∧ t.mip = { s.mip with hti := false })
      ∧ (a = 0x121#12 → csrAccess s a true = some .stimecmp → ∃ t, exec i s = .next t
        ∧ t.clock = { s.clock with
            stimecmp := (csrNew s (s.clock.stimecmp.setWidth 64) i).setWidth 32
            sArmed := decide (t.clock.stimecmp = (s.clock.time .s).setWidth 32) }
        ∧ t.mip = { s.mip with sti := false })

/-- 11_state_machine_csrs.md R124 to R126, 12_state_supervisor_csrs.md R196: a delegation register keeps the written
bits that are writable and name a trap, and `mtdeleg` is zero without S and H. The bits that name a trap are those of
the synchronous codes 0 to 11 and of the interrupts, at 16 plus the bit in `mip`; an added source has one where it
fits. -/
def Obligations.DelegationWrites : Prop :=
  ∀ (s : State) (v : Word),
    csrWrite s .mtdeleg v
        = .ok { s with mtdeleg :=
            if s.cfg.has .s = false ∧ s.cfg.has .h = false then 0
            else v &&& s.cfg.mtdelegWmask &&& s.cfg.delegDefined }
      ∧ csrWrite s .htdeleg v
        = .ok { s with htdeleg := if s.cfg.has .h then v &&& s.cfg.htdelegWmask &&& s.cfg.delegDefined else 0 }
      ∧ ∀ k, s.cfg.delegDefined.getLsbD k = true ↔
        (k < 12 ∨ k ∈ [17, 18, 19, 21, 22, 23]
          ∨ ∃ e ∈ s.cfg.extraInterrupts, 8 ≤ e.bit ∧ k = 16 + e.bit ∧ k < s.cfg.xlen)

/-- 11_state_machine_csrs.md R141, R142, R145, R148; 12_state_supervisor_csrs.md R182, R183, R197: a write of an epc
register clears the bits that IALIGN makes zero, one of `mcause` or `hcause` keeps the Interrupt bit and the 4-bit code,
and the scratch registers and `mbadaddr`, `hbadaddr` keep every bit; each write changes its own register only. -/
def Obligations.TrapRegisterWrites : Prop :=
  ∀ (s : State) (v : Word), s.cfg.trunc v = v →
    let low : Word := if s.cfg.ialign = .i32 then 3 else 1
    (csrWrite s .mepc v = .ok { s with tm := { s.tm with epc := v &&& ~~~low } })
      ∧ (csrWrite s .sepc v = .ok { s with ts := { s.ts with epc := v &&& ~~~low } })
      ∧ (csrWrite s .hepc v = .ok { s with th := { s.th with epc := v &&& ~~~low } })
      ∧ (∃ t, csrWrite s .mcause v = .ok t ∧ t = { s with tm := { s.tm with cause := t.tm.cause } }
        ∧ csrRead t .mcause = v &&& (s.cfg.signBit ||| 0xF))
      ∧ (∃ t, csrWrite s .hcause v = .ok t ∧ t = { s with th := { s.th with cause := t.th.cause } }
        ∧ csrRead t .hcause = v &&& (s.cfg.signBit ||| 0xF))
      ∧ (csrWrite s .mscratch v = .ok { s with tm := { s.tm with scratch := v } })
      ∧ (csrWrite s .hscratch v = .ok { s with th := { s.th with scratch := v } })
      ∧ (csrWrite s .sscratch v = .ok { s with ts := { s.ts with scratch := v } })
      ∧ (csrWrite s .mbadaddr v = .ok { s with tm := { s.tm with badaddr := v } })
      ∧ (csrWrite s .hbadaddr v = .ok { s with th := { s.th with badaddr := v } })

/-- 11_state_machine_csrs.md R118, R120: what `mtvec` holds after a write. With no writable bit, its value at reset;
else each writable bit from the value written, each other bit above the next writable one from its sign bit, and the
rest at their hard-wired values, which the model takes to be those at reset (log 20). Bits 1:0 are zero. -/
def Obligations.MtvecWrite : Prop :=
  ∀ (s t : State) (v : Word), s.cfg.valid = true → s.cfg.trunc v = v → csrWrite s .mtvec v = .ok t →
    t = { s with mtvec := t.mtvec } ∧ t.mtvec &&& 3 = 0
      ∧ (s.cfg.mtvecWmask = 0 → t.mtvec = s.cfg.resetMtvec)
      ∧ (s.cfg.mtvecWmask ≠ 0 → ∀ k, 2 ≤ k → k < s.cfg.xlen →
        (s.cfg.mtvecWmask.getLsbD k = true → t.mtvec.getLsbD k = v.getLsbD k)
          ∧ (s.cfg.mtvecWmask.getLsbD k = false →
            ((∀ j, k < j → j < s.cfg.xlen - 1 → s.cfg.mtvecWmask.getLsbD j = false) →
              t.mtvec.getLsbD k = v.getLsbD (s.cfg.xlen - 1))
            ∧ ((∃ j, k < j ∧ j < s.cfg.xlen - 1 ∧ s.cfg.mtvecWmask.getLsbD j = true) →
              t.mtvec.getLsbD k = s.cfg.resetMtvec.getLsbD k)))

/-- 11_state_machine_csrs.md R153: with Mbbid a write of `mbase` writes both base registers and one of `mbound` both
bounds, and they read as the data registers; without Mbbid they are ordinary registers. -/
def Obligations.BaseBoundAliases : Prop :=
  ∀ (s : State) (v : Word),
    (s.cfg.mbbid = true →
      csrWrite s .mbase v = .ok { s with seg := { s.seg with mibase := v, mdbase := v } }
        ∧ csrWrite s .mbound v = .ok { s with seg := { s.seg with mibound := v, mdbound := v } }
        ∧ csrRead s .mbase = csrRead s .mdbase ∧ csrRead s .mbound = csrRead s .mdbound)
      ∧ (s.cfg.mbbid = false → ∃ t u, csrWrite s .mbase v = .ok t ∧ csrWrite s .mbound v = .ok u
        ∧ t = { s with seg := { s.seg with mbase := v } } ∧ u = { s with seg := { s.seg with mbound := v } }
        ∧ csrRead t .mbase = v ∧ csrRead u .mbound = v)

/-- 12_state_supervisor_csrs.md R175, R188, R189: `stvec` drops bits 1:0 of a write, `sptbr` bits 11:0, and `sasid`
keeps the low ASIDLEN bits. That `htvec` has the format of `stvec` is the model's choice (logs 17 and 34): R196 gives it
none, and for `stvec` the format is the spec's decision (92_eei_decisions.md D12). -/
def Obligations.VectorAndPagingWrites : Prop :=
  ∀ (s : State) (v : Word), s.cfg.trunc v = v → s.cfg.asidlen ≤ 64 →
    (∃ t, csrWrite s .stvec v = .ok t ∧ t = { s with stvec := t.stvec } ∧ t.stvec.toNat = v.toNat / 4 * 4)
      ∧ (∃ t, csrWrite s .htvec v = .ok t ∧ t = { s with htvec := t.htvec } ∧ t.htvec.toNat = v.toNat / 4 * 4)
      ∧ (∃ t, csrWrite s .sptbr v = .ok t ∧ t = { s with sptbr := t.sptbr }
        ∧ t.sptbr.toNat = v.toNat / 4096 * 4096)
      ∧ (∃ t, csrWrite s .sasid v = .ok t ∧ t = { s with sasid := t.sasid }
        ∧ t.sasid.toNat = v.toNat % 2 ^ s.cfg.asidlen)

/-- 60_exceptions.md R470, R471, 10_state.md R55, R57, R58: each level's time register reads back what was written plus
the ticks since; the other levels' registers, the compare registers and the real-time value do not move. A write that
makes the low half equal to the level's compare register sets that level's timer-pending bit at once, and no other bit
of `mip` changes. On RV32 the halves are written separately. `cycle` and `instret` read back what was written, whole or
by halves, and each write changes its own counter only. -/
def Obligations.TimeRegisters : Prop :=
  ∀ (s : State) (p : Priv) (v : Word) (n : Nat),
    let t := writeTimeLow p v s
    let u := writeTimeHigh p v s
    ((p = .m → csrWrite s .mtime v = .ok t ∧ csrWrite s .mtimeh v = .ok u)
      ∧ (p = .h → csrWrite s .htime v = .ok t ∧ csrWrite s .htimeh v = .ok u)
      ∧ (p = .s → csrWrite s .stime v = .ok t ∧ csrWrite s .stimeh v = .ok u)
      ∧ (p = .u → csrWrite s .time v = .ok t ∧ csrWrite s .timeh v = .ok u))
      ∧ (s.cfg.isRv32 = false → (advanceClock n t).clock.time p = v + BitVec.ofNat 64 n)
      ∧ (s.cfg.isRv32 = true → s.cfg.trunc v = v →
        counterLow s.cfg (t.clock.time p) = v ∧ counterHigh (t.clock.time p) = counterHigh (s.clock.time p)
          ∧ counterHigh (u.clock.time p) = v
          ∧ counterLow s.cfg (u.clock.time p) = counterLow s.cfg (s.clock.time p))
      ∧ t = { s with clock := t.clock, mip := t.mip } ∧ u = { s with clock := u.clock }
      ∧ t.clock.rtc = s.clock.rtc ∧ u.clock.rtc = s.clock.rtc
      ∧ (∀ q, q ≠ p → t.clock.time q = s.clock.time q ∧ u.clock.time q = s.clock.time q)
      ∧ (∀ q, t.clock.timecmp q = s.clock.timecmp q ∧ u.clock.timecmp q = s.clock.timecmp q)
      ∧ (let equal := decide ((t.clock.time p).setWidth 32 = s.clock.timecmp p)
        (p = .m → t.mip = { s.mip with mti := s.mip.mti || equal })
          ∧ (p = .h → t.mip = { s.mip with hti := s.mip.hti || (s.cfg.has .h && equal) })
          ∧ (p = .s → t.mip = { s.mip with sti := s.mip.sti || (s.cfg.has .s && equal) })
          ∧ (p = .u → t.mip = s.mip))
      ∧ (s.cfg.trunc v = v → ∃ a b, csrWrite s .cycle v = .ok a ∧ csrWrite s .instret v = .ok b
        ∧ a = { s with clock := { s.clock with cycle := a.clock.cycle } } ∧ csrRead a .cycle = v
        ∧ b = { s with clock := { s.clock with instret := b.clock.instret } } ∧ csrRead b .instret = v
        ∧ (s.cfg.isRv32 = true → csrRead a .cycleh = csrRead s .cycleh ∧ csrRead b .instreth = csrRead s .instreth))
      ∧ (s.cfg.isRv32 = true → s.cfg.trunc v = v →
        ∃ a b, csrWrite s .cycleh v = .ok a ∧ csrWrite s .instreth v = .ok b
        ∧ a = { s with clock := { s.clock with cycle := a.clock.cycle } } ∧ csrRead a .cycleh = v
        ∧ b = { s with clock := { s.clock with instret := b.clock.instret } } ∧ csrRead b .instreth = v
        ∧ csrRead a .cycle = csrRead s .cycle ∧ csrRead b .instret = csrRead s .instret)

/-! ### Traps and their return -/

/-- 41_privilege_change.md R370, R371: ECALL raises code 8 plus the mode and EBREAK code 3, at every level, with the epc
at the instruction itself, in the level R445 chooses. -/
def Obligations.EnvironmentCalls : Prop :=
  ∀ s : State,
    let call : Cause := { interrupt := false, code := BitVec.ofNat 4 (8 + s.priv.level) }
    let break_ : Cause := { interrupt := false, code := 3 }
    (∃ t, exec .ecall s = .next t ∧ t.pc = handlerAddress s call (trapTarget s (8 + s.priv.level))
        ∧ TrapRecorded s t (trapTarget s (8 + s.priv.level)) call s.pc none)
      ∧ (∃ t, exec .ebreak s = .next t ∧ t.pc = handlerAddress s break_ (trapTarget s 3)
        ∧ TrapRecorded s t (trapTarget s 3) break_ s.pc none)

/-- 60_exceptions.md R440, R441, R446: what a trap saves and where it goes. The registers of the target level are
written, the other levels' are not; the stack is pushed and `MPRV` cleared; `pc` goes to the handler, at M one of the
four entries of R441 or one that the implementation adds for the cause and the level it came from (EXTRA_VECTORS, log
32); nothing else changes but the model's counter of free values. -/
def Obligations.TrapEntry : Prop :=
  ∀ (s : State) (b : Nat) (cause : Cause) (epc : Word) (bad : Option Word),
    let p := trapTarget s b
    let t := takeTrap b cause epc bad s
    let added : ExtraVector → Prop := fun e =>
      e ∈ s.cfg.extraVectors ∧ e.interrupt = cause.interrupt ∧ e.code = cause.code ∧ s.priv ∈ e.levels
    TrapRecorded s t p cause epc bad
      ∧ (∀ q, q ≠ p → t.trapRegs q = s.trapRegs q)
      ∧ t.priv = p ∧ t.mstatus.e0.ie = false ∧ t.mstatus.e1.ie = s.mstatus.e0.ie
      ∧ (s.cfg.modes ≠ .m → t.mstatus.e1.prv = s.priv)
      ∧ t.mstatus = { Mstatus.push s.cfg p s.mstatus with mprv := false }
      ∧ t.mstatus.vm = s.mstatus.vm ∧ t.mstatus.fs = s.mstatus.fs ∧ t.mstatus.xs = s.mstatus.xs
      ∧ (p = .h → t.pc = s.htvec) ∧ (p = .s → t.pc = s.stvec)
      ∧ (p = .m → (∀ e, ¬added e) → t.pc = s.cfg.trunc (s.mtvec + BitVec.ofNat 64 (s.priv.level * 64)))
      ∧ (p = .m → (∃ e, added e) → ∃ e, added e ∧ t.pc = s.cfg.trunc (s.mtvec + e.offset))
      ∧ t = { s with tm := t.tm, th := t.th, ts := t.ts, mstatus := t.mstatus, pc := t.pc, stalled := false,
                     draws := t.draws }

/-- 60_exceptions.md R445: the level that handles a trap. -/
def Obligations.TrapTargetTable : Prop :=
  ∀ (s : State) (b : Nat),
    (s.priv = .m → trapTarget s b = .m)
      ∧ (s.priv ≠ .m → s.cfg.has .h = true → s.mtdeleg.getLsbD b = false → trapTarget s b = .m)
      ∧ (s.priv = .h → s.cfg.has .h = true → s.mtdeleg.getLsbD b = true → trapTarget s b = .h)
      ∧ ((s.priv = .s ∨ s.priv = .u) → s.cfg.has .h = true → s.mtdeleg.getLsbD b = true →
        trapTarget s b = if s.htdeleg.getLsbD b then .s else .h)
      ∧ (s.priv ≠ .m → s.cfg.has .h = false → s.cfg.has .s = true →
        trapTarget s b = if s.mtdeleg.getLsbD b then .s else .m)
      ∧ (s.cfg.has .h = false → s.cfg.has .s = false → trapTarget s b = .m)

/-- 60_exceptions.md R445, R457: a trap never lowers the privilege level, and is handled in a supported level above U.
-/
def Obligations.TrapNeverLowers : Prop :=
  ∀ (s : State) (b : Nat), s.cfg.has s.priv = true →
    s.priv.level ≤ (trapTarget s b).level ∧ s.cfg.has (trapTarget s b) = true ∧ trapTarget s b ≠ .u

/-- 60_exceptions.md R442: the push of the privilege stack as bits of `mstatus`, `w` being three times the depth; on an
M-only machine only the interrupt enables move. -/
def Obligations.PushBits : Prop :=
  ∀ (c : Config) (m : Mstatus) (t : Priv), Mstatus.hardwireStack c m = m → c.has t = true →
    (c.modes ≠ .m →
      let mask : Word := BitVec.ofNat 64 (2 ^ (3 * c.depth) - 1)
      (Mstatus.push c t m).fields &&& mask = ((m.fields <<< 3) &&& mask) ||| (t.bits.setWidth 64 <<< 1)
        ∧ (Mstatus.push c t m).fields &&& ~~~mask = m.fields &&& ~~~mask)
      ∧ (c.modes = .m →
        Mstatus.push c t m = { m with e1 := { prv := .m, ie := m.e0.ie }, e0 := { prv := .m, ie := false } })

/-- 60_exceptions.md R450: the pop of the privilege stack as bits of `mstatus`; the entry that comes in is the lowest
supported level with interrupts enabled. On an M-only machine only the interrupt enables move. -/
def Obligations.PopBits : Prop :=
  ∀ (c : Config) (m : Mstatus), Mstatus.hardwireStack c m = m →
    (c.modes ≠ .m →
      let w := 3 * c.depth
      let mask : Word := BitVec.ofNat 64 (2 ^ w - 1)
      (Mstatus.pop c m).fields &&& mask = ((m.fields &&& mask) >>> 3) ||| (1#64 <<< (w - 3))
        ∧ (Mstatus.pop c m).fields &&& ~~~mask = m.fields &&& ~~~mask)
      ∧ (c.modes = .m →
        Mstatus.pop c m = { m with e0 := { prv := .m, ie := m.e1.ie }, e1 := { prv := .m, ie := true } })

/-- 41_privilege_change.md R372: ERET above U pops the stack, whose bits `PopBits` gives, and so returns to the mode in
`PRV1` with its interrupt enable, at the epc of the mode it ran in; it changes nothing but the stack and `pc`. It stops
by name where the popped mode is unsupported (92_eei_decisions.md D16), and where it would raise the level and the
configuration refuses that (D39). -/
def Obligations.EretReturns : Prop :=
  ∀ s : State, s.priv ≠ .u →
    (s.cfg.has (modeBelow s) = false → exec .eret s = .refused .unsupportedMode)
      ∧ (s.cfg.has (modeBelow s) = true → s.cfg.eretEscalation = .refuse → s.priv.level < (modeBelow s).level →
        exec .eret s = .refused .eretEscalation)
      ∧ (s.cfg.has (modeBelow s) = true →
        (s.cfg.eretEscalation = .literal ∨ (modeBelow s).level ≤ s.priv.level) →
        ∃ t, exec .eret s = .next t ∧ t = { s with pc := t.pc, mstatus := t.mstatus }
          ∧ t.pc = (if s.priv = .m then s.tm.epc else if s.priv = .h then s.th.epc else s.ts.epc)
          ∧ t.mstatus = Mstatus.pop s.cfg s.mstatus
          ∧ t.priv = modeBelow s ∧ t.mstatus.e0.ie = s.mstatus.e1.ie
          ∧ t.mstatus.vm = s.mstatus.vm ∧ t.mstatus.mprv = s.mstatus.mprv ∧ t.mstatus.fs = s.mstatus.fs
          ∧ t.mstatus.xs = s.mstatus.xs)

/-- 60_exceptions.md R413 (c), 92_eei_decisions.md D18: ERET, WFI and SFENCE.VM in U, and MRTS and MRTH outside M or
without the target mode, raise illegal instruction. -/
def Obligations.PrivilegedIllegal : Prop :=
  ∀ (s : State) (rs1 : Reg),
    (s.priv = .u → exec .eret s = .next (raiseException 2 none s) ∧ exec .wfi s = .next (raiseException 2 none s)
        ∧ exec (.sfenceVm rs1) s = .next (raiseException 2 none s))
      ∧ ((s.priv ≠ .m ∨ s.cfg.has .s = false) → exec .mrts s = .next (raiseException 2 none s))
      ∧ ((s.priv ≠ .m ∨ s.cfg.has .h = false) → exec .mrth s = .next (raiseException 2 none s))

/-- 42_trap_redirect.md R382: HRTS has no operation; executing it takes an illegal-instruction exception at every
level, with the epc at the instruction. -/
def Obligations.HrtsIllegal : Prop :=
  ∀ s : State, let illegal : Cause := { interrupt := false, code := 2 }
    ∃ t, exec .hrts s = .next t ∧ t.pc = handlerAddress s illegal (trapTarget s 2)
      ∧ TrapRecorded s t (trapTarget s 2) illegal s.pc none

/-- 60_exceptions.md R453: an environment call from U that goes to M, followed by ERET with `mepc` moved past it,
returns to U at that address with the interrupt enable it had; no integer register and no memory is changed on the way.
-/
def Obligations.EcallEretRoundTrip : Prop :=
  ∀ (s : State) (a : Word), s.priv = .u → s.cfg.modes ≠ .m → s.mtdeleg.getLsbD 8 = false →
    ∃ t u, exec .ecall s = .next t ∧ t.priv = .m
      ∧ exec .eret { t with tm := { t.tm with epc := a } } = .next u
      ∧ u.priv = .u ∧ u.mstatus.e0 = s.mstatus.e0 ∧ u.pc = a ∧ u.x = s.x ∧ u.mem = s.mem

/-- 42_trap_redirect.md R380, R381: MRTS and MRTH in M copy the machine's epc, cause and bad address to the level's,
change the mode in entry 0 alone, and go to the level's handler. -/
def Obligations.RedirectInstructions : Prop :=
  ∀ s : State, s.priv = .m →
    (s.cfg.has .s = true → exec .mrts s = .next
        { s with ts := { s.ts with epc := s.tm.epc, cause := s.tm.cause, badaddr := s.tm.badaddr },
                 mstatus := { s.mstatus with e0 := { s.mstatus.e0 with prv := .s } }, pc := s.stvec })
      ∧ (s.cfg.has .h = true → exec .mrth s = .next
        { s with th := { s.th with epc := s.tm.epc, cause := s.tm.cause, badaddr := s.tm.badaddr },
                 mstatus := { s.mstatus with e0 := { s.mstatus.e0 with prv := .h } }, pc := s.htvec })

/-- 42_trap_redirect.md R383: a trap delegated from below M has the same visible result as the same trap taken by M and
redirected: the level's registers, `mstatus` and `pc` agree; the difference is that the second way the machine's
registers hold the trap's values and the first way they are unchanged. `d` is the same state with the delegation bit
clear. -/
def Obligations.DelegationAsRedirect : Prop :=
  ∀ (s : State) (b : Nat) (cause : Cause) (epc : Word) (bad : Option Word) (m : Word),
    s.priv ≠ .m → m.getLsbD b = false →
      let d := takeTrap b cause epc bad { s with mtdeleg := m }
      (trapTarget s b = .s → ∃ t, exec .mrts d = .next t
        ∧ { t with mtdeleg := s.mtdeleg, tm := s.tm } = takeTrap b cause epc bad s
        ∧ t.tm.epc = t.ts.epc ∧ t.tm.cause = t.ts.cause ∧ t.tm.badaddr = t.ts.badaddr)
      ∧ (trapTarget s b = .h → ∃ t, exec .mrth d = .next t
        ∧ { t with mtdeleg := s.mtdeleg, tm := s.tm } = takeTrap b cause epc bad s
        ∧ t.tm.epc = t.th.epc ∧ t.tm.cause = t.th.cause ∧ t.tm.badaddr = t.th.badaddr)

/-! ### WFI and SFENCE.VM -/

/-- 43_wfi.md R390: WFI above U completes and changes no register, CSR or memory but `pc`; whether it stalls is free,
but it never stalls while something is pending: a bit of `mip`, of any source, or a non-maskable interrupt. A stalled
hart that takes no interrupt executes and retires nothing, and does not stay stalled while something is pending. -/
def Obligations.WfiCompletes : Prop :=
  ∀ s : State,
    (pendingAny s = true ↔ (csrRead s .mip ≠ 0 ∨ s.nmiPending = true))
      ∧ (s.priv ≠ .u → ∃ t, exec .wfi s = .next t
        ∧ t = { s with pc := s.cfg.trunc (s.pc + 4), stalled := t.stalled, draws := t.draws }
        ∧ (pendingAny s = true → t.stalled = false))
      ∧ (s.stalled = true → interruptAtBoundary s = none →
        ∃ t, step s = .next (environment t) ∧ t = { s with stalled := t.stalled, draws := t.draws }
          ∧ (environment t).clock.instret = s.clock.instret
          ∧ (pendingAny s = true → (environment t).stalled = false))

/-- 44_sfence_vm.md R400, R401: SFENCE.VM above U removes from the translation cache exactly the entries the current
`sasid` and the operand cover, the test on `rs1` being on the register number, and changes nothing else but `pc`. -/
def Obligations.SfenceRemoves : Prop :=
  ∀ (s : State) (rs1 : Reg), s.priv ≠ .u →
    ∃ t, exec (.sfenceVm rs1) s = .next t ∧ t = { s with pc := s.cfg.trunc (s.pc + 4), tc := t.tc }
      ∧ ∀ e, e ∈ t.tc ↔ (e ∈ s.tc ∧
        ¬ ((s.sasid = 0 ∨ (e.global = false ∧ e.asid = s.sasid))
          ∧ (rs1 = 0 ∨ s.readReg rs1 >>> e.vaBits = e.vaBase >>> e.vaBits)))

/-- 44_sfence_vm.md R400, 20_memory.md R245, 21_translation.md R291, R292: after a fence of every address space and
address a translation is what the page tables in memory say, whatever the free choices are: the address of the leaf
that steps 2 to 4 of the walk find, with the untranslated bits of the virtual address; or an address error where there
is none, where it does not allow the access or where a physical check refuses. -/
def Obligations.FencedTranslation : Prop :=
  ∀ (s t : State) (va : Word) (acc : Acc) (p : Priv) (d : Nat), s.cfg.valid = true → s.priv ≠ .u → s.sasid = 0 →
    exec (.sfenceVm 0) s = .next t →
      let u := { t with draws := d }
      let r := translateAddress va acc p u
      t.tc = [] ∧ r.1 = (translateAddress va acc p t).1 ∧ r.2.mem = (translateAddress va acc p t).2.mem
        ∧ (p ≠ .m →
          (s.mstatus.vm = 8 → TranslatesByMemory u { sch := sv32, va := va, acc := acc, priv := p } r.1 r.2.mem)
            ∧ (s.mstatus.vm = 9 → canonical va 39 = true →
              TranslatesByMemory u { sch := sv39, va := va, acc := acc, priv := p } r.1 r.2.mem)
            ∧ (s.mstatus.vm = 10 → canonical va 48 = true →
              TranslatesByMemory u { sch := sv48, va := va, acc := acc, priv := p } r.1 r.2.mem))

/-! ### Interrupts, clock, the outside -/

/-- 60_exceptions.md R431: when an interrupt is enabled, in terms of the words of `mip` and `mie`; for the sources of
R430 and for those the implementation adds. -/
def Obligations.InterruptEnabled : Prop :=
  ∀ (s : State) (i : IntSource), s.cfg.valid = true → intBitsOk s.cfg s.mip = true → intBitsOk s.cfg s.mie = true →
    i ∈ intSources s.cfg →
    (intEnabled s i = true ↔
      ((csrRead s .mip).getLsbD i.bit = true ∧ (csrRead s .mie).getLsbD i.bit = true
        ∧ (s.priv.level < i.level.level ∨ (s.priv = i.level ∧ s.mstatus.e0.ie = true))))

/-- 60_exceptions.md R431, R432, R430: where some interrupt is enabled at a boundary and no non-maskable one is pending,
the step takes one of the enabled ones instead of an instruction: a trap with delegation bit 16 plus its bit, with the
epc at the instruction that would have run, leaving the pending bits and `instret` as they were. -/
def Obligations.InterruptTaken : Prop :=
  ∀ s : State, s.nmiPending = false → (∃ i ∈ intSources s.cfg, intEnabled s i = true) →
    ∃ i t, i ∈ intSources s.cfg ∧ intEnabled s i = true ∧ step s = .next (environment t)
      ∧ t = takeTrap (16 + i.bit) i.cause s.pc none s ∧ t.mip = s.mip ∧ t.clock = s.clock
      ∧ ((i = .ssi ∨ i = .hsi ∨ i = .msi) → i.cause.code = 0)
      ∧ ((i = .sti ∨ i = .hti ∨ i = .mti) → i.cause.code = 1)
      ∧ (∀ b k, i = .extra b k → i.cause.code = k) ∧ i.cause.interrupt = true

/-- 60_exceptions.md R436, 92_eei_decisions.md D27: a pending non-maskable interrupt is taken whatever is masked: to M
at `mtvec + 0xFC`, with `mepc` as for an interrupt and the stack pushed. That it wins over maskable interrupts and that
`MPRV` is cleared is the model's choice (log 12): D27 says neither. -/
def Obligations.NmiTaken : Prop :=
  ∀ s : State, s.cfg.hasNmi = true → s.nmiPending = true →
    ∃ t, step s = .next (environment t) ∧ t.pc = s.cfg.trunc (s.mtvec + 0xFC)
      ∧ t.tm.epc = s.cfg.alignEpc s.pc
      ∧ t.mstatus = { Mstatus.push s.cfg .m s.mstatus with mprv := false }
      ∧ t = { s with tm := t.tm, mstatus := t.mstatus, pc := t.pc, stalled := false, nmiPending := t.nmiPending,
                     draws := t.draws }

/-- 60_exceptions.md R471, 92_eei_decisions.md D26: an advance by `n` ticks makes a timer interrupt pending exactly
when it is of at least one tick and the last write of the compare register made it equal to the counter, or the
counter's low 32 bits equal the compare value before the advance, or at some tick of it. -/
def Obligations.TimerPasses : Prop :=
  ∀ (armed : Bool) (now : Word) (cmp : BitVec 32) (n : Nat),
    fires armed now cmp n = true ↔
      (1 ≤ n ∧ (armed = true ∨ now.setWidth 32 = cmp
        ∨ ∃ k, 1 ≤ k ∧ k ≤ n ∧ (now + BitVec.ofNat 64 k).setWidth 32 = cmp))

/-- 10_state.md R30, 60_exceptions.md R470, R471: what the outside does at a boundary. The real-time value advances by
some number of ticks and sets the timer-pending bits it passes; no pending timer bit is cleared. In every step the
model's counter of boundaries without a tick goes down, or the value ticks, so that over an unbounded run it grows
without bound. The model's choices: the outside changes no memory (log 33, unsafe where another agent writes memory),
acts once per step (log 43), ticks in this way (log 8), moves `cycle` and not `instret` (log 9), changes added
interrupt bits and those added CSRs that are declared external (log 32), and at most drops translations. -/
def Obligations.EnvironmentFrame : Prop :=
  (∀ s : State, ∃ n : Nat,
    let t := environment s
    t = { s with clock := t.clock, mip := t.mip, extra := t.extra, nmiPending := t.nmiPending, tc := t.tc,
                 draws := t.draws }
      ∧ t.clock = { s.clock with
          rtc := s.clock.rtc + BitVec.ofNat 64 n
          hold := t.clock.hold
          mArmed := s.clock.mArmed && decide (n = 0)
          hArmed := s.clock.hArmed && decide (n = 0)
          sArmed := s.clock.sArmed && decide (n = 0)
          cycle := t.clock.cycle }
      ∧ (s.clock.hold = 0 → 1 ≤ n) ∧ (s.clock.hold ≠ 0 → n = 0 ∧ t.clock.hold + 1 = s.clock.hold)
      ∧ t.mip.mti = (s.mip.mti || fires s.clock.mArmed (s.clock.time .m) s.clock.mtimecmp n)
      ∧ (s.cfg.has .s = true →
        t.mip.sti = (s.mip.sti || fires s.clock.sArmed (s.clock.time .s) s.clock.stimecmp n))
      ∧ (s.cfg.has .s = false → t.mip.sti = s.mip.sti)
      ∧ (s.cfg.has .h = true →
        t.mip.hti = (s.mip.hti || fires s.clock.hArmed (s.clock.time .h) s.clock.htimecmp n))
      ∧ (s.cfg.has .h = false → t.mip.hti = s.mip.hti)
      ∧ t.mip.ssi = s.mip.ssi ∧ t.mip.hsi = s.mip.hsi ∧ (s.cfg.remoteMsip = false → t.mip.msi = s.mip.msi)
      ∧ (t.mip.extra ^^^ s.mip.extra) &&& ~~~s.cfg.extraIntBits = 0
      ∧ t.extra.length = s.extra.length
      ∧ (∀ (k : Nat) (e : ExtraCsr), s.cfg.extraCsrs[k]? = some e → e.external = false → t.extra[k]? = s.extra[k]?)
      ∧ (s.nmiPending = true → t.nmiPending = true) ∧ (s.cfg.hasNmi = false → t.nmiPending = s.nmiPending)
      ∧ List.Sublist t.tc s.tc)
    ∧ ∀ s t : State, step s = .next t →
      (s.clock.hold ≠ 0 → t.clock.rtc = s.clock.rtc ∧ t.clock.hold + 1 = s.clock.hold)
        ∧ (s.clock.hold = 0 → ∃ n : Nat, 1 ≤ n ∧ t.clock.rtc = s.clock.rtc + BitVec.ofNat 64 n)

/-! ### Memory and translation -/

/-- Memory is little-endian, which is presumed (log 26; 20_memory.md R221 marks it general knowledge,
92_eei_decisions.md D3); that it is made of bytes is R220's. Bytes written read back, byte `k` being bits 8k+7:8k of
the value; every other byte is unchanged, and the canonical form is kept. -/
def Obligations.MemoryLittleEndian : Prop :=
  ∀ (m : Memory) (a n : Nat) (v : Word), Memory.wf m = true →
    Memory.wf (Memory.writeLE m a v n) = true
      ∧ (∀ k, k < n → Memory.read (Memory.writeLE m a v n) (a + k) = v.extractLsb' (8 * k) 8)
      ∧ (∀ b, (b < a ∨ a + n ≤ b) → Memory.read (Memory.writeLE m a v n) b = Memory.read m b)
      ∧ (n ≤ 8 → (Memory.readLE (Memory.writeLE m a v n) a n).toNat = v.toNat % 2 ^ (8 * n))

/-- 20_memory.md R247: an aligned store completes and an aligned load from the same address gives the stored bytes back,
zero-extended; every byte outside is unchanged. -/
def Obligations.StoreThenLoad : Prop :=
  ∀ (s : State) (va v : Word) (n : Nat), (n = 1 ∨ n = 2 ∨ n = 4 ∨ n = 8) → va.toNat % n = 0 →
    Memory.wf s.mem = true → PlainData s .store va n → PlainData s .load va n →
      ∃ t w, storeData va v n s = .done () t ∧ loadData va n t = .done w t
        ∧ t = { s with mem := t.mem } ∧ w.toNat = v.toNat % 2 ^ (8 * n)
        ∧ ∀ b, (b < s.cfg.physical va ∨ s.cfg.physical va + n ≤ b) → Memory.read t.mem b = Memory.read s.mem b

/-- 20_memory.md R223, R247 step 1: a misaligned data access that the hardware does not perform raises code 4 or 6 with
its address before any translation, and changes nothing. -/
def Obligations.MisalignedData : Prop :=
  ∀ (s : State) (va v : Word) (n : Nat), va.toNat % n ≠ 0 → s.cfg.misalignedDataOk = false →
    loadData va n s = .trap 4 va s ∧ storeData va v n s = .trap 6 va s

/-- 21_translation.md R264 to R266, 20_memory.md R228, R232, R247: machine mode and Mbare are untranslated; the
machine-physical address is the virtual one modulo `2^PALEN`, and the access reaches it if the access control grants the
mode its kind, an AMO being a store there, and the attributes allow it; else it is an access fault. -/
def Obligations.Untranslated : Prop :=
  ∀ (s : State) (acc : Acc) (va : Word) (n : Nat), (s.effPriv acc = .m ∨ s.mstatus.vm = 0) →
    let pa := va.toNat % 2 ^ s.cfg.palen
    let kind : PhysAcc := if acc = .fetch then .fetch else if acc = .load then .load else .store
    let allowed := (s.effPriv acc = .m ∨ s.cfg.pmaccessOk kind pa (s.effPriv acc) = true)
      ∧ s.cfg.pmaOk acc.phys pa n = true
    (¬allowed → accessPath acc va n s = .trap acc.faultCode va s)
      ∧ (allowed → s.cfg.isDevice pa n = false → accessPath acc va n s = .done pa s)

/-- 21_translation.md R270, R273: Mbb. A lower-mode address at or above the bound, as unsigned numbers, faults; below it
the base is added modulo `2^XLEN`. On a system with Mbbid fetches use `mibase` and `mibound` and data `mdbase` and
`mdbound`, each as a segment of the full range; on another all accesses use `mbase` and `mbound`. -/
def Obligations.BaseAndBound : Prop :=
  ∀ (s : State) (acc : Acc) (va base bound : Word), s.mstatus.vm = 1 → s.effPriv acc ≠ .m →
    ((s.cfg.mbbid = false ∧ base = s.seg.mbase ∧ bound = s.seg.mbound)
      ∨ (s.cfg.mbbid = true ∧ acc = .fetch ∧ base = s.seg.mibase ∧ bound = s.seg.mibound)
      ∨ (s.cfg.mbbid = true ∧ acc ≠ .fetch ∧ base = s.seg.mdbase ∧ bound = s.seg.mdbound)) →
    (bound.toNat ≤ va.toNat → translateAddress va acc (s.effPriv acc) s = (none, s))
      ∧ (va.toNat < bound.toNat → ∃ a, translateAddress va acc (s.effPriv acc) s = (some a, s)
        ∧ a.toNat = (va.toNat + base.toNat) % 2 ^ s.cfg.xlen)

/-- 21_translation.md R272: Mbbid. A lower-mode fetch needs the top bit of its address set, and the rest of the address
is checked and moved by the instruction registers; data by the data registers. -/
def Obligations.SplitBaseAndBound : Prop :=
  ∀ (s : State) (va : Word) (p : Priv), s.mstatus.vm = 2 → p ≠ .m → s.cfg.trunc va = va →
    (va.toNat < 2 ^ (s.cfg.xlen - 1) → translateAddress va .fetch p s = (none, s))
      ∧ (2 ^ (s.cfg.xlen - 1) ≤ va.toNat →
        (s.seg.mibound.toNat ≤ va.toNat - 2 ^ (s.cfg.xlen - 1) → translateAddress va .fetch p s = (none, s))
          ∧ (va.toNat - 2 ^ (s.cfg.xlen - 1) < s.seg.mibound.toNat → ∃ a, translateAddress va .fetch p s = (some a, s)
            ∧ a.toNat = (va.toNat - 2 ^ (s.cfg.xlen - 1) + s.seg.mibase.toNat) % 2 ^ s.cfg.xlen))
      ∧ ∀ acc, acc ≠ .fetch →
        (s.seg.mdbound.toNat ≤ va.toNat → translateAddress va acc p s = (none, s))
          ∧ (va.toNat < s.seg.mdbound.toNat → ∃ a, translateAddress va acc p s = (some a, s)
            ∧ a.toNat = (va.toNat + s.seg.mdbase.toNat) % 2 ^ s.cfg.xlen)

/-- 21_translation.md R284: the permissions of the leaf types 2 to 15 as bit tests on the type. -/
def Obligations.PagePermissions : Prop :=
  ∀ (type : BitVec 4) (p : Priv), 2 ≤ type.toNat → p ≠ .m →
    (p ≠ .u → pteAllowed type.toNat .load p = true ∧ pteAllowed type.toNat .store p = type.getLsbD 0
        ∧ pteAllowed type.toNat .fetch p = (decide (6 ≤ type.toNat) && type.getLsbD 1))
      ∧ (p = .u → pteAllowed type.toNat .load p = decide (type.toNat < 8)
        ∧ pteAllowed type.toNat .store p = (decide (type.toNat < 8) && type.getLsbD 0)
        ∧ pteAllowed type.toNat .fetch p = decide (type.toNat ∈ [2, 3, 6, 7]))
      ∧ pteAllowed type.toNat .amo p = pteAllowed type.toNat .store p

/-- 21_translation.md R292, R285: what a paged translation changes in memory. A failed one changes nothing; a
successful one sets R, and D for a store, in the leaf PTE it used, and leaves every byte outside that PTE as it was;
with the bits already set it writes nothing. For a leaf from a cached entry that memory no longer agrees with, that the
bits are set in memory's own bytes, and that nothing is written where the cached copy alone has them, is the model's
choice (log 16). -/
def Obligations.PageTableUpdate : Prop :=
  ∀ (s : State) (req : WalkReq), Memory.wf s.mem = true →
    ((translatePaged req s).1 = none → (translatePaged req s).2.mem = s.mem)
      ∧ ∀ e, (findLeaf req s).1 = some e →
        (∀ a, (a < e.pteAddr ∨ e.pteAddr + e.pteBytes ≤ a) →
            Memory.read (translatePaged req s).2.mem a = Memory.read s.mem a)
          ∧ (e.pte &&& pteUsedBits req.acc = pteUsedBits req.acc → (translatePaged req s).2.mem = s.mem)
          ∧ (∀ pa, (translatePaged req s).1 = some pa → e.pte &&& pteUsedBits req.acc ≠ pteUsedBits req.acc →
            1 ≤ e.pteBytes → e.pteBytes ≤ 8 →
            Memory.readLE (translatePaged req s).2.mem e.pteAddr e.pteBytes
              = Memory.readLE s.mem e.pteAddr e.pteBytes ||| pteUsedBits req.acc)

/-- 21_translation.md R297, R302: under Sv39 and Sv48 a lower-mode address whose high bits do not all equal bit 38 (47)
is an access fault, with no walk; for fetches as for data, which is the spec's decision (92_eei_decisions.md D23). -/
def Obligations.NonCanonicalFaults : Prop :=
  ∀ (s : State) (acc : Acc) (va : Word) (n : Nat), s.effPriv acc ≠ .m →
    ((s.mstatus.vm = 9 ∧ ∃ k, 39 ≤ k ∧ k < 64 ∧ va.getLsbD k ≠ va.getLsbD 38)
      ∨ (s.mstatus.vm = 10 ∧ ∃ k, 48 ≤ k ∧ k < 64 ∧ va.getLsbD k ≠ va.getLsbD 47)) →
    accessPath acc va n s = .trap acc.faultCode va s

/-! ### Reset and invariants -/

/-- 70_reset_and_hazards.md R490: what the reset event fixes, whatever the hart's state and configuration. -/
def Obligations.ResetFixes : Prop :=
  ∀ s : State,
    let t := resetHart s
    t.priv = .m ∧ t.mstatus.vm = 0 ∧ t.stalled = false ∧ t.tc = []
      ∧ (s.cfg.mtvecReset = .low → t.mtvec.toNat = 0x100 ∧ t.pc.toNat = 0x200)
      ∧ (s.cfg.mtvecReset = .high → t.mtvec.toNat = 2 ^ s.cfg.xlen - 0x200 ∧ t.pc.toNat = 2 ^ s.cfg.xlen - 0x100)
      ∧ csrRead t .mcpuid = s.cfg.mcpuid ∧ csrRead t .mimpid = s.cfg.mimpid ∧ csrRead t .mhartid = s.cfg.mhartid

/-- The state after reset is legal, in the sense StepKeepsLegal gives, in every valid configuration. That registers the
spec leaves unspecified hold zero is the model's choice (log 3), and with it that `fcsr`, `htvec` and the added CSRs are
legal then (logs 18, 17 and 34, 32). -/
def Obligations.ResetLegal : Prop :=
  Inv State.reset ∧ ∀ c : Config, c.valid = true → Inv (State.ofReset c)

/-- Every step keeps a state legal: XLEN-bit registers, aligned `pc`, epc and vector registers, a stack of supported
modes with hard-wired entries, a supported scheme, hard-wired interrupt and delegation bits, an `fcsr` of its two fields
alone, added CSRs of XLEN bits, memory in canonical form; and no step changes the configuration, so the information
registers are constants.
These clauses are the model's choices: that `fcsr` has no bit besides `fflags` and `frm` (log 18, unsafe where a later
user-level ISA gives the others a meaning: 10_state.md R54 leaves the layout to it); that `htvec` is aligned, `hepc` too,
and `htdeleg` keeps its mask, as their machine and supervisor counterparts (log 17); the format of `stvec` and with it of
`htvec` (log 34; for `stvec` the spec's decision, 92_eei_decisions.md D12); the added CSRs and interrupt bits (log 32).
The canonical form of memory is the model's representation. -/
def Obligations.StepKeepsLegal : Prop :=
  ∀ s t : State, Inv s → step s = .next t → Inv t ∧ t.cfg = s.cfg

/-- 41_privilege_change.md R373: an instruction that changes the privilege level takes a trap, or is ERET, or is MRTS or
MRTH in M, or is a CSR write of `mstatus` in M. -/
def Obligations.PrivilegeChanges : Prop :=
  ∀ (i : Instr) (s t : State), mstatusOk s.cfg s.mstatus = true → exec i s = .next t → t.priv ≠ s.priv →
    (∃ code, t = raiseException code none s) ∨ i = .eret
      ∨ (s.priv = .m ∧ ((i = .mrts ∧ t.priv = .s) ∨ (i = .mrth ∧ t.priv = .h)
        ∨ ∃ rd, csrUse s.cfg i = some (rd, 0x300#12, true)))

/-- 60_exceptions.md R456, 10_state.md R41, R42: an instruction run in U that takes no trap changes only integer
registers, `pc`, the floating-point control state and the extension's, with their status fields, and added CSRs that
have an address that U may write. -/
def Obligations.UserIsolation : Prop :=
  ∀ (i : Instr) (s t : State), s.priv = .u → exec i s = .next t →
    (∃ code, t = raiseException code none s)
      ∨ (t = { s with x := t.x, pc := t.pc, fp := { s.fp with fcsr := t.fp.fcsr }, extra := t.extra,
                      mstatus := { s.mstatus with fs := t.mstatus.fs, xs := t.mstatus.xs } }
        ∧ ∀ (k : Nat) (e : ExtraCsr), s.cfg.extraCsrs[k]? = some e →
          (∀ a ∈ e.addrs, a.extractLsb' 8 2 ≠ 0#2 ∨ a.extractLsb' 10 2 = 0b11#2) → t.extra[k]? = s.extra[k]?)

/-- 60_exceptions.md R456, 10_state.md R41, 12_state_supervisor_csrs.md R191: an instruction run in S that takes no
trap changes no register of a higher level: not the trap registers, vectors and delegation of M and H, the
base-and-bound registers, their timers, interrupt bits and enables, the sources and CSRs that an implementation adds
above S, the scheme, or memory. Of the stack it changes the two interrupt enables and the low bit of `PRV1` that
`sstatus` shows, and nothing else unless it is ERET, which pops it. -/
def Obligations.SupervisorIsolation : Prop :=
  ∀ (i : Instr) (s t : State), s.priv = .s → mstatusOk s.cfg s.mstatus = true → exec i s = .next t →
    (∃ code, t = raiseException code none s)
      ∨ (t.tm = s.tm ∧ t.th = s.th ∧ t.mtvec = s.mtvec ∧ t.htvec = s.htvec ∧ t.mtdeleg = s.mtdeleg
        ∧ t.htdeleg = s.htdeleg ∧ t.seg = s.seg ∧ t.clock.mtimecmp = s.clock.mtimecmp
        ∧ t.clock.htimecmp = s.clock.htimecmp ∧ t.clock.mArmed = s.clock.mArmed ∧ t.clock.hArmed = s.clock.hArmed
        ∧ t.clock.time .m = s.clock.time .m ∧ t.clock.time .h = s.clock.time .h
        ∧ t.clock.time .s = s.clock.time .s ∧ t.mip.msi = s.mip.msi ∧ t.mip.mti = s.mip.mti ∧ t.mip.hsi = s.mip.hsi
        ∧ t.mip.hti = s.mip.hti ∧ t.mip.extra = s.mip.extra
        ∧ t.mie.msi = s.mie.msi ∧ t.mie.mti = s.mie.mti ∧ t.mie.hsi = s.mie.hsi ∧ t.mie.hti = s.mie.hti
        ∧ t.mie.extra = s.mie.extra
        ∧ (∀ (k : Nat) (e : ExtraCsr), s.cfg.extraCsrs[k]? = some e →
          (∀ a ∈ e.addrs, 2 ≤ (a.extractLsb' 8 2).toNat ∨ a.extractLsb' 10 2 = 0b11#2) → t.extra[k]? = s.extra[k]?)
        ∧ t.mstatus.vm = s.mstatus.vm ∧ t.mem = s.mem ∧ t.cfg = s.cfg
        ∧ (i = .eret → t.mstatus = Mstatus.pop s.cfg s.mstatus)
        ∧ (i ≠ .eret → t.mstatus.e0.prv = s.mstatus.e0.prv ∧ t.mstatus.e2 = s.mstatus.e2
          ∧ t.mstatus.e3 = s.mstatus.e3 ∧ t.mstatus.e1.prv.bits.getLsbD 1 = s.mstatus.e1.prv.bits.getLsbD 1))
end

