-- ==== Sys2Proof/Laws/Decode.lean ====
section
/-!
SUPPORT. The fields of an I-type word, and a word and its four bytes.
-/

namespace Sys2Proof

theorem placeAt_getLsbD {n : Nat} (lo : Nat) (v : BitVec n) (k : Nat) :
    (placeAt lo v).getLsbD k = (decide (k < 32) && (decide (lo ≤ k) && v.getLsbD (k - lo))) := by
  unfold placeAt
  rw [BitVec.getLsbD_shiftLeft, BitVec.getLsbD_setWidth]
  by_cases h : k < lo
  · have : ¬ lo ≤ k := by omega
    simp [h, this]
  · by_cases h2 : k < 32
    · have h3 : k - lo < 32 := by omega
      have : lo ≤ k := by omega
      simp [h, h2, h3, this]
    · simp [h2]

/-- Every bit of an I-type word, by field (30_encoding.md R321). -/
theorem iType_getLsbD (imm : BitVec 12) (rs1 : BitVec 5) (f : BitVec 3) (rd : BitVec 5) (k : Nat) :
    (iType imm rs1 f rd).getLsbD k = (decide (k < 32) &&
      ((decide (20 ≤ k) && imm.getLsbD (k - 20)) || (decide (15 ≤ k) && rs1.getLsbD (k - 15))
        || (decide (12 ≤ k) && f.getLsbD (k - 12)) || (decide (7 ≤ k) && rd.getLsbD (k - 7))
        || opcodeSystem.getLsbD k)) := by
  simp only [iType, BitVec.getLsbD_or, placeAt_getLsbD, Bool.and_or_distrib_left]
  simp

section
variable (imm : BitVec 12) (rs1 : BitVec 5) (f : BitVec 3) (rd : BitVec 5)

theorem iType_opcode : opcodeOf (iType imm rs1 f rd) = opcodeSystem := by
  unfold opcodeOf
  ext k hk
  rw [BitVec.getElem_extractLsb', iType_getLsbD]
  interval_cases k <;> simp

theorem iType_funct3 : funct3Of (iType imm rs1 f rd) = f := by
  unfold funct3Of
  ext k hk
  rw [BitVec.getElem_extractLsb', iType_getLsbD]
  interval_cases k <;> simp [opcodeSystem]

theorem iType_csr : csrOf (iType imm rs1 f rd) = imm := by
  unfold csrOf
  ext k hk
  rw [BitVec.getElem_extractLsb', iType_getLsbD]
  interval_cases k <;> simp [opcodeSystem]

theorem iType_zimm : zimmOf (iType imm rs1 f rd) = rs1 := by
  unfold zimmOf
  ext k hk
  rw [BitVec.getElem_extractLsb', iType_getLsbD]
  interval_cases k <;> simp [opcodeSystem]

theorem iType_rs1 : rs1Of (iType imm rs1 f rd) = rs1.toFin :=
  congrArg BitVec.toFin (iType_zimm imm rs1 f rd)

theorem iType_rd : rdOf (iType imm rs1 f rd) = rd.toFin := by
  unfold rdOf
  congr 1
  ext k hk
  rw [BitVec.getElem_extractLsb', iType_getLsbD]
  interval_cases k <;> simp [opcodeSystem]

end

/-- A SYSTEM word is the I-type word of its fields. -/
theorem iType_of_fields {w : BitVec 32} (h : opcodeOf w = opcodeSystem) :
    iType (csrOf w) (zimmOf w) (funct3Of w) (BitVec.ofFin (w := 5) (rdOf w)) = w := by
  apply BitVec.eq_of_getLsbD_eq
  intro k hk
  have ho : ∀ j, j < 7 → opcodeSystem.getLsbD j = w.getLsbD j := by
    intro j hj
    rw [← h, opcodeOf, BitVec.getLsbD_extractLsb']
    simp [hj]
  have hr : BitVec.ofFin (w := 5) (rdOf w) = w.extractLsb' 7 5 := rfl
  rw [iType_getLsbD, hr]
  simp only [csrOf, zimmOf, funct3Of, BitVec.getLsbD_extractLsb']
  by_cases h7 : k < 7
  · rw [ho k h7]
    have : ¬ 20 ≤ k ∧ ¬ 15 ≤ k ∧ ¬ 12 ≤ k ∧ ¬ 7 ≤ k := by omega
    simp [this, hk]
  · have : opcodeSystem.getLsbD k = false := BitVec.getLsbD_of_ge _ _ (by omega)
    rw [this]
    interval_cases k <;> simp at h7 ⊢

/-- The bytes of a word, lowest first, are that word (20_memory.md R221). -/
theorem wordOfBytes_bytesOfWord (w : BitVec 32) :
    wordOfBytes (w.extractLsb' 0 8) (w.extractLsb' 8 8) (w.extractLsb' 16 8) (w.extractLsb' 24 8) = w := by
  apply BitVec.eq_of_getLsbD_eq
  intro k hk
  simp only [wordOfBytes, BitVec.getLsbD_or, BitVec.getLsbD_shiftLeft, BitVec.getLsbD_setWidth,
    BitVec.getLsbD_extractLsb']
  interval_cases k <;> simp

/-- Decoding a word's bytes is decoding the word. -/
theorem decodeBytes_bytesOfWord (w : BitVec 32) (rest : List Byte) :
    decodeBytes (bytesOfWord w ++ rest) = (decode w).map fun i => (i, rest) := by
  simp only [bytesOfWord, List.cons_append, List.nil_append, decodeBytes, wordOfBytes_bytesOfWord]
  cases decode w <;> rfl

end Sys2Proof
end

