-- ==== Sys2Proof/Laws/Memory.lean ====
section
/-!
SUPPORT. The laws of memory: a read after a write, and the canonical form kept by every memory operation.
-/

namespace Sys2Proof.Machine

theorem Memory.wfFrom_mono {m : Memory} {lo k : Nat} (h : Memory.wfFrom lo m = true) (hk : k ≤ lo) :
    Memory.wfFrom k m = true := by
  cases m with
  | nil => rfl
  | cons c rest =>
    obtain ⟨a, v⟩ := c
    simp only [Memory.wfFrom, Bool.and_eq_true, decide_eq_true_eq] at h ⊢
    exact ⟨⟨by omega, h.1.2⟩, h.2⟩

/-- Below every listed address a byte is unlisted. -/
theorem Memory.read_below {m : Memory} {lo a : Nat} (h : Memory.wfFrom lo m = true) (ha : a < lo) :
    Memory.read m a = unlistedByte := by
  induction m generalizing lo with
  | nil => rfl
  | cons c rest ih =>
    obtain ⟨b, v⟩ := c
    simp only [Memory.wfFrom, Bool.and_eq_true, decide_eq_true_eq] at h
    rw [Memory.read, if_neg (by omega)]
    exact ih h.2 (by omega)

/-- A write leaves every other byte alone. -/
theorem Memory.read_write_ne {m : Memory} {a b : Nat} {v : Byte} (h : a ≠ b) :
    Memory.read (Memory.write m a v) b = Memory.read m b := by
  induction m with
  | nil => by_cases hv : v = unlistedByte <;> simp [Memory.write, Memory.read, hv, Ne.symm h]
  | cons c rest ih =>
    obtain ⟨d, w⟩ := c
    simp only [Memory.write]
    split
    · split <;> simp [Memory.read, Ne.symm h]
    · split
      · rename_i hd
        split <;> simp [Memory.read, Ne.symm h, ← hd]
      · by_cases hb : b = d <;> simp [Memory.read, hb]
        simpa [hb] using ih

/-- A byte written reads back. -/
theorem Memory.read_write_eq {m : Memory} {lo a : Nat} {v : Byte} (hw : Memory.wfFrom lo m = true) :
    Memory.read (Memory.write m a v) a = v := by
  induction m generalizing lo with
  | nil => by_cases hv : v = unlistedByte <;> simp [Memory.write, Memory.read, hv]
  | cons c rest ih =>
    obtain ⟨d, w⟩ := c
    have hw' := hw
    simp only [Memory.wfFrom, Bool.and_eq_true, decide_eq_true_eq] at hw
    simp only [Memory.write]
    split
    · rename_i hlt
      split
      · rename_i hv
        rw [hv, Memory.read, if_neg (by omega), Memory.read_below hw.2 (by omega)]
      · simp [Memory.read]
    · split
      · rename_i had
        split
        · rename_i hv
          rw [hv, Memory.read_below hw.2 (by omega)]
        · simp [Memory.read]
      · rename_i hne
        rw [Memory.read, if_neg (by omega)]
        exact ih hw.2

theorem Memory.wfFrom_write {m : Memory} {lo a : Nat} {v : Byte} (hw : Memory.wfFrom lo m = true) (ha : lo ≤ a) :
    Memory.wfFrom lo (Memory.write m a v) = true := by
  induction m generalizing lo with
  | nil => by_cases hv : v = unlistedByte <;> simp [Memory.write, Memory.wfFrom, hv, ha]
  | cons c rest ih =>
    obtain ⟨d, w⟩ := c
    have hw' := hw
    simp only [Memory.wfFrom, Bool.and_eq_true, decide_eq_true_eq] at hw
    simp only [Memory.write]
    split
    · split
      · exact hw'
      · rename_i hv
        simp only [Memory.wfFrom, Bool.and_eq_true, decide_eq_true_eq]
        exact ⟨⟨ha, hv⟩, ⟨by omega, hw.1.2⟩, hw.2⟩
    · split
      · split
        · exact Memory.wfFrom_mono hw.2 (by omega)
        · rename_i hv
          simp only [Memory.wfFrom, Bool.and_eq_true, decide_eq_true_eq]
          exact ⟨⟨ha, hv⟩, Memory.wfFrom_mono hw.2 (by omega)⟩
      · simp only [Memory.wfFrom, Bool.and_eq_true, decide_eq_true_eq]
        exact ⟨hw.1, ih hw.2 (by omega)⟩

/-- A byte written keeps the canonical form. -/
theorem Memory.wf_write {m : Memory} (a : Nat) (v : Byte) (hw : Memory.wf m = true) :
    Memory.wf (Memory.write m a v) = true :=
  Memory.wfFrom_write hw (Nat.zero_le a)

/-- Several bytes written keep the canonical form. -/
theorem Memory.wf_writeLE {m : Memory} (a : Nat) (v : Word) (n : Nat) (hw : Memory.wf m = true) :
    Memory.wf (Memory.writeLE m a v n) = true := by
  induction n generalizing m a v with
  | zero => exact hw
  | succ n ih => exact ih _ _ (Memory.wf_write _ _ hw)

theorem scatterBytes_wf {m : Memory} (v : Word) (l : List Nat) (hw : Memory.wf m = true) :
    Memory.wf (scatterBytes m v l) = true := by
  induction l generalizing m v with
  | nil => exact hw
  | cons a rest ih => exact ih _ (Memory.wf_write _ _ hw)

/-- Several bytes written leave every byte outside alone. -/
theorem Memory.read_writeLE_outside {m : Memory} {a b : Nat} {v : Word} {n : Nat} (h : b < a ∨ a + n ≤ b) :
    Memory.read (Memory.writeLE m a v n) b = Memory.read m b := by
  induction n generalizing m a v with
  | zero => rfl
  | succ n ih =>
    rw [Memory.writeLE, ih (by omega), Memory.read_write_ne (by omega)]

/-- Byte `k` of a little-endian value written. -/
theorem Memory.read_writeLE_inside {m : Memory} {a k : Nat} {v : Word} {n : Nat} (hw : Memory.wf m = true)
    (hk : k < n) : Memory.read (Memory.writeLE m a v n) (a + k) = (v >>> (8 * k)).setWidth 8 := by
  induction n generalizing m a v k with
  | zero => omega
  | succ n ih =>
    rw [Memory.writeLE]
    cases k with
    | zero =>
      rw [Memory.read_writeLE_outside (by omega), Nat.add_zero, Memory.read_write_eq hw]
      simp
    | succ k =>
      have h := ih (m := Memory.write m a (v.setWidth 8)) (a := a + 1) (v := v >>> 8) (Memory.wf_write _ _ hw)
        (k := k) (by omega)
      rw [show a + (k + 1) = a + 1 + k by omega, h, ← BitVec.shiftRight_add, show 8 + 8 * k = 8 * (k + 1) by omega]

end Sys2Proof.Machine
end

