-- ==== Sys2Proof/Laws/State.lean ====
section
/-!
SUPPORT. One lemma per field for each named update of State, so that no proof unfolds a record update.
-/

namespace Sys2Proof.Machine

/-! ### `pc + 4` -/

@[simp] theorem advance_cfg (s : State) : (s.advance).cfg = s.cfg := rfl
@[simp] theorem advance_x (s : State) : (s.advance).x = s.x := rfl
@[simp] theorem advance_fp (s : State) : (s.advance).fp = s.fp := rfl
@[simp] theorem advance_mstatus (s : State) : (s.advance).mstatus = s.mstatus := rfl
@[simp] theorem advance_mip (s : State) : (s.advance).mip = s.mip := rfl
@[simp] theorem advance_mie (s : State) : (s.advance).mie = s.mie := rfl
@[simp] theorem advance_mtvec (s : State) : (s.advance).mtvec = s.mtvec := rfl
@[simp] theorem advance_htvec (s : State) : (s.advance).htvec = s.htvec := rfl
@[simp] theorem advance_stvec (s : State) : (s.advance).stvec = s.stvec := rfl
@[simp] theorem advance_mtdeleg (s : State) : (s.advance).mtdeleg = s.mtdeleg := rfl
@[simp] theorem advance_htdeleg (s : State) : (s.advance).htdeleg = s.htdeleg := rfl
@[simp] theorem advance_tm (s : State) : (s.advance).tm = s.tm := rfl
@[simp] theorem advance_th (s : State) : (s.advance).th = s.th := rfl
@[simp] theorem advance_ts (s : State) : (s.advance).ts = s.ts := rfl
@[simp] theorem advance_seg (s : State) : (s.advance).seg = s.seg := rfl
@[simp] theorem advance_sptbr (s : State) : (s.advance).sptbr = s.sptbr := rfl
@[simp] theorem advance_sasid (s : State) : (s.advance).sasid = s.sasid := rfl
@[simp] theorem advance_clock (s : State) : (s.advance).clock = s.clock := rfl
@[simp] theorem advance_extra (s : State) : (s.advance).extra = s.extra := rfl
@[simp] theorem advance_nmiPending (s : State) : (s.advance).nmiPending = s.nmiPending := rfl
@[simp] theorem advance_stalled (s : State) : (s.advance).stalled = s.stalled := rfl
@[simp] theorem advance_tc (s : State) : (s.advance).tc = s.tc := rfl
@[simp] theorem advance_mem (s : State) : (s.advance).mem = s.mem := rfl
@[simp] theorem advance_draws (s : State) : (s.advance).draws = s.draws := rfl
@[simp] theorem advance_pc (s : State) : (s.advance).pc = s.cfg.trunc (s.pc + 4) := rfl
@[simp] theorem advance_readReg (s : State) (r : Reg) : s.advance.readReg r = s.readReg r := rfl

/-! ### A register write -/

@[simp] theorem writeReg_cfg (s : State) (r : Reg) (v : Word) : (s.writeReg r v).cfg = s.cfg := by
  unfold State.writeReg; split <;> rfl
@[simp] theorem writeReg_pc (s : State) (r : Reg) (v : Word) : (s.writeReg r v).pc = s.pc := by
  unfold State.writeReg; split <;> rfl
@[simp] theorem writeReg_fp (s : State) (r : Reg) (v : Word) : (s.writeReg r v).fp = s.fp := by
  unfold State.writeReg; split <;> rfl
@[simp] theorem writeReg_mstatus (s : State) (r : Reg) (v : Word) : (s.writeReg r v).mstatus = s.mstatus := by
  unfold State.writeReg; split <;> rfl
@[simp] theorem writeReg_mip (s : State) (r : Reg) (v : Word) : (s.writeReg r v).mip = s.mip := by
  unfold State.writeReg; split <;> rfl
@[simp] theorem writeReg_mie (s : State) (r : Reg) (v : Word) : (s.writeReg r v).mie = s.mie := by
  unfold State.writeReg; split <;> rfl
@[simp] theorem writeReg_mtvec (s : State) (r : Reg) (v : Word) : (s.writeReg r v).mtvec = s.mtvec := by
  unfold State.writeReg; split <;> rfl
@[simp] theorem writeReg_htvec (s : State) (r : Reg) (v : Word) : (s.writeReg r v).htvec = s.htvec := by
  unfold State.writeReg; split <;> rfl
@[simp] theorem writeReg_stvec (s : State) (r : Reg) (v : Word) : (s.writeReg r v).stvec = s.stvec := by
  unfold State.writeReg; split <;> rfl
@[simp] theorem writeReg_mtdeleg (s : State) (r : Reg) (v : Word) : (s.writeReg r v).mtdeleg = s.mtdeleg := by
  unfold State.writeReg; split <;> rfl
@[simp] theorem writeReg_htdeleg (s : State) (r : Reg) (v : Word) : (s.writeReg r v).htdeleg = s.htdeleg := by
  unfold State.writeReg; split <;> rfl
@[simp] theorem writeReg_tm (s : State) (r : Reg) (v : Word) : (s.writeReg r v).tm = s.tm := by
  unfold State.writeReg; split <;> rfl
@[simp] theorem writeReg_th (s : State) (r : Reg) (v : Word) : (s.writeReg r v).th = s.th := by
  unfold State.writeReg; split <;> rfl
@[simp] theorem writeReg_ts (s : State) (r : Reg) (v : Word) : (s.writeReg r v).ts = s.ts := by
  unfold State.writeReg; split <;> rfl
@[simp] theorem writeReg_seg (s : State) (r : Reg) (v : Word) : (s.writeReg r v).seg = s.seg := by
  unfold State.writeReg; split <;> rfl
@[simp] theorem writeReg_sptbr (s : State) (r : Reg) (v : Word) : (s.writeReg r v).sptbr = s.sptbr := by
  unfold State.writeReg; split <;> rfl
@[simp] theorem writeReg_sasid (s : State) (r : Reg) (v : Word) : (s.writeReg r v).sasid = s.sasid := by
  unfold State.writeReg; split <;> rfl
@[simp] theorem writeReg_clock (s : State) (r : Reg) (v : Word) : (s.writeReg r v).clock = s.clock := by
  unfold State.writeReg; split <;> rfl
@[simp] theorem writeReg_extra (s : State) (r : Reg) (v : Word) : (s.writeReg r v).extra = s.extra := by
  unfold State.writeReg; split <;> rfl
@[simp] theorem writeReg_nmiPending (s : State) (r : Reg) (v : Word) : (s.writeReg r v).nmiPending = s.nmiPending := by
  unfold State.writeReg; split <;> rfl
@[simp] theorem writeReg_stalled (s : State) (r : Reg) (v : Word) : (s.writeReg r v).stalled = s.stalled := by
  unfold State.writeReg; split <;> rfl
@[simp] theorem writeReg_tc (s : State) (r : Reg) (v : Word) : (s.writeReg r v).tc = s.tc := by
  unfold State.writeReg; split <;> rfl
@[simp] theorem writeReg_mem (s : State) (r : Reg) (v : Word) : (s.writeReg r v).mem = s.mem := by
  unfold State.writeReg; split <;> rfl
@[simp] theorem writeReg_draws (s : State) (r : Reg) (v : Word) : (s.writeReg r v).draws = s.draws := by
  unfold State.writeReg; split <;> rfl

/-! ### The trap registers of a level -/

@[simp] theorem setTrapRegs_cfg (s : State) (p : Priv) (r : TrapRegs) : (s.setTrapRegs p r).cfg = s.cfg := by
  cases p <;> rfl
@[simp] theorem setTrapRegs_x (s : State) (p : Priv) (r : TrapRegs) : (s.setTrapRegs p r).x = s.x := by
  cases p <;> rfl
@[simp] theorem setTrapRegs_pc (s : State) (p : Priv) (r : TrapRegs) : (s.setTrapRegs p r).pc = s.pc := by
  cases p <;> rfl
@[simp] theorem setTrapRegs_fp (s : State) (p : Priv) (r : TrapRegs) : (s.setTrapRegs p r).fp = s.fp := by
  cases p <;> rfl
@[simp] theorem setTrapRegs_mstatus (s : State) (p : Priv) (r : TrapRegs) :
    (s.setTrapRegs p r).mstatus = s.mstatus := by
  cases p <;> rfl
@[simp] theorem setTrapRegs_mip (s : State) (p : Priv) (r : TrapRegs) : (s.setTrapRegs p r).mip = s.mip := by
  cases p <;> rfl
@[simp] theorem setTrapRegs_mie (s : State) (p : Priv) (r : TrapRegs) : (s.setTrapRegs p r).mie = s.mie := by
  cases p <;> rfl
@[simp] theorem setTrapRegs_mtvec (s : State) (p : Priv) (r : TrapRegs) : (s.setTrapRegs p r).mtvec = s.mtvec := by
  cases p <;> rfl
@[simp] theorem setTrapRegs_htvec (s : State) (p : Priv) (r : TrapRegs) : (s.setTrapRegs p r).htvec = s.htvec := by
  cases p <;> rfl
@[simp] theorem setTrapRegs_stvec (s : State) (p : Priv) (r : TrapRegs) : (s.setTrapRegs p r).stvec = s.stvec := by
  cases p <;> rfl
@[simp] theorem setTrapRegs_mtdeleg (s : State) (p : Priv) (r : TrapRegs) :
    (s.setTrapRegs p r).mtdeleg = s.mtdeleg := by
  cases p <;> rfl
@[simp] theorem setTrapRegs_htdeleg (s : State) (p : Priv) (r : TrapRegs) :
    (s.setTrapRegs p r).htdeleg = s.htdeleg := by
  cases p <;> rfl
@[simp] theorem setTrapRegs_seg (s : State) (p : Priv) (r : TrapRegs) : (s.setTrapRegs p r).seg = s.seg := by
  cases p <;> rfl
@[simp] theorem setTrapRegs_sptbr (s : State) (p : Priv) (r : TrapRegs) : (s.setTrapRegs p r).sptbr = s.sptbr := by
  cases p <;> rfl
@[simp] theorem setTrapRegs_sasid (s : State) (p : Priv) (r : TrapRegs) : (s.setTrapRegs p r).sasid = s.sasid := by
  cases p <;> rfl
@[simp] theorem setTrapRegs_clock (s : State) (p : Priv) (r : TrapRegs) : (s.setTrapRegs p r).clock = s.clock := by
  cases p <;> rfl
@[simp] theorem setTrapRegs_extra (s : State) (p : Priv) (r : TrapRegs) : (s.setTrapRegs p r).extra = s.extra := by
  cases p <;> rfl
@[simp] theorem setTrapRegs_nmiPending (s : State) (p : Priv) (r : TrapRegs) :
    (s.setTrapRegs p r).nmiPending = s.nmiPending := by
  cases p <;> rfl
@[simp] theorem setTrapRegs_stalled (s : State) (p : Priv) (r : TrapRegs) :
    (s.setTrapRegs p r).stalled = s.stalled := by
  cases p <;> rfl
@[simp] theorem setTrapRegs_tc (s : State) (p : Priv) (r : TrapRegs) : (s.setTrapRegs p r).tc = s.tc := by
  cases p <;> rfl
@[simp] theorem setTrapRegs_mem (s : State) (p : Priv) (r : TrapRegs) : (s.setTrapRegs p r).mem = s.mem := by
  cases p <;> rfl
@[simp] theorem setTrapRegs_draws (s : State) (p : Priv) (r : TrapRegs) : (s.setTrapRegs p r).draws = s.draws := by
  cases p <;> rfl
@[simp] theorem setTrapRegs_tm (s : State) (p : Priv) (r : TrapRegs) :
    (s.setTrapRegs p r).tm = if p = .m then r else s.tm := by
  cases p <;> rfl
@[simp] theorem setTrapRegs_th (s : State) (p : Priv) (r : TrapRegs) :
    (s.setTrapRegs p r).th = if p = .h then r else s.th := by
  cases p <;> rfl
@[simp] theorem setTrapRegs_ts (s : State) (p : Priv) (r : TrapRegs) :
    (s.setTrapRegs p r).ts = if p = .s then r else s.ts := by
  cases p <;> rfl

/-! ### Trap entry -/

@[simp] theorem enterTrap_cfg (p : Priv) (h : Word) (k : Cause) (e : Word) (b : Option Word) (s : State) :
    (enterTrap p h k e b s).cfg = s.cfg := by
  cases p <;> rfl
@[simp] theorem enterTrap_x (p : Priv) (h : Word) (k : Cause) (e : Word) (b : Option Word) (s : State) :
    (enterTrap p h k e b s).x = s.x := by
  cases p <;> rfl
@[simp] theorem enterTrap_fp (p : Priv) (h : Word) (k : Cause) (e : Word) (b : Option Word) (s : State) :
    (enterTrap p h k e b s).fp = s.fp := by
  cases p <;> rfl
@[simp] theorem enterTrap_mip (p : Priv) (h : Word) (k : Cause) (e : Word) (b : Option Word) (s : State) :
    (enterTrap p h k e b s).mip = s.mip := by
  cases p <;> rfl
@[simp] theorem enterTrap_mie (p : Priv) (h : Word) (k : Cause) (e : Word) (b : Option Word) (s : State) :
    (enterTrap p h k e b s).mie = s.mie := by
  cases p <;> rfl
@[simp] theorem enterTrap_mtvec (p : Priv) (h : Word) (k : Cause) (e : Word) (b : Option Word) (s : State) :
    (enterTrap p h k e b s).mtvec = s.mtvec := by
  cases p <;> rfl
@[simp] theorem enterTrap_htvec (p : Priv) (h : Word) (k : Cause) (e : Word) (b : Option Word) (s : State) :
    (enterTrap p h k e b s).htvec = s.htvec := by
  cases p <;> rfl
@[simp] theorem enterTrap_stvec (p : Priv) (h : Word) (k : Cause) (e : Word) (b : Option Word) (s : State) :
    (enterTrap p h k e b s).stvec = s.stvec := by
  cases p <;> rfl
@[simp] theorem enterTrap_mtdeleg (p : Priv) (h : Word) (k : Cause) (e : Word) (b : Option Word) (s : State) :
    (enterTrap p h k e b s).mtdeleg = s.mtdeleg := by
  cases p <;> rfl
@[simp] theorem enterTrap_htdeleg (p : Priv) (h : Word) (k : Cause) (e : Word) (b : Option Word) (s : State) :
    (enterTrap p h k e b s).htdeleg = s.htdeleg := by
  cases p <;> rfl
@[simp] theorem enterTrap_seg (p : Priv) (h : Word) (k : Cause) (e : Word) (b : Option Word) (s : State) :
    (enterTrap p h k e b s).seg = s.seg := by
  cases p <;> rfl
@[simp] theorem enterTrap_sptbr (p : Priv) (h : Word) (k : Cause) (e : Word) (b : Option Word) (s : State) :
    (enterTrap p h k e b s).sptbr = s.sptbr := by
  cases p <;> rfl
@[simp] theorem enterTrap_sasid (p : Priv) (h : Word) (k : Cause) (e : Word) (b : Option Word) (s : State) :
    (enterTrap p h k e b s).sasid = s.sasid := by
  cases p <;> rfl
@[simp] theorem enterTrap_clock (p : Priv) (h : Word) (k : Cause) (e : Word) (b : Option Word) (s : State) :
    (enterTrap p h k e b s).clock = s.clock := by
  cases p <;> rfl
@[simp] theorem enterTrap_extra (p : Priv) (h : Word) (k : Cause) (e : Word) (b : Option Word) (s : State) :
    (enterTrap p h k e b s).extra = s.extra := by
  cases p <;> rfl
@[simp] theorem enterTrap_nmiPending (p : Priv) (h : Word) (k : Cause) (e : Word) (b : Option Word) (s : State) :
    (enterTrap p h k e b s).nmiPending = s.nmiPending := by
  cases p <;> rfl
@[simp] theorem enterTrap_tc (p : Priv) (h : Word) (k : Cause) (e : Word) (b : Option Word) (s : State) :
    (enterTrap p h k e b s).tc = s.tc := by
  cases p <;> rfl
@[simp] theorem enterTrap_mem (p : Priv) (h : Word) (k : Cause) (e : Word) (b : Option Word) (s : State) :
    (enterTrap p h k e b s).mem = s.mem := by
  cases p <;> rfl
@[simp] theorem enterTrap_pc (p : Priv) (h : Word) (k : Cause) (e : Word) (b : Option Word) (s : State) :
    (enterTrap p h k e b s).pc = h := by
  cases p <;> rfl
@[simp] theorem enterTrap_stalled (p : Priv) (h : Word) (k : Cause) (e : Word) (b : Option Word) (s : State) :
    (enterTrap p h k e b s).stalled = false := by
  cases p <;> rfl
@[simp] theorem enterTrap_mstatus (p : Priv) (h : Word) (k : Cause) (e : Word) (b : Option Word) (s : State) :
    (enterTrap p h k e b s).mstatus = { Mstatus.push s.cfg p s.mstatus with mprv := false } := by
  cases p <;> rfl

/-! ### Trap return -/

@[simp] theorem trapReturn_cfg (a : Word) (s : State) : (trapReturn a s).cfg = s.cfg := rfl
@[simp] theorem trapReturn_x (a : Word) (s : State) : (trapReturn a s).x = s.x := rfl
@[simp] theorem trapReturn_fp (a : Word) (s : State) : (trapReturn a s).fp = s.fp := rfl
@[simp] theorem trapReturn_mip (a : Word) (s : State) : (trapReturn a s).mip = s.mip := rfl
@[simp] theorem trapReturn_mie (a : Word) (s : State) : (trapReturn a s).mie = s.mie := rfl
@[simp] theorem trapReturn_mtvec (a : Word) (s : State) : (trapReturn a s).mtvec = s.mtvec := rfl
@[simp] theorem trapReturn_htvec (a : Word) (s : State) : (trapReturn a s).htvec = s.htvec := rfl
@[simp] theorem trapReturn_stvec (a : Word) (s : State) : (trapReturn a s).stvec = s.stvec := rfl
@[simp] theorem trapReturn_mtdeleg (a : Word) (s : State) : (trapReturn a s).mtdeleg = s.mtdeleg := rfl
@[simp] theorem trapReturn_htdeleg (a : Word) (s : State) : (trapReturn a s).htdeleg = s.htdeleg := rfl
@[simp] theorem trapReturn_tm (a : Word) (s : State) : (trapReturn a s).tm = s.tm := rfl
@[simp] theorem trapReturn_th (a : Word) (s : State) : (trapReturn a s).th = s.th := rfl
@[simp] theorem trapReturn_ts (a : Word) (s : State) : (trapReturn a s).ts = s.ts := rfl
@[simp] theorem trapReturn_seg (a : Word) (s : State) : (trapReturn a s).seg = s.seg := rfl
@[simp] theorem trapReturn_sptbr (a : Word) (s : State) : (trapReturn a s).sptbr = s.sptbr := rfl
@[simp] theorem trapReturn_sasid (a : Word) (s : State) : (trapReturn a s).sasid = s.sasid := rfl
@[simp] theorem trapReturn_clock (a : Word) (s : State) : (trapReturn a s).clock = s.clock := rfl
@[simp] theorem trapReturn_extra (a : Word) (s : State) : (trapReturn a s).extra = s.extra := rfl
@[simp] theorem trapReturn_nmiPending (a : Word) (s : State) : (trapReturn a s).nmiPending = s.nmiPending := rfl
@[simp] theorem trapReturn_stalled (a : Word) (s : State) : (trapReturn a s).stalled = s.stalled := rfl
@[simp] theorem trapReturn_tc (a : Word) (s : State) : (trapReturn a s).tc = s.tc := rfl
@[simp] theorem trapReturn_mem (a : Word) (s : State) : (trapReturn a s).mem = s.mem := rfl
@[simp] theorem trapReturn_draws (a : Word) (s : State) : (trapReturn a s).draws = s.draws := rfl
@[simp] theorem trapReturn_pc (a : Word) (s : State) : (trapReturn a s).pc = a := rfl
@[simp] theorem trapReturn_mstatus (a : Word) (s : State) :
    (trapReturn a s).mstatus = Mstatus.pop s.cfg s.mstatus := rfl

/-! ### Trap redirection -/

@[simp] theorem redirectTrap_cfg (p : Priv) (h : Word) (s : State) : (redirectTrap p h s).cfg = s.cfg := by
  cases p <;> rfl
@[simp] theorem redirectTrap_x (p : Priv) (h : Word) (s : State) : (redirectTrap p h s).x = s.x := by
  cases p <;> rfl
@[simp] theorem redirectTrap_fp (p : Priv) (h : Word) (s : State) : (redirectTrap p h s).fp = s.fp := by
  cases p <;> rfl
@[simp] theorem redirectTrap_mip (p : Priv) (h : Word) (s : State) : (redirectTrap p h s).mip = s.mip := by
  cases p <;> rfl
@[simp] theorem redirectTrap_mie (p : Priv) (h : Word) (s : State) : (redirectTrap p h s).mie = s.mie := by
  cases p <;> rfl
@[simp] theorem redirectTrap_mtvec (p : Priv) (h : Word) (s : State) : (redirectTrap p h s).mtvec = s.mtvec := by
  cases p <;> rfl
@[simp] theorem redirectTrap_htvec (p : Priv) (h : Word) (s : State) : (redirectTrap p h s).htvec = s.htvec := by
  cases p <;> rfl
@[simp] theorem redirectTrap_stvec (p : Priv) (h : Word) (s : State) : (redirectTrap p h s).stvec = s.stvec := by
  cases p <;> rfl
@[simp] theorem redirectTrap_mtdeleg (p : Priv) (h : Word) (s : State) : (redirectTrap p h s).mtdeleg = s.mtdeleg := by
  cases p <;> rfl
@[simp] theorem redirectTrap_htdeleg (p : Priv) (h : Word) (s : State) : (redirectTrap p h s).htdeleg = s.htdeleg := by
  cases p <;> rfl
@[simp] theorem redirectTrap_seg (p : Priv) (h : Word) (s : State) : (redirectTrap p h s).seg = s.seg := by
  cases p <;> rfl
@[simp] theorem redirectTrap_sptbr (p : Priv) (h : Word) (s : State) : (redirectTrap p h s).sptbr = s.sptbr := by
  cases p <;> rfl
@[simp] theorem redirectTrap_sasid (p : Priv) (h : Word) (s : State) : (redirectTrap p h s).sasid = s.sasid := by
  cases p <;> rfl
@[simp] theorem redirectTrap_clock (p : Priv) (h : Word) (s : State) : (redirectTrap p h s).clock = s.clock := by
  cases p <;> rfl
@[simp] theorem redirectTrap_extra (p : Priv) (h : Word) (s : State) : (redirectTrap p h s).extra = s.extra := by
  cases p <;> rfl
@[simp] theorem redirectTrap_nmiPending (p : Priv) (h : Word) (s : State) :
    (redirectTrap p h s).nmiPending = s.nmiPending := by
  cases p <;> rfl
@[simp] theorem redirectTrap_stalled (p : Priv) (h : Word) (s : State) : (redirectTrap p h s).stalled = s.stalled := by
  cases p <;> rfl
@[simp] theorem redirectTrap_tc (p : Priv) (h : Word) (s : State) : (redirectTrap p h s).tc = s.tc := by
  cases p <;> rfl
@[simp] theorem redirectTrap_mem (p : Priv) (h : Word) (s : State) : (redirectTrap p h s).mem = s.mem := by
  cases p <;> rfl
@[simp] theorem redirectTrap_draws (p : Priv) (h : Word) (s : State) : (redirectTrap p h s).draws = s.draws := by
  cases p <;> rfl
@[simp] theorem redirectTrap_pc (p : Priv) (h : Word) (s : State) : (redirectTrap p h s).pc = h := by
  cases p <;> rfl
@[simp] theorem redirectTrap_mstatus (p : Priv) (h : Word) (s : State) :
    (redirectTrap p h s).mstatus = { s.mstatus with e0 := { s.mstatus.e0 with prv := p } } := by
  cases p <;> rfl

/-! ### A write of `fcsr` or its fields -/

@[simp] theorem writeFcsr_cfg (s : State) (m v : Word) : (writeFcsr s m v).cfg = s.cfg := rfl
@[simp] theorem writeFcsr_x (s : State) (m v : Word) : (writeFcsr s m v).x = s.x := rfl
@[simp] theorem writeFcsr_pc (s : State) (m v : Word) : (writeFcsr s m v).pc = s.pc := rfl
@[simp] theorem writeFcsr_mip (s : State) (m v : Word) : (writeFcsr s m v).mip = s.mip := rfl
@[simp] theorem writeFcsr_mie (s : State) (m v : Word) : (writeFcsr s m v).mie = s.mie := rfl
@[simp] theorem writeFcsr_mtvec (s : State) (m v : Word) : (writeFcsr s m v).mtvec = s.mtvec := rfl
@[simp] theorem writeFcsr_htvec (s : State) (m v : Word) : (writeFcsr s m v).htvec = s.htvec := rfl
@[simp] theorem writeFcsr_stvec (s : State) (m v : Word) : (writeFcsr s m v).stvec = s.stvec := rfl
@[simp] theorem writeFcsr_mtdeleg (s : State) (m v : Word) : (writeFcsr s m v).mtdeleg = s.mtdeleg := rfl
@[simp] theorem writeFcsr_htdeleg (s : State) (m v : Word) : (writeFcsr s m v).htdeleg = s.htdeleg := rfl
@[simp] theorem writeFcsr_tm (s : State) (m v : Word) : (writeFcsr s m v).tm = s.tm := rfl
@[simp] theorem writeFcsr_th (s : State) (m v : Word) : (writeFcsr s m v).th = s.th := rfl
@[simp] theorem writeFcsr_ts (s : State) (m v : Word) : (writeFcsr s m v).ts = s.ts := rfl
@[simp] theorem writeFcsr_seg (s : State) (m v : Word) : (writeFcsr s m v).seg = s.seg := rfl
@[simp] theorem writeFcsr_sptbr (s : State) (m v : Word) : (writeFcsr s m v).sptbr = s.sptbr := rfl
@[simp] theorem writeFcsr_sasid (s : State) (m v : Word) : (writeFcsr s m v).sasid = s.sasid := rfl
@[simp] theorem writeFcsr_clock (s : State) (m v : Word) : (writeFcsr s m v).clock = s.clock := rfl
@[simp] theorem writeFcsr_extra (s : State) (m v : Word) : (writeFcsr s m v).extra = s.extra := rfl
@[simp] theorem writeFcsr_nmiPending (s : State) (m v : Word) : (writeFcsr s m v).nmiPending = s.nmiPending := rfl
@[simp] theorem writeFcsr_stalled (s : State) (m v : Word) : (writeFcsr s m v).stalled = s.stalled := rfl
@[simp] theorem writeFcsr_tc (s : State) (m v : Word) : (writeFcsr s m v).tc = s.tc := rfl
@[simp] theorem writeFcsr_mem (s : State) (m v : Word) : (writeFcsr s m v).mem = s.mem := rfl
@[simp] theorem writeFcsr_draws (s : State) (m v : Word) : (writeFcsr s m v).draws = s.draws := rfl
@[simp] theorem writeFcsr_fp (s : State) (m v : Word) :
    (writeFcsr s m v).fp = { s.fp with fcsr := maskedWrite s.fp.fcsr m v } := rfl
@[simp] theorem writeFcsr_mstatus (s : State) (m v : Word) :
    (writeFcsr s m v).mstatus = { s.mstatus with fs := 3 } := rfl

/-! ### A write of an added CSR -/

@[simp] theorem writeExtra_cfg (s : State) (k : Nat) (v : Word) : (writeExtra s k v).cfg = s.cfg := by
  unfold writeExtra; split <;> rfl
@[simp] theorem writeExtra_x (s : State) (k : Nat) (v : Word) : (writeExtra s k v).x = s.x := by
  unfold writeExtra; split <;> rfl
@[simp] theorem writeExtra_pc (s : State) (k : Nat) (v : Word) : (writeExtra s k v).pc = s.pc := by
  unfold writeExtra; split <;> rfl
@[simp] theorem writeExtra_fp (s : State) (k : Nat) (v : Word) : (writeExtra s k v).fp = s.fp := by
  unfold writeExtra; split <;> rfl
@[simp] theorem writeExtra_mip (s : State) (k : Nat) (v : Word) : (writeExtra s k v).mip = s.mip := by
  unfold writeExtra; split <;> rfl
@[simp] theorem writeExtra_mie (s : State) (k : Nat) (v : Word) : (writeExtra s k v).mie = s.mie := by
  unfold writeExtra; split <;> rfl
@[simp] theorem writeExtra_mtvec (s : State) (k : Nat) (v : Word) : (writeExtra s k v).mtvec = s.mtvec := by
  unfold writeExtra; split <;> rfl
@[simp] theorem writeExtra_htvec (s : State) (k : Nat) (v : Word) : (writeExtra s k v).htvec = s.htvec := by
  unfold writeExtra; split <;> rfl
@[simp] theorem writeExtra_stvec (s : State) (k : Nat) (v : Word) : (writeExtra s k v).stvec = s.stvec := by
  unfold writeExtra; split <;> rfl
@[simp] theorem writeExtra_mtdeleg (s : State) (k : Nat) (v : Word) : (writeExtra s k v).mtdeleg = s.mtdeleg := by
  unfold writeExtra; split <;> rfl
@[simp] theorem writeExtra_htdeleg (s : State) (k : Nat) (v : Word) : (writeExtra s k v).htdeleg = s.htdeleg := by
  unfold writeExtra; split <;> rfl
@[simp] theorem writeExtra_tm (s : State) (k : Nat) (v : Word) : (writeExtra s k v).tm = s.tm := by
  unfold writeExtra; split <;> rfl
@[simp] theorem writeExtra_th (s : State) (k : Nat) (v : Word) : (writeExtra s k v).th = s.th := by
  unfold writeExtra; split <;> rfl
@[simp] theorem writeExtra_ts (s : State) (k : Nat) (v : Word) : (writeExtra s k v).ts = s.ts := by
  unfold writeExtra; split <;> rfl
@[simp] theorem writeExtra_seg (s : State) (k : Nat) (v : Word) : (writeExtra s k v).seg = s.seg := by
  unfold writeExtra; split <;> rfl
@[simp] theorem writeExtra_sptbr (s : State) (k : Nat) (v : Word) : (writeExtra s k v).sptbr = s.sptbr := by
  unfold writeExtra; split <;> rfl
@[simp] theorem writeExtra_sasid (s : State) (k : Nat) (v : Word) : (writeExtra s k v).sasid = s.sasid := by
  unfold writeExtra; split <;> rfl
@[simp] theorem writeExtra_clock (s : State) (k : Nat) (v : Word) : (writeExtra s k v).clock = s.clock := by
  unfold writeExtra; split <;> rfl
@[simp] theorem writeExtra_nmiPending (s : State) (k : Nat) (v : Word) :
    (writeExtra s k v).nmiPending = s.nmiPending := by
  unfold writeExtra; split <;> rfl
@[simp] theorem writeExtra_stalled (s : State) (k : Nat) (v : Word) : (writeExtra s k v).stalled = s.stalled := by
  unfold writeExtra; split <;> rfl
@[simp] theorem writeExtra_tc (s : State) (k : Nat) (v : Word) : (writeExtra s k v).tc = s.tc := by
  unfold writeExtra; split <;> rfl
@[simp] theorem writeExtra_mem (s : State) (k : Nat) (v : Word) : (writeExtra s k v).mem = s.mem := by
  unfold writeExtra; split <;> rfl
@[simp] theorem writeExtra_draws (s : State) (k : Nat) (v : Word) : (writeExtra s k v).draws = s.draws := by
  unfold writeExtra; split <;> rfl

/-! ### A write of a compare register -/

@[simp] theorem writeTimecmp_cfg (p : Priv) (v : Word) (s : State) : (writeTimecmp p v s).cfg = s.cfg := rfl
@[simp] theorem writeTimecmp_x (p : Priv) (v : Word) (s : State) : (writeTimecmp p v s).x = s.x := rfl
@[simp] theorem writeTimecmp_pc (p : Priv) (v : Word) (s : State) : (writeTimecmp p v s).pc = s.pc := rfl
@[simp] theorem writeTimecmp_fp (p : Priv) (v : Word) (s : State) : (writeTimecmp p v s).fp = s.fp := rfl
@[simp] theorem writeTimecmp_mstatus (p : Priv) (v : Word) (s : State) : (writeTimecmp p v s).mstatus = s.mstatus := rfl
@[simp] theorem writeTimecmp_mie (p : Priv) (v : Word) (s : State) : (writeTimecmp p v s).mie = s.mie := rfl
@[simp] theorem writeTimecmp_mtvec (p : Priv) (v : Word) (s : State) : (writeTimecmp p v s).mtvec = s.mtvec := rfl
@[simp] theorem writeTimecmp_htvec (p : Priv) (v : Word) (s : State) : (writeTimecmp p v s).htvec = s.htvec := rfl
@[simp] theorem writeTimecmp_stvec (p : Priv) (v : Word) (s : State) : (writeTimecmp p v s).stvec = s.stvec := rfl
@[simp] theorem writeTimecmp_mtdeleg (p : Priv) (v : Word) (s : State) : (writeTimecmp p v s).mtdeleg = s.mtdeleg := rfl
@[simp] theorem writeTimecmp_htdeleg (p : Priv) (v : Word) (s : State) : (writeTimecmp p v s).htdeleg = s.htdeleg := rfl
@[simp] theorem writeTimecmp_tm (p : Priv) (v : Word) (s : State) : (writeTimecmp p v s).tm = s.tm := rfl
@[simp] theorem writeTimecmp_th (p : Priv) (v : Word) (s : State) : (writeTimecmp p v s).th = s.th := rfl
@[simp] theorem writeTimecmp_ts (p : Priv) (v : Word) (s : State) : (writeTimecmp p v s).ts = s.ts := rfl
@[simp] theorem writeTimecmp_seg (p : Priv) (v : Word) (s : State) : (writeTimecmp p v s).seg = s.seg := rfl
@[simp] theorem writeTimecmp_sptbr (p : Priv) (v : Word) (s : State) : (writeTimecmp p v s).sptbr = s.sptbr := rfl
@[simp] theorem writeTimecmp_sasid (p : Priv) (v : Word) (s : State) : (writeTimecmp p v s).sasid = s.sasid := rfl
@[simp] theorem writeTimecmp_extra (p : Priv) (v : Word) (s : State) : (writeTimecmp p v s).extra = s.extra := rfl
@[simp] theorem writeTimecmp_nmiPending (p : Priv) (v : Word) (s : State) :
    (writeTimecmp p v s).nmiPending = s.nmiPending := rfl
@[simp] theorem writeTimecmp_stalled (p : Priv) (v : Word) (s : State) : (writeTimecmp p v s).stalled = s.stalled := rfl
@[simp] theorem writeTimecmp_tc (p : Priv) (v : Word) (s : State) : (writeTimecmp p v s).tc = s.tc := rfl
@[simp] theorem writeTimecmp_mem (p : Priv) (v : Word) (s : State) : (writeTimecmp p v s).mem = s.mem := rfl
@[simp] theorem writeTimecmp_draws (p : Priv) (v : Word) (s : State) : (writeTimecmp p v s).draws = s.draws := rfl
@[simp] theorem writeTimecmp_clock (p : Priv) (v : Word) (s : State) :
    (writeTimecmp p v s).clock = s.clock.setTimecmp p (v.setWidth 32) := rfl
@[simp] theorem writeTimecmp_mip (p : Priv) (v : Word) (s : State) :
    (writeTimecmp p v s).mip = s.mip.setTimer p false := rfl

/-! ### A write of a time register -/

@[simp] theorem writeTimeLow_cfg (p : Priv) (v : Word) (s : State) : (writeTimeLow p v s).cfg = s.cfg := rfl
@[simp] theorem writeTimeLow_x (p : Priv) (v : Word) (s : State) : (writeTimeLow p v s).x = s.x := rfl
@[simp] theorem writeTimeLow_pc (p : Priv) (v : Word) (s : State) : (writeTimeLow p v s).pc = s.pc := rfl
@[simp] theorem writeTimeLow_fp (p : Priv) (v : Word) (s : State) : (writeTimeLow p v s).fp = s.fp := rfl
@[simp] theorem writeTimeLow_mstatus (p : Priv) (v : Word) (s : State) : (writeTimeLow p v s).mstatus = s.mstatus := rfl
@[simp] theorem writeTimeLow_mie (p : Priv) (v : Word) (s : State) : (writeTimeLow p v s).mie = s.mie := rfl
@[simp] theorem writeTimeLow_mtvec (p : Priv) (v : Word) (s : State) : (writeTimeLow p v s).mtvec = s.mtvec := rfl
@[simp] theorem writeTimeLow_htvec (p : Priv) (v : Word) (s : State) : (writeTimeLow p v s).htvec = s.htvec := rfl
@[simp] theorem writeTimeLow_stvec (p : Priv) (v : Word) (s : State) : (writeTimeLow p v s).stvec = s.stvec := rfl
@[simp] theorem writeTimeLow_mtdeleg (p : Priv) (v : Word) (s : State) : (writeTimeLow p v s).mtdeleg = s.mtdeleg := rfl
@[simp] theorem writeTimeLow_htdeleg (p : Priv) (v : Word) (s : State) : (writeTimeLow p v s).htdeleg = s.htdeleg := rfl
@[simp] theorem writeTimeLow_tm (p : Priv) (v : Word) (s : State) : (writeTimeLow p v s).tm = s.tm := rfl
@[simp] theorem writeTimeLow_th (p : Priv) (v : Word) (s : State) : (writeTimeLow p v s).th = s.th := rfl
@[simp] theorem writeTimeLow_ts (p : Priv) (v : Word) (s : State) : (writeTimeLow p v s).ts = s.ts := rfl
@[simp] theorem writeTimeLow_seg (p : Priv) (v : Word) (s : State) : (writeTimeLow p v s).seg = s.seg := rfl
@[simp] theorem writeTimeLow_sptbr (p : Priv) (v : Word) (s : State) : (writeTimeLow p v s).sptbr = s.sptbr := rfl
@[simp] theorem writeTimeLow_sasid (p : Priv) (v : Word) (s : State) : (writeTimeLow p v s).sasid = s.sasid := rfl
@[simp] theorem writeTimeLow_extra (p : Priv) (v : Word) (s : State) : (writeTimeLow p v s).extra = s.extra := rfl
@[simp] theorem writeTimeLow_nmiPending (p : Priv) (v : Word) (s : State) :
    (writeTimeLow p v s).nmiPending = s.nmiPending := rfl
@[simp] theorem writeTimeLow_stalled (p : Priv) (v : Word) (s : State) : (writeTimeLow p v s).stalled = s.stalled := rfl
@[simp] theorem writeTimeLow_tc (p : Priv) (v : Word) (s : State) : (writeTimeLow p v s).tc = s.tc := rfl
@[simp] theorem writeTimeLow_mem (p : Priv) (v : Word) (s : State) : (writeTimeLow p v s).mem = s.mem := rfl
@[simp] theorem writeTimeLow_draws (p : Priv) (v : Word) (s : State) : (writeTimeLow p v s).draws = s.draws := rfl
@[simp] theorem writeTimeLow_clock (p : Priv) (v : Word) (s : State) :
    (writeTimeLow p v s).clock = s.clock.setTime p (setCounterLow s.cfg (s.clock.time p) v) := rfl

/-! ### A write of its high half -/

@[simp] theorem writeTimeHigh_cfg (p : Priv) (v : Word) (s : State) : (writeTimeHigh p v s).cfg = s.cfg := rfl
@[simp] theorem writeTimeHigh_x (p : Priv) (v : Word) (s : State) : (writeTimeHigh p v s).x = s.x := rfl
@[simp] theorem writeTimeHigh_pc (p : Priv) (v : Word) (s : State) : (writeTimeHigh p v s).pc = s.pc := rfl
@[simp] theorem writeTimeHigh_fp (p : Priv) (v : Word) (s : State) : (writeTimeHigh p v s).fp = s.fp := rfl
@[simp] theorem writeTimeHigh_mstatus (p : Priv) (v : Word) (s : State) :
    (writeTimeHigh p v s).mstatus = s.mstatus := rfl
@[simp] theorem writeTimeHigh_mip (p : Priv) (v : Word) (s : State) : (writeTimeHigh p v s).mip = s.mip := rfl
@[simp] theorem writeTimeHigh_mie (p : Priv) (v : Word) (s : State) : (writeTimeHigh p v s).mie = s.mie := rfl
@[simp] theorem writeTimeHigh_mtvec (p : Priv) (v : Word) (s : State) : (writeTimeHigh p v s).mtvec = s.mtvec := rfl
@[simp] theorem writeTimeHigh_htvec (p : Priv) (v : Word) (s : State) : (writeTimeHigh p v s).htvec = s.htvec := rfl
@[simp] theorem writeTimeHigh_stvec (p : Priv) (v : Word) (s : State) : (writeTimeHigh p v s).stvec = s.stvec := rfl
@[simp] theorem writeTimeHigh_mtdeleg (p : Priv) (v : Word) (s : State) :
    (writeTimeHigh p v s).mtdeleg = s.mtdeleg := rfl
@[simp] theorem writeTimeHigh_htdeleg (p : Priv) (v : Word) (s : State) :
    (writeTimeHigh p v s).htdeleg = s.htdeleg := rfl
@[simp] theorem writeTimeHigh_tm (p : Priv) (v : Word) (s : State) : (writeTimeHigh p v s).tm = s.tm := rfl
@[simp] theorem writeTimeHigh_th (p : Priv) (v : Word) (s : State) : (writeTimeHigh p v s).th = s.th := rfl
@[simp] theorem writeTimeHigh_ts (p : Priv) (v : Word) (s : State) : (writeTimeHigh p v s).ts = s.ts := rfl
@[simp] theorem writeTimeHigh_seg (p : Priv) (v : Word) (s : State) : (writeTimeHigh p v s).seg = s.seg := rfl
@[simp] theorem writeTimeHigh_sptbr (p : Priv) (v : Word) (s : State) : (writeTimeHigh p v s).sptbr = s.sptbr := rfl
@[simp] theorem writeTimeHigh_sasid (p : Priv) (v : Word) (s : State) : (writeTimeHigh p v s).sasid = s.sasid := rfl
@[simp] theorem writeTimeHigh_extra (p : Priv) (v : Word) (s : State) : (writeTimeHigh p v s).extra = s.extra := rfl
@[simp] theorem writeTimeHigh_nmiPending (p : Priv) (v : Word) (s : State) :
    (writeTimeHigh p v s).nmiPending = s.nmiPending := rfl
@[simp] theorem writeTimeHigh_stalled (p : Priv) (v : Word) (s : State) :
    (writeTimeHigh p v s).stalled = s.stalled := rfl
@[simp] theorem writeTimeHigh_tc (p : Priv) (v : Word) (s : State) : (writeTimeHigh p v s).tc = s.tc := rfl
@[simp] theorem writeTimeHigh_mem (p : Priv) (v : Word) (s : State) : (writeTimeHigh p v s).mem = s.mem := rfl
@[simp] theorem writeTimeHigh_draws (p : Priv) (v : Word) (s : State) : (writeTimeHigh p v s).draws = s.draws := rfl
@[simp] theorem writeTimeHigh_clock (p : Priv) (v : Word) (s : State) :
    (writeTimeHigh p v s).clock = s.clock.setTime p (setCounterHigh (s.clock.time p) v) := rfl

/-! ### The clock -/

@[simp] theorem advanceClock_cfg (n : Nat) (s : State) : (advanceClock n s).cfg = s.cfg := rfl
@[simp] theorem advanceClock_x (n : Nat) (s : State) : (advanceClock n s).x = s.x := rfl
@[simp] theorem advanceClock_pc (n : Nat) (s : State) : (advanceClock n s).pc = s.pc := rfl
@[simp] theorem advanceClock_fp (n : Nat) (s : State) : (advanceClock n s).fp = s.fp := rfl
@[simp] theorem advanceClock_mstatus (n : Nat) (s : State) : (advanceClock n s).mstatus = s.mstatus := rfl
@[simp] theorem advanceClock_mie (n : Nat) (s : State) : (advanceClock n s).mie = s.mie := rfl
@[simp] theorem advanceClock_mtvec (n : Nat) (s : State) : (advanceClock n s).mtvec = s.mtvec := rfl
@[simp] theorem advanceClock_htvec (n : Nat) (s : State) : (advanceClock n s).htvec = s.htvec := rfl
@[simp] theorem advanceClock_stvec (n : Nat) (s : State) : (advanceClock n s).stvec = s.stvec := rfl
@[simp] theorem advanceClock_mtdeleg (n : Nat) (s : State) : (advanceClock n s).mtdeleg = s.mtdeleg := rfl
@[simp] theorem advanceClock_htdeleg (n : Nat) (s : State) : (advanceClock n s).htdeleg = s.htdeleg := rfl
@[simp] theorem advanceClock_tm (n : Nat) (s : State) : (advanceClock n s).tm = s.tm := rfl
@[simp] theorem advanceClock_th (n : Nat) (s : State) : (advanceClock n s).th = s.th := rfl
@[simp] theorem advanceClock_ts (n : Nat) (s : State) : (advanceClock n s).ts = s.ts := rfl
@[simp] theorem advanceClock_seg (n : Nat) (s : State) : (advanceClock n s).seg = s.seg := rfl
@[simp] theorem advanceClock_sptbr (n : Nat) (s : State) : (advanceClock n s).sptbr = s.sptbr := rfl
@[simp] theorem advanceClock_sasid (n : Nat) (s : State) : (advanceClock n s).sasid = s.sasid := rfl
@[simp] theorem advanceClock_extra (n : Nat) (s : State) : (advanceClock n s).extra = s.extra := rfl
@[simp] theorem advanceClock_nmiPending (n : Nat) (s : State) : (advanceClock n s).nmiPending = s.nmiPending := rfl
@[simp] theorem advanceClock_stalled (n : Nat) (s : State) : (advanceClock n s).stalled = s.stalled := rfl
@[simp] theorem advanceClock_tc (n : Nat) (s : State) : (advanceClock n s).tc = s.tc := rfl
@[simp] theorem advanceClock_mem (n : Nat) (s : State) : (advanceClock n s).mem = s.mem := rfl
@[simp] theorem advanceClock_draws (n : Nat) (s : State) : (advanceClock n s).draws = s.draws := rfl

/-! ### Time passes -/

@[simp] theorem passTime_cfg (s : State) : (passTime s).cfg = s.cfg := rfl
@[simp] theorem passTime_x (s : State) : (passTime s).x = s.x := rfl
@[simp] theorem passTime_pc (s : State) : (passTime s).pc = s.pc := rfl
@[simp] theorem passTime_fp (s : State) : (passTime s).fp = s.fp := rfl
@[simp] theorem passTime_mstatus (s : State) : (passTime s).mstatus = s.mstatus := rfl
@[simp] theorem passTime_mie (s : State) : (passTime s).mie = s.mie := rfl
@[simp] theorem passTime_mtvec (s : State) : (passTime s).mtvec = s.mtvec := rfl
@[simp] theorem passTime_htvec (s : State) : (passTime s).htvec = s.htvec := rfl
@[simp] theorem passTime_stvec (s : State) : (passTime s).stvec = s.stvec := rfl
@[simp] theorem passTime_mtdeleg (s : State) : (passTime s).mtdeleg = s.mtdeleg := rfl
@[simp] theorem passTime_htdeleg (s : State) : (passTime s).htdeleg = s.htdeleg := rfl
@[simp] theorem passTime_tm (s : State) : (passTime s).tm = s.tm := rfl
@[simp] theorem passTime_th (s : State) : (passTime s).th = s.th := rfl
@[simp] theorem passTime_ts (s : State) : (passTime s).ts = s.ts := rfl
@[simp] theorem passTime_seg (s : State) : (passTime s).seg = s.seg := rfl
@[simp] theorem passTime_sptbr (s : State) : (passTime s).sptbr = s.sptbr := rfl
@[simp] theorem passTime_sasid (s : State) : (passTime s).sasid = s.sasid := rfl
@[simp] theorem passTime_extra (s : State) : (passTime s).extra = s.extra := rfl
@[simp] theorem passTime_nmiPending (s : State) : (passTime s).nmiPending = s.nmiPending := rfl
@[simp] theorem passTime_stalled (s : State) : (passTime s).stalled = s.stalled := rfl
@[simp] theorem passTime_tc (s : State) : (passTime s).tc = s.tc := rfl
@[simp] theorem passTime_mem (s : State) : (passTime s).mem = s.mem := rfl
@[simp] theorem passTime_draws (s : State) : (passTime s).draws = s.draws := rfl
@[simp] theorem passTime_mip (s : State) : (passTime s).mip = (advanceClock (ticks s) s).mip := rfl

/-! ### The counters -/

@[simp] theorem advanceCycles_cfg (n : Nat) (s : State) : (advanceCycles n s).cfg = s.cfg := rfl
@[simp] theorem advanceCycles_x (n : Nat) (s : State) : (advanceCycles n s).x = s.x := rfl
@[simp] theorem advanceCycles_pc (n : Nat) (s : State) : (advanceCycles n s).pc = s.pc := rfl
@[simp] theorem advanceCycles_fp (n : Nat) (s : State) : (advanceCycles n s).fp = s.fp := rfl
@[simp] theorem advanceCycles_mstatus (n : Nat) (s : State) : (advanceCycles n s).mstatus = s.mstatus := rfl
@[simp] theorem advanceCycles_mip (n : Nat) (s : State) : (advanceCycles n s).mip = s.mip := rfl
@[simp] theorem advanceCycles_mie (n : Nat) (s : State) : (advanceCycles n s).mie = s.mie := rfl
@[simp] theorem advanceCycles_mtvec (n : Nat) (s : State) : (advanceCycles n s).mtvec = s.mtvec := rfl
@[simp] theorem advanceCycles_htvec (n : Nat) (s : State) : (advanceCycles n s).htvec = s.htvec := rfl
@[simp] theorem advanceCycles_stvec (n : Nat) (s : State) : (advanceCycles n s).stvec = s.stvec := rfl
@[simp] theorem advanceCycles_mtdeleg (n : Nat) (s : State) : (advanceCycles n s).mtdeleg = s.mtdeleg := rfl
@[simp] theorem advanceCycles_htdeleg (n : Nat) (s : State) : (advanceCycles n s).htdeleg = s.htdeleg := rfl
@[simp] theorem advanceCycles_tm (n : Nat) (s : State) : (advanceCycles n s).tm = s.tm := rfl
@[simp] theorem advanceCycles_th (n : Nat) (s : State) : (advanceCycles n s).th = s.th := rfl
@[simp] theorem advanceCycles_ts (n : Nat) (s : State) : (advanceCycles n s).ts = s.ts := rfl
@[simp] theorem advanceCycles_seg (n : Nat) (s : State) : (advanceCycles n s).seg = s.seg := rfl
@[simp] theorem advanceCycles_sptbr (n : Nat) (s : State) : (advanceCycles n s).sptbr = s.sptbr := rfl
@[simp] theorem advanceCycles_sasid (n : Nat) (s : State) : (advanceCycles n s).sasid = s.sasid := rfl
@[simp] theorem advanceCycles_extra (n : Nat) (s : State) : (advanceCycles n s).extra = s.extra := rfl
@[simp] theorem advanceCycles_nmiPending (n : Nat) (s : State) : (advanceCycles n s).nmiPending = s.nmiPending := rfl
@[simp] theorem advanceCycles_stalled (n : Nat) (s : State) : (advanceCycles n s).stalled = s.stalled := rfl
@[simp] theorem advanceCycles_tc (n : Nat) (s : State) : (advanceCycles n s).tc = s.tc := rfl
@[simp] theorem advanceCycles_mem (n : Nat) (s : State) : (advanceCycles n s).mem = s.mem := rfl
@[simp] theorem advanceCycles_draws (n : Nat) (s : State) : (advanceCycles n s).draws = s.draws := rfl

/-! ### An instruction counted -/

@[simp] theorem retire_cfg (s : State) : (retire s).cfg = s.cfg := rfl
@[simp] theorem retire_x (s : State) : (retire s).x = s.x := rfl
@[simp] theorem retire_pc (s : State) : (retire s).pc = s.pc := rfl
@[simp] theorem retire_fp (s : State) : (retire s).fp = s.fp := rfl
@[simp] theorem retire_mstatus (s : State) : (retire s).mstatus = s.mstatus := rfl
@[simp] theorem retire_mip (s : State) : (retire s).mip = s.mip := rfl
@[simp] theorem retire_mie (s : State) : (retire s).mie = s.mie := rfl
@[simp] theorem retire_mtvec (s : State) : (retire s).mtvec = s.mtvec := rfl
@[simp] theorem retire_htvec (s : State) : (retire s).htvec = s.htvec := rfl
@[simp] theorem retire_stvec (s : State) : (retire s).stvec = s.stvec := rfl
@[simp] theorem retire_mtdeleg (s : State) : (retire s).mtdeleg = s.mtdeleg := rfl
@[simp] theorem retire_htdeleg (s : State) : (retire s).htdeleg = s.htdeleg := rfl
@[simp] theorem retire_tm (s : State) : (retire s).tm = s.tm := rfl
@[simp] theorem retire_th (s : State) : (retire s).th = s.th := rfl
@[simp] theorem retire_ts (s : State) : (retire s).ts = s.ts := rfl
@[simp] theorem retire_seg (s : State) : (retire s).seg = s.seg := rfl
@[simp] theorem retire_sptbr (s : State) : (retire s).sptbr = s.sptbr := rfl
@[simp] theorem retire_sasid (s : State) : (retire s).sasid = s.sasid := rfl
@[simp] theorem retire_extra (s : State) : (retire s).extra = s.extra := rfl
@[simp] theorem retire_nmiPending (s : State) : (retire s).nmiPending = s.nmiPending := rfl
@[simp] theorem retire_stalled (s : State) : (retire s).stalled = s.stalled := rfl
@[simp] theorem retire_tc (s : State) : (retire s).tc = s.tc := rfl
@[simp] theorem retire_mem (s : State) : (retire s).mem = s.mem := rfl
@[simp] theorem retire_draws (s : State) : (retire s).draws = s.draws := rfl

/-! ### A remote write of MSIP -/

@[simp] theorem remoteMsip_cfg (s : State) : (remoteMsip s).cfg = s.cfg := rfl
@[simp] theorem remoteMsip_x (s : State) : (remoteMsip s).x = s.x := rfl
@[simp] theorem remoteMsip_pc (s : State) : (remoteMsip s).pc = s.pc := rfl
@[simp] theorem remoteMsip_fp (s : State) : (remoteMsip s).fp = s.fp := rfl
@[simp] theorem remoteMsip_mstatus (s : State) : (remoteMsip s).mstatus = s.mstatus := rfl
@[simp] theorem remoteMsip_mie (s : State) : (remoteMsip s).mie = s.mie := rfl
@[simp] theorem remoteMsip_mtvec (s : State) : (remoteMsip s).mtvec = s.mtvec := rfl
@[simp] theorem remoteMsip_htvec (s : State) : (remoteMsip s).htvec = s.htvec := rfl
@[simp] theorem remoteMsip_stvec (s : State) : (remoteMsip s).stvec = s.stvec := rfl
@[simp] theorem remoteMsip_mtdeleg (s : State) : (remoteMsip s).mtdeleg = s.mtdeleg := rfl
@[simp] theorem remoteMsip_htdeleg (s : State) : (remoteMsip s).htdeleg = s.htdeleg := rfl
@[simp] theorem remoteMsip_tm (s : State) : (remoteMsip s).tm = s.tm := rfl
@[simp] theorem remoteMsip_th (s : State) : (remoteMsip s).th = s.th := rfl
@[simp] theorem remoteMsip_ts (s : State) : (remoteMsip s).ts = s.ts := rfl
@[simp] theorem remoteMsip_seg (s : State) : (remoteMsip s).seg = s.seg := rfl
@[simp] theorem remoteMsip_sptbr (s : State) : (remoteMsip s).sptbr = s.sptbr := rfl
@[simp] theorem remoteMsip_sasid (s : State) : (remoteMsip s).sasid = s.sasid := rfl
@[simp] theorem remoteMsip_clock (s : State) : (remoteMsip s).clock = s.clock := rfl
@[simp] theorem remoteMsip_extra (s : State) : (remoteMsip s).extra = s.extra := rfl
@[simp] theorem remoteMsip_nmiPending (s : State) : (remoteMsip s).nmiPending = s.nmiPending := rfl
@[simp] theorem remoteMsip_stalled (s : State) : (remoteMsip s).stalled = s.stalled := rfl
@[simp] theorem remoteMsip_tc (s : State) : (remoteMsip s).tc = s.tc := rfl
@[simp] theorem remoteMsip_mem (s : State) : (remoteMsip s).mem = s.mem := rfl
@[simp] theorem remoteMsip_draws (s : State) : (remoteMsip s).draws = s.draws := rfl

/-! ### Added interrupt sources -/

@[simp] theorem extraSources_cfg (s : State) : (extraSources s).cfg = s.cfg := rfl
@[simp] theorem extraSources_x (s : State) : (extraSources s).x = s.x := rfl
@[simp] theorem extraSources_pc (s : State) : (extraSources s).pc = s.pc := rfl
@[simp] theorem extraSources_fp (s : State) : (extraSources s).fp = s.fp := rfl
@[simp] theorem extraSources_mstatus (s : State) : (extraSources s).mstatus = s.mstatus := rfl
@[simp] theorem extraSources_mie (s : State) : (extraSources s).mie = s.mie := rfl
@[simp] theorem extraSources_mtvec (s : State) : (extraSources s).mtvec = s.mtvec := rfl
@[simp] theorem extraSources_htvec (s : State) : (extraSources s).htvec = s.htvec := rfl
@[simp] theorem extraSources_stvec (s : State) : (extraSources s).stvec = s.stvec := rfl
@[simp] theorem extraSources_mtdeleg (s : State) : (extraSources s).mtdeleg = s.mtdeleg := rfl
@[simp] theorem extraSources_htdeleg (s : State) : (extraSources s).htdeleg = s.htdeleg := rfl
@[simp] theorem extraSources_tm (s : State) : (extraSources s).tm = s.tm := rfl
@[simp] theorem extraSources_th (s : State) : (extraSources s).th = s.th := rfl
@[simp] theorem extraSources_ts (s : State) : (extraSources s).ts = s.ts := rfl
@[simp] theorem extraSources_seg (s : State) : (extraSources s).seg = s.seg := rfl
@[simp] theorem extraSources_sptbr (s : State) : (extraSources s).sptbr = s.sptbr := rfl
@[simp] theorem extraSources_sasid (s : State) : (extraSources s).sasid = s.sasid := rfl
@[simp] theorem extraSources_clock (s : State) : (extraSources s).clock = s.clock := rfl
@[simp] theorem extraSources_extra (s : State) : (extraSources s).extra = s.extra := rfl
@[simp] theorem extraSources_nmiPending (s : State) : (extraSources s).nmiPending = s.nmiPending := rfl
@[simp] theorem extraSources_stalled (s : State) : (extraSources s).stalled = s.stalled := rfl
@[simp] theorem extraSources_tc (s : State) : (extraSources s).tc = s.tc := rfl
@[simp] theorem extraSources_mem (s : State) : (extraSources s).mem = s.mem := rfl
@[simp] theorem extraSources_draws (s : State) : (extraSources s).draws = s.draws := rfl

/-! ### Added CSRs written from outside -/

@[simp] theorem extraCsrWrites_cfg (s : State) : (extraCsrWrites s).cfg = s.cfg := rfl
@[simp] theorem extraCsrWrites_x (s : State) : (extraCsrWrites s).x = s.x := rfl
@[simp] theorem extraCsrWrites_pc (s : State) : (extraCsrWrites s).pc = s.pc := rfl
@[simp] theorem extraCsrWrites_fp (s : State) : (extraCsrWrites s).fp = s.fp := rfl
@[simp] theorem extraCsrWrites_mstatus (s : State) : (extraCsrWrites s).mstatus = s.mstatus := rfl
@[simp] theorem extraCsrWrites_mip (s : State) : (extraCsrWrites s).mip = s.mip := rfl
@[simp] theorem extraCsrWrites_mie (s : State) : (extraCsrWrites s).mie = s.mie := rfl
@[simp] theorem extraCsrWrites_mtvec (s : State) : (extraCsrWrites s).mtvec = s.mtvec := rfl
@[simp] theorem extraCsrWrites_htvec (s : State) : (extraCsrWrites s).htvec = s.htvec := rfl
@[simp] theorem extraCsrWrites_stvec (s : State) : (extraCsrWrites s).stvec = s.stvec := rfl
@[simp] theorem extraCsrWrites_mtdeleg (s : State) : (extraCsrWrites s).mtdeleg = s.mtdeleg := rfl
@[simp] theorem extraCsrWrites_htdeleg (s : State) : (extraCsrWrites s).htdeleg = s.htdeleg := rfl
@[simp] theorem extraCsrWrites_tm (s : State) : (extraCsrWrites s).tm = s.tm := rfl
@[simp] theorem extraCsrWrites_th (s : State) : (extraCsrWrites s).th = s.th := rfl
@[simp] theorem extraCsrWrites_ts (s : State) : (extraCsrWrites s).ts = s.ts := rfl
@[simp] theorem extraCsrWrites_seg (s : State) : (extraCsrWrites s).seg = s.seg := rfl
@[simp] theorem extraCsrWrites_sptbr (s : State) : (extraCsrWrites s).sptbr = s.sptbr := rfl
@[simp] theorem extraCsrWrites_sasid (s : State) : (extraCsrWrites s).sasid = s.sasid := rfl
@[simp] theorem extraCsrWrites_clock (s : State) : (extraCsrWrites s).clock = s.clock := rfl
@[simp] theorem extraCsrWrites_nmiPending (s : State) : (extraCsrWrites s).nmiPending = s.nmiPending := rfl
@[simp] theorem extraCsrWrites_stalled (s : State) : (extraCsrWrites s).stalled = s.stalled := rfl
@[simp] theorem extraCsrWrites_tc (s : State) : (extraCsrWrites s).tc = s.tc := rfl
@[simp] theorem extraCsrWrites_mem (s : State) : (extraCsrWrites s).mem = s.mem := rfl
@[simp] theorem extraCsrWrites_draws (s : State) : (extraCsrWrites s).draws = s.draws := rfl

/-! ### A non-maskable interrupt arrives -/

@[simp] theorem nmiArrival_cfg (s : State) : (nmiArrival s).cfg = s.cfg := rfl
@[simp] theorem nmiArrival_x (s : State) : (nmiArrival s).x = s.x := rfl
@[simp] theorem nmiArrival_pc (s : State) : (nmiArrival s).pc = s.pc := rfl
@[simp] theorem nmiArrival_fp (s : State) : (nmiArrival s).fp = s.fp := rfl
@[simp] theorem nmiArrival_mstatus (s : State) : (nmiArrival s).mstatus = s.mstatus := rfl
@[simp] theorem nmiArrival_mip (s : State) : (nmiArrival s).mip = s.mip := rfl
@[simp] theorem nmiArrival_mie (s : State) : (nmiArrival s).mie = s.mie := rfl
@[simp] theorem nmiArrival_mtvec (s : State) : (nmiArrival s).mtvec = s.mtvec := rfl
@[simp] theorem nmiArrival_htvec (s : State) : (nmiArrival s).htvec = s.htvec := rfl
@[simp] theorem nmiArrival_stvec (s : State) : (nmiArrival s).stvec = s.stvec := rfl
@[simp] theorem nmiArrival_mtdeleg (s : State) : (nmiArrival s).mtdeleg = s.mtdeleg := rfl
@[simp] theorem nmiArrival_htdeleg (s : State) : (nmiArrival s).htdeleg = s.htdeleg := rfl
@[simp] theorem nmiArrival_tm (s : State) : (nmiArrival s).tm = s.tm := rfl
@[simp] theorem nmiArrival_th (s : State) : (nmiArrival s).th = s.th := rfl
@[simp] theorem nmiArrival_ts (s : State) : (nmiArrival s).ts = s.ts := rfl
@[simp] theorem nmiArrival_seg (s : State) : (nmiArrival s).seg = s.seg := rfl
@[simp] theorem nmiArrival_sptbr (s : State) : (nmiArrival s).sptbr = s.sptbr := rfl
@[simp] theorem nmiArrival_sasid (s : State) : (nmiArrival s).sasid = s.sasid := rfl
@[simp] theorem nmiArrival_clock (s : State) : (nmiArrival s).clock = s.clock := rfl
@[simp] theorem nmiArrival_extra (s : State) : (nmiArrival s).extra = s.extra := rfl
@[simp] theorem nmiArrival_stalled (s : State) : (nmiArrival s).stalled = s.stalled := rfl
@[simp] theorem nmiArrival_tc (s : State) : (nmiArrival s).tc = s.tc := rfl
@[simp] theorem nmiArrival_mem (s : State) : (nmiArrival s).mem = s.mem := rfl
@[simp] theorem nmiArrival_draws (s : State) : (nmiArrival s).draws = s.draws := rfl

/-! ### Translations dropped -/

@[simp] theorem dropTranslations_cfg (s : State) : (dropTranslations s).cfg = s.cfg := rfl
@[simp] theorem dropTranslations_x (s : State) : (dropTranslations s).x = s.x := rfl
@[simp] theorem dropTranslations_pc (s : State) : (dropTranslations s).pc = s.pc := rfl
@[simp] theorem dropTranslations_fp (s : State) : (dropTranslations s).fp = s.fp := rfl
@[simp] theorem dropTranslations_mstatus (s : State) : (dropTranslations s).mstatus = s.mstatus := rfl
@[simp] theorem dropTranslations_mip (s : State) : (dropTranslations s).mip = s.mip := rfl
@[simp] theorem dropTranslations_mie (s : State) : (dropTranslations s).mie = s.mie := rfl
@[simp] theorem dropTranslations_mtvec (s : State) : (dropTranslations s).mtvec = s.mtvec := rfl
@[simp] theorem dropTranslations_htvec (s : State) : (dropTranslations s).htvec = s.htvec := rfl
@[simp] theorem dropTranslations_stvec (s : State) : (dropTranslations s).stvec = s.stvec := rfl
@[simp] theorem dropTranslations_mtdeleg (s : State) : (dropTranslations s).mtdeleg = s.mtdeleg := rfl
@[simp] theorem dropTranslations_htdeleg (s : State) : (dropTranslations s).htdeleg = s.htdeleg := rfl
@[simp] theorem dropTranslations_tm (s : State) : (dropTranslations s).tm = s.tm := rfl
@[simp] theorem dropTranslations_th (s : State) : (dropTranslations s).th = s.th := rfl
@[simp] theorem dropTranslations_ts (s : State) : (dropTranslations s).ts = s.ts := rfl
@[simp] theorem dropTranslations_seg (s : State) : (dropTranslations s).seg = s.seg := rfl
@[simp] theorem dropTranslations_sptbr (s : State) : (dropTranslations s).sptbr = s.sptbr := rfl
@[simp] theorem dropTranslations_sasid (s : State) : (dropTranslations s).sasid = s.sasid := rfl
@[simp] theorem dropTranslations_clock (s : State) : (dropTranslations s).clock = s.clock := rfl
@[simp] theorem dropTranslations_extra (s : State) : (dropTranslations s).extra = s.extra := rfl
@[simp] theorem dropTranslations_nmiPending (s : State) : (dropTranslations s).nmiPending = s.nmiPending := rfl
@[simp] theorem dropTranslations_stalled (s : State) : (dropTranslations s).stalled = s.stalled := rfl
@[simp] theorem dropTranslations_mem (s : State) : (dropTranslations s).mem = s.mem := rfl
@[simp] theorem dropTranslations_draws (s : State) : (dropTranslations s).draws = s.draws := rfl

/-! ### The outside -/

@[simp] theorem environment_cfg (s : State) : (environment s).cfg = s.cfg := by
  simp only [environment, dropTranslations, nmiArrival, extraCsrWrites, extraSources, remoteMsip, advanceCycles, passTime,
    advanceClock]
@[simp] theorem environment_x (s : State) : (environment s).x = s.x := by
  simp only [environment, dropTranslations, nmiArrival, extraCsrWrites, extraSources, remoteMsip, advanceCycles, passTime,
    advanceClock]
@[simp] theorem environment_pc (s : State) : (environment s).pc = s.pc := by
  simp only [environment, dropTranslations, nmiArrival, extraCsrWrites, extraSources, remoteMsip, advanceCycles, passTime,
    advanceClock]
@[simp] theorem environment_fp (s : State) : (environment s).fp = s.fp := by
  simp only [environment, dropTranslations, nmiArrival, extraCsrWrites, extraSources, remoteMsip, advanceCycles, passTime,
    advanceClock]
@[simp] theorem environment_mstatus (s : State) : (environment s).mstatus = s.mstatus := by
  simp only [environment, dropTranslations, nmiArrival, extraCsrWrites, extraSources, remoteMsip, advanceCycles, passTime,
    advanceClock]
@[simp] theorem environment_mie (s : State) : (environment s).mie = s.mie := by
  simp only [environment, dropTranslations, nmiArrival, extraCsrWrites, extraSources, remoteMsip, advanceCycles, passTime,
    advanceClock]
@[simp] theorem environment_mtvec (s : State) : (environment s).mtvec = s.mtvec := by
  simp only [environment, dropTranslations, nmiArrival, extraCsrWrites, extraSources, remoteMsip, advanceCycles, passTime,
    advanceClock]
@[simp] theorem environment_htvec (s : State) : (environment s).htvec = s.htvec := by
  simp only [environment, dropTranslations, nmiArrival, extraCsrWrites, extraSources, remoteMsip, advanceCycles, passTime,
    advanceClock]
@[simp] theorem environment_stvec (s : State) : (environment s).stvec = s.stvec := by
  simp only [environment, dropTranslations, nmiArrival, extraCsrWrites, extraSources, remoteMsip, advanceCycles, passTime,
    advanceClock]
@[simp] theorem environment_mtdeleg (s : State) : (environment s).mtdeleg = s.mtdeleg := by
  simp only [environment, dropTranslations, nmiArrival, extraCsrWrites, extraSources, remoteMsip, advanceCycles, passTime,
    advanceClock]
@[simp] theorem environment_htdeleg (s : State) : (environment s).htdeleg = s.htdeleg := by
  simp only [environment, dropTranslations, nmiArrival, extraCsrWrites, extraSources, remoteMsip, advanceCycles, passTime,
    advanceClock]
@[simp] theorem environment_tm (s : State) : (environment s).tm = s.tm := by
  simp only [environment, dropTranslations, nmiArrival, extraCsrWrites, extraSources, remoteMsip, advanceCycles, passTime,
    advanceClock]
@[simp] theorem environment_th (s : State) : (environment s).th = s.th := by
  simp only [environment, dropTranslations, nmiArrival, extraCsrWrites, extraSources, remoteMsip, advanceCycles, passTime,
    advanceClock]
@[simp] theorem environment_ts (s : State) : (environment s).ts = s.ts := by
  simp only [environment, dropTranslations, nmiArrival, extraCsrWrites, extraSources, remoteMsip, advanceCycles, passTime,
    advanceClock]
@[simp] theorem environment_seg (s : State) : (environment s).seg = s.seg := by
  simp only [environment, dropTranslations, nmiArrival, extraCsrWrites, extraSources, remoteMsip, advanceCycles, passTime,
    advanceClock]
@[simp] theorem environment_sptbr (s : State) : (environment s).sptbr = s.sptbr := by
  simp only [environment, dropTranslations, nmiArrival, extraCsrWrites, extraSources, remoteMsip, advanceCycles, passTime,
    advanceClock]
@[simp] theorem environment_sasid (s : State) : (environment s).sasid = s.sasid := by
  simp only [environment, dropTranslations, nmiArrival, extraCsrWrites, extraSources, remoteMsip, advanceCycles, passTime,
    advanceClock]
@[simp] theorem environment_stalled (s : State) : (environment s).stalled = s.stalled := by
  simp only [environment, dropTranslations, nmiArrival, extraCsrWrites, extraSources, remoteMsip, advanceCycles, passTime,
    advanceClock]
@[simp] theorem environment_mem (s : State) : (environment s).mem = s.mem := by
  simp only [environment, dropTranslations, nmiArrival, extraCsrWrites, extraSources, remoteMsip, advanceCycles, passTime,
    advanceClock]
@[simp] theorem environment_draws (s : State) : (environment s).draws = s.draws + 1 := by
  simp [environment]
theorem environment_extra (s : State) :
    (environment s).extra = updatedExtras s.cfg s.draws 0 s.cfg.extraCsrs s.extra := by
  simp only [environment, dropTranslations, nmiArrival, extraCsrWrites, extraSources, remoteMsip, advanceCycles, passTime,
    advanceClock]
theorem environment_mip (s : State) :
    (environment s).mip =
      { (advanceClock (ticks s) s).mip with
        msi := if s.cfg.remoteMsip then (Config.remoteMsipWrite s.draws).getD s.mip.msi else s.mip.msi
        extra := maskedWrite s.mip.extra s.cfg.extraIntBits (Config.extraPending s.draws) } := by
  simp only [environment, dropTranslations, nmiArrival, extraCsrWrites, extraSources, remoteMsip, advanceCycles, passTime,
    advanceClock]
  rfl
theorem environment_clock (s : State) :
    (environment s).clock =
      { (advanceClock (ticks s) s).clock with
        hold := if s.clock.hold = 0 then Config.rtcHold s.draws else s.clock.hold - 1
        cycle := s.clock.cycle + BitVec.ofNat 64 (Config.cycleAdvance s.draws) } := by
  simp only [environment, dropTranslations, nmiArrival, extraCsrWrites, extraSources, remoteMsip, advanceCycles, passTime,
    advanceClock]
theorem environment_tc (s : State) : (environment s).tc = keptEntries s.draws 0 s.tc := by
  simp only [environment, dropTranslations, nmiArrival, extraCsrWrites, extraSources, remoteMsip, advanceCycles, passTime,
    advanceClock]
theorem environment_nmiPending (s : State) :
    (environment s).nmiPending = (s.nmiPending || (s.cfg.hasNmi && Config.nmiArrives s.draws)) := by
  simp only [environment, dropTranslations, nmiArrival, extraCsrWrites, extraSources, remoteMsip, advanceCycles, passTime,
    advanceClock]

/-! ### A stalled step -/

@[simp] theorem idleStep_cfg (s : State) : (idleStep s).cfg = s.cfg := rfl
@[simp] theorem idleStep_x (s : State) : (idleStep s).x = s.x := rfl
@[simp] theorem idleStep_pc (s : State) : (idleStep s).pc = s.pc := rfl
@[simp] theorem idleStep_fp (s : State) : (idleStep s).fp = s.fp := rfl
@[simp] theorem idleStep_mstatus (s : State) : (idleStep s).mstatus = s.mstatus := rfl
@[simp] theorem idleStep_mip (s : State) : (idleStep s).mip = s.mip := rfl
@[simp] theorem idleStep_mie (s : State) : (idleStep s).mie = s.mie := rfl
@[simp] theorem idleStep_mtvec (s : State) : (idleStep s).mtvec = s.mtvec := rfl
@[simp] theorem idleStep_htvec (s : State) : (idleStep s).htvec = s.htvec := rfl
@[simp] theorem idleStep_stvec (s : State) : (idleStep s).stvec = s.stvec := rfl
@[simp] theorem idleStep_mtdeleg (s : State) : (idleStep s).mtdeleg = s.mtdeleg := rfl
@[simp] theorem idleStep_htdeleg (s : State) : (idleStep s).htdeleg = s.htdeleg := rfl
@[simp] theorem idleStep_tm (s : State) : (idleStep s).tm = s.tm := rfl
@[simp] theorem idleStep_th (s : State) : (idleStep s).th = s.th := rfl
@[simp] theorem idleStep_ts (s : State) : (idleStep s).ts = s.ts := rfl
@[simp] theorem idleStep_seg (s : State) : (idleStep s).seg = s.seg := rfl
@[simp] theorem idleStep_sptbr (s : State) : (idleStep s).sptbr = s.sptbr := rfl
@[simp] theorem idleStep_sasid (s : State) : (idleStep s).sasid = s.sasid := rfl
@[simp] theorem idleStep_clock (s : State) : (idleStep s).clock = s.clock := rfl
@[simp] theorem idleStep_extra (s : State) : (idleStep s).extra = s.extra := rfl
@[simp] theorem idleStep_nmiPending (s : State) : (idleStep s).nmiPending = s.nmiPending := rfl
@[simp] theorem idleStep_tc (s : State) : (idleStep s).tc = s.tc := rfl
@[simp] theorem idleStep_mem (s : State) : (idleStep s).mem = s.mem := rfl

/-! ### R and D bits -/

@[simp] theorem setUsedBits_cfg (e : TcEntry) (b : Word) (s : State) : (setUsedBits e b s).cfg = s.cfg := rfl
@[simp] theorem setUsedBits_x (e : TcEntry) (b : Word) (s : State) : (setUsedBits e b s).x = s.x := rfl
@[simp] theorem setUsedBits_pc (e : TcEntry) (b : Word) (s : State) : (setUsedBits e b s).pc = s.pc := rfl
@[simp] theorem setUsedBits_fp (e : TcEntry) (b : Word) (s : State) : (setUsedBits e b s).fp = s.fp := rfl
@[simp] theorem setUsedBits_mstatus (e : TcEntry) (b : Word) (s : State) :
    (setUsedBits e b s).mstatus = s.mstatus := rfl
@[simp] theorem setUsedBits_mip (e : TcEntry) (b : Word) (s : State) : (setUsedBits e b s).mip = s.mip := rfl
@[simp] theorem setUsedBits_mie (e : TcEntry) (b : Word) (s : State) : (setUsedBits e b s).mie = s.mie := rfl
@[simp] theorem setUsedBits_mtvec (e : TcEntry) (b : Word) (s : State) : (setUsedBits e b s).mtvec = s.mtvec := rfl
@[simp] theorem setUsedBits_htvec (e : TcEntry) (b : Word) (s : State) : (setUsedBits e b s).htvec = s.htvec := rfl
@[simp] theorem setUsedBits_stvec (e : TcEntry) (b : Word) (s : State) : (setUsedBits e b s).stvec = s.stvec := rfl
@[simp] theorem setUsedBits_mtdeleg (e : TcEntry) (b : Word) (s : State) :
    (setUsedBits e b s).mtdeleg = s.mtdeleg := rfl
@[simp] theorem setUsedBits_htdeleg (e : TcEntry) (b : Word) (s : State) :
    (setUsedBits e b s).htdeleg = s.htdeleg := rfl
@[simp] theorem setUsedBits_tm (e : TcEntry) (b : Word) (s : State) : (setUsedBits e b s).tm = s.tm := rfl
@[simp] theorem setUsedBits_th (e : TcEntry) (b : Word) (s : State) : (setUsedBits e b s).th = s.th := rfl
@[simp] theorem setUsedBits_ts (e : TcEntry) (b : Word) (s : State) : (setUsedBits e b s).ts = s.ts := rfl
@[simp] theorem setUsedBits_seg (e : TcEntry) (b : Word) (s : State) : (setUsedBits e b s).seg = s.seg := rfl
@[simp] theorem setUsedBits_sptbr (e : TcEntry) (b : Word) (s : State) : (setUsedBits e b s).sptbr = s.sptbr := rfl
@[simp] theorem setUsedBits_sasid (e : TcEntry) (b : Word) (s : State) : (setUsedBits e b s).sasid = s.sasid := rfl
@[simp] theorem setUsedBits_clock (e : TcEntry) (b : Word) (s : State) : (setUsedBits e b s).clock = s.clock := rfl
@[simp] theorem setUsedBits_extra (e : TcEntry) (b : Word) (s : State) : (setUsedBits e b s).extra = s.extra := rfl
@[simp] theorem setUsedBits_nmiPending (e : TcEntry) (b : Word) (s : State) :
    (setUsedBits e b s).nmiPending = s.nmiPending := rfl
@[simp] theorem setUsedBits_stalled (e : TcEntry) (b : Word) (s : State) :
    (setUsedBits e b s).stalled = s.stalled := rfl
@[simp] theorem setUsedBits_draws (e : TcEntry) (b : Word) (s : State) : (setUsedBits e b s).draws = s.draws := rfl

/-! ### An entry cached -/

@[simp] theorem mayCache_cfg (e : TcEntry) (s : State) : (mayCache e s).cfg = s.cfg := rfl
@[simp] theorem mayCache_x (e : TcEntry) (s : State) : (mayCache e s).x = s.x := rfl
@[simp] theorem mayCache_pc (e : TcEntry) (s : State) : (mayCache e s).pc = s.pc := rfl
@[simp] theorem mayCache_fp (e : TcEntry) (s : State) : (mayCache e s).fp = s.fp := rfl
@[simp] theorem mayCache_mstatus (e : TcEntry) (s : State) : (mayCache e s).mstatus = s.mstatus := rfl
@[simp] theorem mayCache_mip (e : TcEntry) (s : State) : (mayCache e s).mip = s.mip := rfl
@[simp] theorem mayCache_mie (e : TcEntry) (s : State) : (mayCache e s).mie = s.mie := rfl
@[simp] theorem mayCache_mtvec (e : TcEntry) (s : State) : (mayCache e s).mtvec = s.mtvec := rfl
@[simp] theorem mayCache_htvec (e : TcEntry) (s : State) : (mayCache e s).htvec = s.htvec := rfl
@[simp] theorem mayCache_stvec (e : TcEntry) (s : State) : (mayCache e s).stvec = s.stvec := rfl
@[simp] theorem mayCache_mtdeleg (e : TcEntry) (s : State) : (mayCache e s).mtdeleg = s.mtdeleg := rfl
@[simp] theorem mayCache_htdeleg (e : TcEntry) (s : State) : (mayCache e s).htdeleg = s.htdeleg := rfl
@[simp] theorem mayCache_tm (e : TcEntry) (s : State) : (mayCache e s).tm = s.tm := rfl
@[simp] theorem mayCache_th (e : TcEntry) (s : State) : (mayCache e s).th = s.th := rfl
@[simp] theorem mayCache_ts (e : TcEntry) (s : State) : (mayCache e s).ts = s.ts := rfl
@[simp] theorem mayCache_seg (e : TcEntry) (s : State) : (mayCache e s).seg = s.seg := rfl
@[simp] theorem mayCache_sptbr (e : TcEntry) (s : State) : (mayCache e s).sptbr = s.sptbr := rfl
@[simp] theorem mayCache_sasid (e : TcEntry) (s : State) : (mayCache e s).sasid = s.sasid := rfl
@[simp] theorem mayCache_clock (e : TcEntry) (s : State) : (mayCache e s).clock = s.clock := rfl
@[simp] theorem mayCache_extra (e : TcEntry) (s : State) : (mayCache e s).extra = s.extra := rfl
@[simp] theorem mayCache_nmiPending (e : TcEntry) (s : State) : (mayCache e s).nmiPending = s.nmiPending := rfl
@[simp] theorem mayCache_stalled (e : TcEntry) (s : State) : (mayCache e s).stalled = s.stalled := rfl
@[simp] theorem mayCache_mem (e : TcEntry) (s : State) : (mayCache e s).mem = s.mem := rfl
@[simp] theorem mayCache_draws (e : TcEntry) (s : State) : (mayCache e s).draws = s.draws := rfl

end Sys2Proof.Machine
end

