-- ==== Sys2Proof/Laws/Ops.lean ====
section
/-!
SUPPORT. One lemma per shared operation, saying once what it can do: the CSR table and access check, a write of `mstatus`,
the CSR instructions' six steps, the privilege stack, ERET.
-/

namespace Sys2Proof.Machine

/-! ### The CSR table and the access check -/

theorem findCsr_some {c : Config} {a : CsrAddr} {r : Csr} {l : List (CsrAddr × Csr × CsrNeed)}
    (h : findCsr c a l = some r) : ∃ need, (a, r, need) ∈ l ∧ need.met c = true := by
  induction l with
  | nil => cases h
  | cons row rest ih =>
    obtain ⟨b, q, need⟩ := row
    simp only [findCsr] at h
    split at h
    · rename_i hc
      simp only [Bool.and_eq_true, decide_eq_true_eq] at hc
      obtain rfl := hc.1
      cases h
      exact ⟨need, List.mem_cons_self, hc.2⟩
    · obtain ⟨n, hn, hm⟩ := ih h
      exact ⟨n, List.mem_cons_of_mem _ hn, hm⟩

/-- An added register found from place `k` on is the first entry that answers to the address. -/
theorem findExtra_some {a : CsrAddr} {l : List ExtraCsr} {k : Nat} {r : Csr} (h : findExtra a k l = some r) :
    ∃ j e, r = .extra (k + j) ∧ l[j]? = some e ∧ a ∈ e.addrs
      ∧ ∀ i < j, ∀ d, l[i]? = some d → a ∉ d.addrs := by
  induction l generalizing k with
  | nil => cases h
  | cons e rest ih =>
    simp only [findExtra] at h
    split at h
    · rename_i hc
      cases h
      exact ⟨0, e, rfl, rfl, List.contains_iff_mem.1 hc, fun i hi => absurd hi (Nat.not_lt_zero i)⟩
    · rename_i hc
      obtain ⟨j, d, hr, hj, ha, hb⟩ := ih h
      refine ⟨j + 1, d, by rw [hr]; congr 1; omega, hj, ha, fun i hi f hf => ?_⟩
      cases i with
      | zero =>
        cases hf
        exact fun hm => hc (List.contains_iff_mem.2 hm)
      | succ i => exact hb i (by omega) f hf

/-- A register that exists stands in the table under its address and the configuration meets its need, or it is an
added one at a non-standard address. -/
theorem csrAt_some {c : Config} {a : CsrAddr} {r : Csr} (h : csrAt c a = some r) :
    (∃ need, (a, r, need) ∈ userCsrs ++ supervisorCsrs ++ hypervisorCsrs ++ machineCsrs ∧ need.met c = true)
      ∨ (csrNonStandard a = true ∧ ∃ k e, r = .extra k ∧ c.extraCsrs[k]? = some e ∧ a ∈ e.addrs) := by
  unfold csrAt at h
  split at h
  · rename_i q hq
    cases h
    exact .inl (findCsr_some hq)
  · split at h
    · rename_i hn
      obtain ⟨k, e, hr, hk, ha, -⟩ := findExtra_some h
      exact .inr ⟨hn, k, e, by rw [hr, Nat.zero_add], hk, ha⟩
    · cases h

/-- The access check passes exactly when each of its conditions does. -/
theorem csrAccess_some {s : State} {a : CsrAddr} {w : Bool} {r : Csr} : csrAccess s a w = some r ↔
    (csrAt s.cfg a = some r ∧ csrLevel a ≤ s.priv.level ∧ (w = true → csrReadOnly a = false)
      ∧ csrUnitOff s r = false) := by
  unfold csrAccess
  cases h : csrAt s.cfg a with
  | none => simp
  | some q =>
    simp only [Option.some.injEq]
    constructor
    · intro h1
      split at h1
      · rename_i h2
        simp only [Bool.and_eq_true, decide_eq_true_eq, Bool.not_eq_true', Bool.and_eq_false_iff] at h2
        obtain ⟨⟨h2, h3⟩, h4⟩ := h2
        cases h1
        refine ⟨rfl, h2, fun hw => ?_, h4⟩
        rcases h3 with h3 | h3
        · rw [hw] at h3; cases h3
        · exact h3
      · cases h1
    · rintro ⟨rfl, h2, h3, h4⟩
      rw [if_pos]
      simp only [Bool.and_eq_true, decide_eq_true_eq, Bool.not_eq_true', Bool.and_eq_false_iff]
      refine ⟨⟨h2, ?_⟩, h4⟩
      cases w
      · exact .inl rfl
      · exact .inr (h3 rfl)

/-- A unit is Off for a register exactly where the register is its state and its status field is 0. -/
theorem csrUnitOff_false {s : State} {r : Csr} : csrUnitOff s r = false ↔
    ((r.isFp = true → s.mstatus.fs ≠ 0) ∧ (r.isX s.cfg = true → s.mstatus.xs ≠ 0)) := by
  unfold csrUnitOff
  cases r.isFp <;> cases r.isX s.cfg <;> simp

/-! ### CSR writes and instructions -/

/-- A write of `mstatus` that completes: the fields of the word with the hard-wired ones at their values, all supported. -/
theorem writeMstatus_ok {s t : State} {v : Word} : writeMstatus s v = .ok t ↔
    (t = { s with mstatus := Mstatus.hardwireUnits s.cfg (Mstatus.hardwireStack s.cfg (mstatusOfWord v)) }
      ∧ s.cfg.vmSupported (mstatusOfWord v).vm = true
      ∧ Mstatus.modesOk s.cfg (Mstatus.hardwireUnits s.cfg (Mstatus.hardwireStack s.cfg (mstatusOfWord v))) = true) := by
  have hvm : (Mstatus.hardwireUnits s.cfg (Mstatus.hardwireStack s.cfg (mstatusOfWord v))).vm = (mstatusOfWord v).vm := rfl
  unfold writeMstatus
  simp only [hvm]
  constructor
  · intro h
    split at h
    · cases h
    · rename_i h1
      split at h
      · cases h
      · rename_i h2
        cases h
        refine ⟨rfl, ?_, ?_⟩
        · simpa using h1
        · simpa using h2
  · rintro ⟨rfl, h1, h2⟩
    simp [h1, h2]

/-- What a CSR instruction answers as a next state: illegal instruction where the access check refuses, else the write it
makes, if it makes one, then `rd` and `pc`. -/
theorem csrInstr_next {rd : Reg} {a : CsrAddr} {w : Bool} {new : Word → Word} {s t : State}
    (h : csrInstr rd a w new s = .next t) :
    (csrAccess s a w = none ∧ t = raiseException 2 none s)
      ∨ ∃ r, csrAccess s a w = some r
        ∧ ((w = false ∧ t = (s.writeReg rd (csrRead s r)).advance)
          ∨ (w = true ∧ ∃ s1, csrWrite s r (s.cfg.trunc (new (csrRead s r))) = .ok s1
            ∧ t = (s1.writeReg rd (csrRead s r)).advance)) := by
  unfold csrInstr at h
  split at h
  · rename_i hn
    cases h
    exact .inl ⟨hn, rfl⟩
  · rename_i r hr
    refine .inr ⟨r, hr, ?_⟩
    split at h
    · rename_i hw
      refine .inr ⟨hw, ?_⟩
      split at h
      · cases h
      · rename_i s1 hs1
        cases h
        exact ⟨s1, hs1, rfl⟩
    · rename_i hw
      cases h
      exact .inl ⟨by simpa using hw, rfl⟩

/-- Every CSR instruction is the common operation at its operands (40_csr_instructions.md R350). -/
theorem exec_csrUse {i : Instr} {s : State} {rd : Reg} {a : CsrAddr} {w : Bool}
    (h : csrUse s.cfg i = some (rd, a, w)) : exec i s = csrInstr rd a w (fun old => csrNew s old i) s := by
  cases i <;> simp only [csrUse, Option.some.injEq, Prod.mk.injEq, reduceCtorEq] at h
  all_goals
    obtain ⟨rfl, rfl, rfl⟩ := h
    simp only [exec, execCsrrw, execCsrrs, execCsrrc, execCsrrwi, execCsrrsi, execCsrrci, csrNew, newSwap, newSet,
      newClear, zimmValue]
  all_goals
    rename_i r
    have : decide (r ≠ 0) = decide (r.val ≠ 0) := decide_eq_decide.2 (not_congr Fin.ext_iff)
    rw [this]

/-! ### ERET -/

/-- What ERET answers as a next state. -/
theorem execEret_next {s t : State} (h : execEret s = .next t) :
    (s.priv = .u ∧ t = raiseException 2 none s)
      ∨ (s.priv ≠ .u ∧ s.cfg.has (Mstatus.pop s.cfg s.mstatus).e0.prv = true
        ∧ t = trapReturn (s.trapRegs s.priv).epc s) := by
  unfold execEret at h
  split at h
  · rename_i hp
    cases h
    exact .inl ⟨hp, rfl⟩
  · rename_i hp
    split at h
    · cases h
    · rename_i hm
      split at h
      · cases h
      · cases h
        exact .inr ⟨hp, by simpa using hm, rfl⟩

/-! ### The target of a trap -/

/-- A configuration with H has S. -/
theorem has_s_of_has_h {c : Config} (h : c.has .h = true) : c.has .s = true := by
  cases hm : c.modes <;> simp [Config.has, hm] at h ⊢

@[simp] theorem has_m (c : Config) : c.has .m = true := by simp [Config.has]

/-- A trap is never handled in U. -/
theorem trapTarget_ne_u (s : State) (b : Nat) : trapTarget s b ≠ .u := by
  unfold trapTarget
  split
  · simp
  · split
    · split
      · simp
      · split
        · simp
        · split <;> simp
    · split
      · split <;> simp
      · simp

end Sys2Proof.Machine
end

