-- ==== Sys2Proof/Laws/PerInstr.lean ====
section
/-!
SUPPORT. Statements made per instruction: the word of an instruction carries the bits its row of the opcode table fixes
(30_encoding.md R324).
-/

namespace Sys2Proof.Laws

/-- The fixed bits of the instruction's row stand in its word. -/
def Encoding.Statement (i : Instr) : Prop :=
  encode i &&& i.row.2 = i.row.1

theorem Encoding.csrrw (rd : Reg) (csr : CsrAddr) (rs1 : Reg) : Encoding.Statement (.csrrw rd csr rs1) := by
  simp only [Encoding.Statement, encode, iType, placeAt, Instr.row, opcodeSystem]
  generalize BitVec.ofFin (w := 5) rd = d
  generalize BitVec.ofFin (w := 5) rs1 = r
  ext k hk
  simp
  interval_cases k <;> simp

theorem Encoding.csrrs (rd : Reg) (csr : CsrAddr) (rs1 : Reg) : Encoding.Statement (.csrrs rd csr rs1) := by
  simp only [Encoding.Statement, encode, iType, placeAt, Instr.row, opcodeSystem]
  generalize BitVec.ofFin (w := 5) rd = d
  generalize BitVec.ofFin (w := 5) rs1 = r
  ext k hk
  simp
  interval_cases k <;> simp

theorem Encoding.csrrc (rd : Reg) (csr : CsrAddr) (rs1 : Reg) : Encoding.Statement (.csrrc rd csr rs1) := by
  simp only [Encoding.Statement, encode, iType, placeAt, Instr.row, opcodeSystem]
  generalize BitVec.ofFin (w := 5) rd = d
  generalize BitVec.ofFin (w := 5) rs1 = r
  ext k hk
  simp
  interval_cases k <;> simp

theorem Encoding.csrrwi (rd : Reg) (csr : CsrAddr) (zimm : BitVec 5) : Encoding.Statement (.csrrwi rd csr zimm) := by
  simp only [Encoding.Statement, encode, iType, placeAt, Instr.row, opcodeSystem]
  generalize BitVec.ofFin (w := 5) rd = d
  ext k hk
  simp
  interval_cases k <;> simp

theorem Encoding.csrrsi (rd : Reg) (csr : CsrAddr) (zimm : BitVec 5) : Encoding.Statement (.csrrsi rd csr zimm) := by
  simp only [Encoding.Statement, encode, iType, placeAt, Instr.row, opcodeSystem]
  generalize BitVec.ofFin (w := 5) rd = d
  ext k hk
  simp
  interval_cases k <;> simp

theorem Encoding.csrrci (rd : Reg) (csr : CsrAddr) (zimm : BitVec 5) : Encoding.Statement (.csrrci rd csr zimm) := by
  simp only [Encoding.Statement, encode, iType, placeAt, Instr.row, opcodeSystem]
  generalize BitVec.ofFin (w := 5) rd = d
  ext k hk
  simp
  interval_cases k <;> simp

theorem Encoding.ecall : Encoding.Statement .ecall := by
  unfold Encoding.Statement; decide

theorem Encoding.ebreak : Encoding.Statement .ebreak := by
  unfold Encoding.Statement; decide

theorem Encoding.eret : Encoding.Statement .eret := by
  unfold Encoding.Statement; decide

theorem Encoding.mrts : Encoding.Statement .mrts := by
  unfold Encoding.Statement; decide

theorem Encoding.mrth : Encoding.Statement .mrth := by
  unfold Encoding.Statement; decide

theorem Encoding.hrts : Encoding.Statement .hrts := by
  unfold Encoding.Statement; decide

theorem Encoding.wfi : Encoding.Statement .wfi := by
  unfold Encoding.Statement; decide

theorem Encoding.sfenceVm (rs1 : Reg) : Encoding.Statement (.sfenceVm rs1) := by
  simp only [Encoding.Statement, encode, iType, placeAt, Instr.row, opcodeSystem]
  generalize BitVec.ofFin (w := 5) rs1 = r
  ext k hk
  simp
  interval_cases k <;> simp

end Sys2Proof.Laws
end

