-- ==== Sys2Proof/Laws/Status.lean ====
section
/-!
SUPPORT. `mstatus` as a word and as fields: each bit of the word, and the two directions of reading one from the other.
-/

namespace Sys2Proof.Machine

/-! ### Bits -/

theorem flagAt_getLsbD (b : Bool) (n k : Nat) :
    (flagAt b n).getLsbD k = (decide (k < 64) && decide (k = n) && b) := by
  unfold flagAt
  rw [BitVec.getLsbD_shiftLeft, BitVec.getLsbD_setWidth, BitVec.getLsbD_ofBool]
  by_cases h : k = n
  · subst h; by_cases h2 : k < 64 <;> simp [h2]
  · by_cases h2 : k < n
    · simp [h2, h]
    · have : ¬ (k - n = 0) := by omega
      simp [this, h]

theorem prv_bits_ofBits (b : BitVec 2) : (Priv.ofBits b).bits = b := by revert b; decide

@[simp] theorem ofBits_bits (p : Priv) : Priv.ofBits p.bits = p := by cases p <;> decide

theorem entry_getLsbD (e : StackEntry) (k : Nat) :
    e.bits.getLsbD k = ((decide (k = 0) && e.ie) || (decide (k = 1) && e.prv.bits.getLsbD 0)
      || (decide (k = 2) && e.prv.bits.getLsbD 1)) := by
  unfold StackEntry.bits
  rw [BitVec.getLsbD_or, flagAt_getLsbD, BitVec.getLsbD_shiftLeft, BitVec.getLsbD_setWidth]
  match k with
  | 0 => simp
  | 1 => simp
  | 2 => simp
  | k + 3 => 
    have : e.prv.bits.getLsbD (k + 3 - 1) = false := BitVec.getLsbD_of_ge _ _ (by omega)
    simp

/-- Every bit of `mstatus` below SD, by field (11_state_machine_csrs.md R100). -/
theorem fields_getLsbD (m : Mstatus) (k : Nat) : m.fields.getLsbD k =
    (decide (k < 64) &&
      ((decide (17 ≤ k) && m.vm.getLsbD (k - 17)) || (decide (k = 16) && m.mprv)
        || (decide (14 ≤ k) && m.xs.getLsbD (k - 14)) || (decide (12 ≤ k) && m.fs.getLsbD (k - 12))
        || (decide (9 ≤ k) && m.e3.bits.getLsbD (k - 9)) || (decide (6 ≤ k) && m.e2.bits.getLsbD (k - 6))
        || (decide (3 ≤ k) && m.e1.bits.getLsbD (k - 3)) || m.e0.bits.getLsbD k)) := by
  by_cases h : k < 64
  · simp only [Mstatus.fields, BitVec.getLsbD_or, BitVec.getLsbD_shiftLeft, BitVec.getLsbD_setWidth, flagAt_getLsbD, h,
      decide_true, Bool.true_and]
    have h1 : ∀ a, k - a < 64 := by omega
    have h2 : ∀ a, (!decide (k < a)) = decide (a ≤ k) := by
      intro a; by_cases h : k < a <;> simp [h]; omega
    simp [h1, h2]
  · rw [BitVec.getLsbD_of_ge _ _ (by omega)]; simp [h]

theorem fields_vm (m : Mstatus) : m.fields.extractLsb' 17 5 = m.vm := by
  ext k hk
  rw [BitVec.getElem_extractLsb']
  simp only [fields_getLsbD, entry_getLsbD]
  interval_cases k <;> simp

theorem fields_xs (m : Mstatus) : m.fields.extractLsb' 14 2 = m.xs := by
  ext k hk
  rw [BitVec.getElem_extractLsb']
  simp only [fields_getLsbD, entry_getLsbD]
  interval_cases k <;> simp

theorem fields_fs (m : Mstatus) : m.fields.extractLsb' 12 2 = m.fs := by
  ext k hk
  rw [BitVec.getElem_extractLsb']
  simp only [fields_getLsbD, entry_getLsbD]
  interval_cases k <;> simp

theorem fields_p3 (m : Mstatus) : m.fields.extractLsb' 10 2 = m.e3.prv.bits := by
  ext k hk
  rw [BitVec.getElem_extractLsb']
  simp only [fields_getLsbD, entry_getLsbD]
  interval_cases k <;> simp

theorem fields_p2 (m : Mstatus) : m.fields.extractLsb' 7 2 = m.e2.prv.bits := by
  ext k hk
  rw [BitVec.getElem_extractLsb']
  simp only [fields_getLsbD, entry_getLsbD]
  interval_cases k <;> simp

theorem fields_p1 (m : Mstatus) : m.fields.extractLsb' 4 2 = m.e1.prv.bits := by
  ext k hk
  rw [BitVec.getElem_extractLsb']
  simp only [fields_getLsbD, entry_getLsbD]
  interval_cases k <;> simp

theorem fields_p0 (m : Mstatus) : m.fields.extractLsb' 1 2 = m.e0.prv.bits := by
  ext k hk
  rw [BitVec.getElem_extractLsb']
  simp only [fields_getLsbD, entry_getLsbD]
  interval_cases k <;> simp
/-- The fields read from a word of fields are those fields. -/
theorem ofWord_fields (m : Mstatus) : mstatusOfWord m.fields = m := by
  have h16 : m.fields.getLsbD 16 = m.mprv := by rw [fields_getLsbD]; simp only [entry_getLsbD]; simp
  have h9 : m.fields.getLsbD 9 = m.e3.ie := by rw [fields_getLsbD]; simp only [entry_getLsbD]; simp
  have h6 : m.fields.getLsbD 6 = m.e2.ie := by rw [fields_getLsbD]; simp only [entry_getLsbD]; simp
  have h3 : m.fields.getLsbD 3 = m.e1.ie := by rw [fields_getLsbD]; simp only [entry_getLsbD]; simp
  have h0 : m.fields.getLsbD 0 = m.e0.ie := by rw [fields_getLsbD]; simp only [entry_getLsbD]; simp
  simp only [mstatusOfWord, stackEntryAt, Nat.reduceAdd, fields_vm, fields_xs, fields_fs, fields_p3, fields_p2,
    fields_p1, fields_p0, ofBits_bits, h16, h9, h6, h3, h0]
/-- The word of the fields of a word is its bits 21:0. -/
theorem ofWord_bits (w : Word) : (mstatusOfWord w).fields = w &&& 0x3FFFFF := by
  apply BitVec.eq_of_getLsbD_eq
  intro k hk
  rw [fields_getLsbD]
  simp only [mstatusOfWord, stackEntryAt, entry_getLsbD, prv_bits_ofBits, BitVec.getLsbD_and,
    BitVec.getLsbD_extractLsb']
  interval_cases k <;> simp

end Sys2Proof.Machine
end

