-- ==== Sys2Proof/Laws/Translate.lean ====
section
/-!
SUPPORT. Translation, the access path and the fetch: what each can change of the state.
-/

namespace Sys2Proof.Machine

/-- The states differ in memory, translation cache and draw counter at most. -/
def SameButPaging (s t : State) : Prop :=
  t = { s with mem := t.mem, tc := t.tc, draws := t.draws }

theorem SameButPaging.refl (s : State) : SameButPaging s s := rfl

theorem SameButPaging.trans {s t u : State} (h1 : SameButPaging s t) (h2 : SameButPaging t u) : SameButPaging s u := by
  unfold SameButPaging at *
  rw [h2, h1]

/-! ### The walk -/

/-- A walk changes the translation cache only. -/
theorem walk_frame (req : WalkReq) (s0 : State) (level : Nat) (base : Word) (global : Bool) (s : State) :
    (walk req s0 level base global s).2 = { s with tc := (walk req s0 level base global s).2.tc } := by
  induction level generalizing base global s with
  | zero =>
    unfold walk
    simp only
    split
    · rfl
    · split
      · rfl
      · split <;> split <;> rfl
  | succ n ih =>
    unfold walk
    simp only
    split
    · rfl
    · split
      · rfl
      · split
        · split <;> rfl
        · split
          · rw [ih]; rfl
          · rw [ih]

theorem walk_mem (req : WalkReq) (s0 : State) (level : Nat) (base : Word) (global : Bool) (s : State) :
    (walk req s0 level base global s).2.mem = s.mem := by rw [walk_frame]

/-- Finding the leaf changes the translation cache only. -/
theorem findLeaf_frame (req : WalkReq) (s : State) :
    (findLeaf req s).2 = { s with tc := (findLeaf req s).2.tc } := by
  unfold findLeaf
  split
  · rfl
  · exact walk_frame _ _ _ _ _ _

/-- Step 5 of the walk: an address error that changes nothing, or the address, with the PTE's bits set where they were
not. -/
theorem useLeaf_cases (req : WalkReq) (e : TcEntry) (s : State) :
    useLeaf req e s = (none, s)
      ∨ (∃ pa, useLeaf req e s = (some pa, s) ∧ e.pte &&& pteUsedBits req.acc = pteUsedBits req.acc)
      ∨ (∃ pa, useLeaf req e s = (some pa, setUsedBits e (pteUsedBits req.acc) s)
        ∧ e.pte &&& pteUsedBits req.acc ≠ pteUsedBits req.acc) := by
  unfold useLeaf
  split
  · exact .inl rfl
  · dsimp only
    split
    · rename_i h; exact .inr (.inl ⟨_, rfl, h⟩)
    · rename_i h
      split
      · exact .inl rfl
      · exact .inr (.inr ⟨_, rfl, h⟩)

theorem useLeaf_frame (req : WalkReq) (e : TcEntry) (s : State) :
    (useLeaf req e s).2 = { s with mem := (useLeaf req e s).2.mem, tc := (useLeaf req e s).2.tc } := by
  rcases useLeaf_cases req e s with h | ⟨pa, h, -⟩ | ⟨pa, h, -⟩ <;> rw [h] <;> rfl

theorem useLeaf_wf (req : WalkReq) (e : TcEntry) {s : State} (hw : Memory.wf s.mem = true) :
    Memory.wf (useLeaf req e s).2.mem = true := by
  rcases useLeaf_cases req e s with h | ⟨pa, h, -⟩ | ⟨pa, h, -⟩ <;> rw [h]
  · exact hw
  · exact hw
  · exact Memory.wf_writeLE _ _ _ hw

/-! ### Translation and the access path -/

/-- A paged translation changes memory, the translation cache and the draw counter at most, and keeps memory's form. -/
theorem translatePaged_spec (req : WalkReq) (s : State) :
    SameButPaging s (translatePaged req s).2
      ∧ (Memory.wf s.mem = true → Memory.wf (translatePaged req s).2.mem = true) := by
  unfold translatePaged
  have hf := findLeaf_frame req s
  generalize findLeaf req s = r at hf ⊢
  obtain ⟨o, s1⟩ := r
  dsimp only at hf
  cases o with
  | none =>
    dsimp only
    rw [hf]
    exact ⟨rfl, id⟩
  | some e =>
    dsimp only
    refine ⟨?_, fun hw => useLeaf_wf req e (by rw [hf]; exact hw)⟩
    unfold SameButPaging
    rw [useLeaf_frame, hf]

theorem translateAddress_spec (va : Word) (acc : Acc) (p : Priv) (s : State) :
    SameButPaging s (translateAddress va acc p s).2
      ∧ (Memory.wf s.mem = true → Memory.wf (translateAddress va acc p s).2.mem = true) := by
  have hr : SameButPaging s s ∧ (Memory.wf s.mem = true → Memory.wf s.mem = true) := ⟨rfl, id⟩
  unfold translateAddress
  repeat' split
  all_goals first
    | exact hr
    | exact translatePaged_spec _ s

/-- The state an access leaves, whatever it answers. -/
def Access.after {α : Type} (s : State) : Access α → State
  | .done _ t => t
  | .trap _ _ t => t
  | .device => s

/-- The access path: the address it gives or the exception it raises, and what it can change. -/
theorem accessPath_spec (acc : Acc) (va : Word) (n : Nat) (s : State) :
    SameButPaging s ((accessPath acc va n s).after s)
      ∧ (Memory.wf s.mem = true → Memory.wf ((accessPath acc va n s).after s).mem = true)
      ∧ ∀ code bad t, accessPath acc va n s = .trap code bad t → code = acc.faultCode ∧ bad = va := by
  have h := translateAddress_spec va acc (s.effPriv acc) s
  unfold accessPath
  generalize translateAddress va acc (s.effPriv acc) s = r at h
  obtain ⟨o, s1⟩ := r
  cases o with
  | none => exact ⟨h.1, h.2, fun _ _ _ he => by cases he; exact ⟨rfl, rfl⟩⟩
  | some a =>
    dsimp only
    split
    · exact ⟨h.1, h.2, fun _ _ _ he => by cases he; exact ⟨rfl, rfl⟩⟩
    · split
      · exact ⟨rfl, id, fun _ _ _ he => by cases he⟩
      · exact ⟨h.1, h.2, fun _ _ _ he => by cases he⟩

/-! ### The fetch -/

/-- The fetch: what it can change. -/
theorem fetchPath_spec (s : State) :
    SameButPaging s ((fetchPath s).after s)
      ∧ (Memory.wf s.mem = true → Memory.wf ((fetchPath s).after s).mem = true) := by
  unfold fetchPath
  split
  · exact ⟨rfl, id⟩
  · split
    · have h := accessPath_spec .fetch s.pc 4 s
      generalize accessPath .fetch s.pc 4 s = r at h
      cases r <;> exact ⟨h.1, h.2.1⟩
    · have h := accessPath_spec .fetch s.pc 2 s
      generalize accessPath .fetch s.pc 2 s = r at h
      cases r with
      | trap code bad t => exact ⟨h.1, h.2.1⟩
      | device => exact ⟨h.1, h.2.1⟩
      | done pa t =>
        dsimp only
        split
        · exact ⟨h.1, h.2.1⟩
        · have h2 := accessPath_spec .fetch (s.cfg.trunc (s.pc + 2)) 2 t
          generalize accessPath .fetch (s.cfg.trunc (s.pc + 2)) 2 t = q at h2
          cases q with
          | device => exact ⟨rfl, id⟩
          | trap code bad u => exact ⟨h.1.trans h2.1, fun hw => h2.2.1 (h.2.1 hw)⟩
          | done qa u => exact ⟨h.1.trans h2.1, fun hw => h2.2.1 (h.2.1 hw)⟩

theorem fetchPath_done {s t : State} {l : List Nat} (h : fetchPath s = .done l t) :
    SameButPaging s t ∧ (Memory.wf s.mem = true → Memory.wf t.mem = true) := by
  have := fetchPath_spec s
  rw [h] at this
  exact this

theorem fetchPath_trap {s t : State} {code : BitVec 4} {bad : Word} (h : fetchPath s = .trap code bad t) :
    SameButPaging s t ∧ (Memory.wf s.mem = true → Memory.wf t.mem = true) := by
  have := fetchPath_spec s
  rw [h] at this
  exact this

/-! ### The step -/

/-- An outcome that is a next state after an action was one before it. -/
theorem andThen_next {f : State → State} {r : Result} {t : State} (h : andThen f r = .next t) :
    ∃ u, r = .next u ∧ t = f u := by
  cases r with
  | next u => cases h; exact ⟨u, rfl, rfl⟩
  | fault e => cases h
  | refused e => cases h

/-- What a step that answers a next state has done: taken an interrupt, waited, or trapped at the fetch or run what it
fetched and counted it; then the outside acted. -/
theorem cycle_next {s t : State} (h : cycle s = .next t) : ∃ u, t = environment u ∧
    (interruptAtBoundary s = some u
      ∨ (interruptAtBoundary s = none ∧ s.stalled = true ∧ u = idleStep s)
      ∨ (interruptAtBoundary s = none ∧ s.stalled = false ∧ ∃ v, u = retire v ∧
        ((∃ code bad s1, fetchPath s = .trap code bad s1 ∧ v = raiseException code (some bad) s1)
          ∨ ∃ addrs s1, fetchPath s = .done addrs s1
            ∧ runDecoded (decodeFetched (fetchBytes s1 addrs)) s1 = .next v))) := by
  obtain ⟨u, hu, rfl⟩ := andThen_next h
  refine ⟨u, rfl, ?_⟩
  split at hu
  · rename_i v hv
    cases hu
    exact .inl hv
  · rename_i hn
    split at hu
    · rename_i hs
      cases hu
      exact .inr (.inl ⟨hn, hs, rfl⟩)
    · rename_i hs
      obtain ⟨v, hv, rfl⟩ := andThen_next hu
      refine .inr (.inr ⟨hn, by simpa using hs, v, rfl, ?_⟩)
      unfold runInstruction at hv
      split at hv
      · rename_i code bad s1 hf
        cases hv
        exact .inl ⟨code, bad, s1, hf, rfl⟩
      · cases hv
      · rename_i addrs s1 hf
        exact .inr ⟨addrs, s1, hf, hv⟩

/-- What decoded bytes that answer a next state have done: run a well-formed instruction, or trapped as illegal. -/
theorem runDecoded_next {d : Except DecodeError Instr} {s t : State} (h : runDecoded d s = .next t) :
    (∃ i, d = .ok i ∧ i.wellFormed s.cfg.nregs = true ∧ exec i s = .next t) ∨ t = raiseException 2 none s := by
  unfold runDecoded at h
  split at h
  · rename_i i
    split at h
    · rename_i hw
      exact .inl ⟨i, rfl, hw, h⟩
    · cases h; exact .inr rfl
  · cases h
  · cases h; exact .inr rfl
  · cases h

end Sys2Proof.Machine
end

