-- ==== Sys2Proof/Laws/Width.lean ====
section
/-!
SUPPORT. Values of XLEN bits: `trunc` and the alignments, what they keep and that they are idempotent.
-/

namespace Sys2Proof

/-- The two widths (11_state_machine_csrs.md R93). -/
theorem width_cases (c : Config) : (c.isRv32 = true ∧ c.xlen = 32) ∨ (c.isRv32 = false ∧ c.xlen = 64) := by
  unfold Config.isRv32 Config.xlen; cases c.base <;> simp

@[simp] theorem trunc_trunc (c : Config) (v : Word) : c.trunc (c.trunc v) = c.trunc v := by
  unfold Config.trunc
  split
  · ext k hk; simp
  · rfl

@[simp] theorem trunc_zero (c : Config) : c.trunc 0#64 = 0#64 := by
  unfold Config.trunc; split <;> rfl

theorem trunc_getLsbD (c : Config) (v : Word) (k : Nat) :
    (c.trunc v).getLsbD k = (decide (k < c.xlen) && v.getLsbD k) := by
  unfold Config.trunc Config.xlen Config.isRv32
  cases c.base <;> by_cases h : k < 64 <;> simp [BitVec.getLsbD_setWidth, h]
  all_goals first
    | (intro h'; omega)
    | (exact BitVec.getLsbD_of_ge _ _ (by omega))

theorem trunc_and (c : Config) (v w : Word) : c.trunc (v &&& w) = c.trunc v &&& w := by
  apply BitVec.eq_of_getLsbD_eq
  intro k hk
  simp only [trunc_getLsbD, BitVec.getLsbD_and, Bool.and_assoc]

theorem trunc_or (c : Config) (v w : Word) : c.trunc (v ||| w) = c.trunc v ||| c.trunc w := by
  apply BitVec.eq_of_getLsbD_eq
  intro k hk
  simp only [trunc_getLsbD, BitVec.getLsbD_or, Bool.and_or_distrib_left]

theorem trunc_toNat (c : Config) (v : Word) : (c.trunc v).toNat = v.toNat % 2 ^ c.xlen := by
  unfold Config.trunc Config.xlen Config.isRv32
  have := v.isLt
  cases c.base <;> simp [BitVec.toNat_setWidth]
  all_goals omega

theorem alignEpc_eq (c : Config) (v : Word) :
    c.alignEpc v = c.trunc v &&& (if c.ialign = .i16 then ~~~1 else ~~~3) := by
  unfold Config.alignEpc; cases c.ialign <;> simp

@[simp] theorem alignEpc_alignEpc (c : Config) (v : Word) : c.alignEpc (c.alignEpc v) = c.alignEpc v := by
  simp only [alignEpc_eq, trunc_and, trunc_trunc, BitVec.and_assoc, BitVec.and_self]

@[simp] theorem trunc_alignEpc (c : Config) (v : Word) : c.trunc (c.alignEpc v) = c.alignEpc v := by
  simp only [alignEpc_eq, trunc_and, trunc_trunc]

@[simp] theorem alignEpc_zero (c : Config) : c.alignEpc 0#64 = 0#64 := by
  simp [alignEpc_eq]

@[simp] theorem alignTvec_alignTvec (c : Config) (v : Word) : c.alignTvec (c.alignTvec v) = c.alignTvec v := by
  simp only [Config.alignTvec, trunc_and, trunc_trunc, BitVec.and_assoc, BitVec.and_self]

@[simp] theorem alignTvec_zero (c : Config) : c.alignTvec 0#64 = 0#64 := by
  simp [Config.alignTvec]

@[simp] theorem alignTvec_resetMtvec (c : Config) : c.alignTvec c.resetMtvec = c.resetMtvec := by
  unfold Config.alignTvec Config.resetMtvec Config.trunc
  cases c.mtvecReset <;> cases c.isRv32 <;> decide

/-- What a write leaves in `mtvec` is of XLEN bits and 4-byte aligned. -/
@[simp] theorem alignTvec_writeMtvec (c : Config) (v : Word) : c.alignTvec (c.writeMtvec v) = c.writeMtvec v := by
  unfold Config.writeMtvec
  split
  · exact alignTvec_resetMtvec c
  · simp only [Config.alignTvec, trunc_and, trunc_trunc, BitVec.and_assoc, BitVec.and_self]

/-! ### Alignment as a remainder -/

theorem mod_two_of_getLsbD {v : Word} (h : v.getLsbD 0 = false) : v.toNat % 2 = 0 := by
  rw [BitVec.getLsbD, Nat.testBit_zero, decide_eq_false_iff_not] at h
  omega

theorem mod_four_of_getLsbD {v : Word} (h0 : v.getLsbD 0 = false) (h1 : v.getLsbD 1 = false) : v.toNat % 4 = 0 := by
  have := mod_two_of_getLsbD h0
  rw [BitVec.getLsbD, Nat.testBit_succ, Nat.testBit_zero, decide_eq_false_iff_not] at h1
  omega

theorem and_not_one_mod (v : Word) : (v &&& ~~~1).toNat % 2 = 0 :=
  mod_two_of_getLsbD (by rw [BitVec.getLsbD_and]; simp)

theorem and_not_three_mod (v : Word) : (v &&& ~~~3).toNat % 4 = 0 :=
  mod_four_of_getLsbD (by rw [BitVec.getLsbD_and]; simp) (by rw [BitVec.getLsbD_and]; simp)

theorem ialignBytes_dvd_four (c : Config) : c.ialignBytes ∣ 4 := by
  unfold Config.ialignBytes; cases c.ialign <;> decide

theorem mod_ialign_of_mod_four {c : Config} {n : Nat} (h : n % 4 = 0) : n % c.ialignBytes = 0 :=
  Nat.mod_eq_zero_of_dvd ((ialignBytes_dvd_four c).trans (Nat.dvd_of_mod_eq_zero h))

/-- An epc register holds a multiple of IALIGN. -/
theorem alignEpc_mod (c : Config) (v : Word) : (c.alignEpc v).toNat % c.ialignBytes = 0 := by
  unfold Config.alignEpc Config.ialignBytes
  cases c.ialign
  · exact and_not_one_mod _
  · exact and_not_three_mod _

/-- A trap vector is a multiple of 4. -/
theorem alignTvec_mod (c : Config) (v : Word) : (c.alignTvec v).toNat % 4 = 0 :=
  and_not_three_mod _

theorem ialignBytes_dvd_xlen (c : Config) : c.ialignBytes ∣ 2 ^ c.xlen := by
  refine (ialignBytes_dvd_four c).trans ?_
  unfold Config.xlen; cases c.base <;> decide

theorem ialignBytes_dvd_word (c : Config) : c.ialignBytes ∣ 2 ^ 64 :=
  (ialignBytes_dvd_four c).trans (by decide)

/-- A multiple of IALIGN plus a multiple of 4 is a multiple of IALIGN. -/
theorem trunc_add_mod {c : Config} {v w : Word} (hv : v.toNat % c.ialignBytes = 0) (hw : w.toNat % 4 = 0) :
    (c.trunc (v + w)).toNat % c.ialignBytes = 0 := by
  rw [trunc_toNat, BitVec.toNat_add, Nat.mod_mod_of_dvd _ (ialignBytes_dvd_xlen c),
    Nat.mod_mod_of_dvd _ (ialignBytes_dvd_word c), Nat.add_mod, hv, mod_ialign_of_mod_four hw]
  simp

end Sys2Proof
end

