-- ==== Sys2Proof/Tests/Slice0.lean ====
section
/-!
SUPPORT. Tests. Expected values come from spec/95_test_vectors.md, whose vector names (C1, K1, ...) the theorems carry, or
from the rule a comment names.
-/

namespace Sys2Proof.Machine.Tests

/-! ### Well-formedness: a register RV32E lacks is refused (10_state.md R32) -/

theorem test_wf_rv32e_rd : (Instr.csrrw 16 0x340 1).wellFormed 16 = false := by decide
theorem test_wf_rv32e_rs1 : (Instr.sfenceVm 16).wellFormed 16 = false := by decide
theorem test_wf_rv32e_ok : (Instr.csrrw 15 0x340 15).wellFormed 16 = true := by decide
theorem test_wf_base : (Instr.csrrsi 31 0x340 31).wellFormed 32 = true := by decide

/-! ### Decoding: words written out field by field from 30_encoding.md R324 (csr, rs1, funct3, rd, opcode) -/

theorem test_decode_csrrw : decode 0b001101000000_00110_001_00101_1110011 = .ok (.csrrw 5 0x340 6) := by decide
theorem test_decode_csrrs : decode 0b110000000000_00000_010_01010_1110011 = .ok (.csrrs 10 0xC00 0) := by decide
theorem test_decode_csrrc : decode 0b001101000000_00110_011_00101_1110011 = .ok (.csrrc 5 0x340 6) := by decide
theorem test_decode_csrrwi : decode 0b001101000000_11111_101_00101_1110011 = .ok (.csrrwi 5 0x340 31) := by decide
theorem test_decode_csrrsi : decode 0b001100000000_00001_110_00000_1110011 = .ok (.csrrsi 0 0x300 1) := by decide
theorem test_decode_csrrci : decode 0b001101000000_00011_111_00101_1110011 = .ok (.csrrci 5 0x340 3) := by decide
theorem test_decode_ecall : decode 0b000000000000_00000_000_00000_1110011 = .ok .ecall := by decide
theorem test_decode_ebreak : decode 0b000000000001_00000_000_00000_1110011 = .ok .ebreak := by decide
theorem test_decode_eret : decode 0b000100000000_00000_000_00000_1110011 = .ok .eret := by decide
theorem test_decode_mrts : decode 0b001100000101_00000_000_00000_1110011 = .ok .mrts := by decide
theorem test_decode_mrth : decode 0b001100000110_00000_000_00000_1110011 = .ok .mrth := by decide
theorem test_decode_hrts : decode 0b001000000101_00000_000_00000_1110011 = .ok .hrts := by decide
theorem test_decode_wfi : decode 0b000100000010_00000_000_00000_1110011 = .ok .wfi := by decide
theorem test_decode_sfence : decode 0b000100000001_00111_000_00000_1110011 = .ok (.sfenceVm 7) := by decide

/-- X13 to X19: the unallocated words. -/
theorem test_decode_unallocated :
    [0x001000F3, 0x00008073, 0x10100173, 0x00004073, 0x00200073, 0x10300073, 0x30400073].all
      (fun w : BitVec 32 => decode w = .error .unallocatedSystem) = true := by decide

/-- ADDI x5, x0, 0x80 of program P3 is no SYSTEM word. -/
theorem test_decode_user_level : decode 0x08000293 = .error .notSystem := by decide

/-- 20_memory.md R221: ERET at 0x100 occupies 73 00 00 10. -/
theorem test_decode_bytes : decodeBytes [0x73, 0x00, 0x00, 0x10] = .ok (.eret, []) := by decide
theorem test_decode_short : decodeBytes [0x73, 0x00] = .error .tooShort := by decide

/-! ### Small states -/

/-- CFG-B of the vectors: XLEN 32, modes M and U, Mbb. -/
def cfgB : Config :=
  { Config.recommended with base := .rv32i, modes := .mu, mbb := true, sv39 := false, mtdelegWmask := 0, palen := 32 }

/-- CFG-D: XLEN 64, four modes. -/
def cfgD : Config := { Config.recommended with modes := .mhsu, mtdelegWmask := 0xEE0FFF, htdelegWmask := 0xEE0FFF }

/-- CFG-E: XLEN 32, modes M, S and U, every scheme of 32 bits, 8 bits of ASID. -/
def cfgE : Config :=
  { Config.recommended with base := .rv32i, mbb := true, mbbid := true, sv32 := true, sv39 := false, asidlen := 8 }

/-- The state after reset with `mstatus` and `pc` as given. -/
def start (c : Config) (mstatus pc : Word) : State :=
  { State.ofReset c with mstatus := mstatusOfWord mstatus, pc := pc }

/-- A next state that meets a check. -/
def nextIs (r : Result) (check : State → Bool) : Bool :=
  match r with
  | .next s => check s
  | _ => false

/-- What the vectors say of a machine-level trap: mcause, mepc, mstatus, pc. -/
def trapped (cause epc mstatus pc : Word) (s : State) : Bool :=
  csrRead s .mcause = cause && s.tm.epc = epc && csrRead s .mstatus = mstatus && s.pc = pc

/-- An illegal instruction trapped to M. -/
def illegal (s : State) : Bool := csrRead s .mcause = 2

theorem test_configs_valid : [Config.recommended, cfgB, cfgD, cfgE].all Config.valid = true := by decide

/-! ### CSR instructions -/

def csrStart (scratch x5 x6 : Word) : State :=
  let s := start Config.recommended 0x6 0x400
  ({ s with tm := { s.tm with scratch := scratch } }.writeReg 5 x5).writeReg 6 x6

theorem test_C1_csrrw : nextIs (exec (.csrrw 5 0x340 6) (csrStart 0xAAAA 0 0x5555))
    (fun s => s.readReg 5 = 0xAAAA && s.tm.scratch = 0x5555 && s.pc = 0x404) = true := by decide
theorem test_C3_csrrw_swap : nextIs (exec (.csrrw 5 0x340 5) (csrStart 2 1 0))
    (fun s => s.readReg 5 = 2 && s.tm.scratch = 1) = true := by decide
theorem test_C5_csrrs : nextIs (exec (.csrrs 5 0x340 6) (csrStart 0xF0 0 0xF01))
    (fun s => s.readReg 5 = 0xF0 && s.tm.scratch = 0xFF1) = true := by decide
theorem test_C16_csrrs_read_only : nextIs (exec (.csrrs 5 0xF00 6) (csrStart 0 7 0))
    (fun s => illegal s && s.readReg 5 = 7) = true := by decide
theorem test_C6_csrrc : nextIs (exec (.csrrc 5 0x340 6) (csrStart 0xFF1 0 0xF01))
    (fun s => s.readReg 5 = 0xFF1 && s.tm.scratch = 0xF0) = true := by decide
theorem test_C7_csrrc_mstatus : nextIs (exec (.csrrc 0 0x300 6) { csrStart 0 0 1 with mstatus := mstatusOfWord 7 })
    (fun s => csrRead s .mstatus = 6) = true := by decide
theorem test_C8_csrrwi : nextIs (exec (.csrrwi 5 0x340 31) (csrStart 0xFFFFFFFFFFFFFFFF 0 0))
    (fun s => s.readReg 5 = 0xFFFFFFFFFFFFFFFF && s.tm.scratch = 0x1F) = true := by decide
theorem test_C18_csrrwi_zero : nextIs (exec (.csrrwi 5 0xF00 0) (csrStart 0 0 0)) illegal = true := by decide
theorem test_C10_csrrsi : nextIs (exec (.csrrsi 5 0x340 5) (csrStart 0x10 0 0))
    (fun s => s.readReg 5 = 0x10 && s.tm.scratch = 0x15) = true := by decide
theorem test_C43_csrrsi_sstatus : nextIs (exec (.csrrsi 0 0x100 1) (start Config.recommended 0x2 0x400))
    (fun s => csrRead s .mstatus = 3) = true := by decide
theorem test_C11_csrrci : nextIs (exec (.csrrci 5 0x340 3) (csrStart 0x1F 0 0))
    (fun s => s.readReg 5 = 0x1F && s.tm.scratch = 0x1C) = true := by decide
theorem test_C45_csrrci_sip : nextIs (exec (.csrrci 0 0x144 2)
      { start Config.recommended 0x2 0x400 with mip := intBitsOfWord Config.recommended 0x22 })
    (fun s => csrRead s .mip = 0x20) = true := by decide

/-! ### CSR reads and writes -/

/-- `CsrWrite` in CFG-A, then `CsrRead` of the same register. -/
def wrote (s : State) (r : Csr) (v w : Word) : Bool :=
  match csrWrite s r v with
  | .ok t => csrRead t r = w
  | .error _ => false

theorem test_C35_mepc : wrote (csrStart 0 0 0) .mepc 0x1003 0x1000 = true := by decide
theorem test_C36_mtimecmp : wrote (csrStart 0 0 0) .mtimecmp 0x100000005 5 = true := by decide
theorem test_C37_mip : wrote { csrStart 0 0 0 with mip := intBitsOfWord Config.recommended 0x80 } .mip
    0xFFFFFFFFFFFFFFFF 0x8A = true := by decide
theorem test_C38_mie : (wrote (csrStart 0 0 0) .mie 0xFFFFFFFFFFFFFFFF 0xAA
    && wrote (start cfgB 0x6 0) .mie 0xFFFFFFFF 0x88) = true := by decide
theorem test_C39_mtdeleg : (wrote (csrStart 0 0 0) .mtdeleg 0xFFFFFFFFFFFFFFFF 0x220FFF
    && wrote (start cfgB 0x6 0) .mtdeleg 0xFFFFFFFF 0) = true := by decide
theorem test_C40_mtvec : wrote (csrStart 0 0 0) .mtvec 0x8000 0x100 = true := by decide
theorem test_C41_sstatus : csrRead (start Config.recommended 0x12001B 0) .sstatus = 0x19 := by decide
theorem test_C42_sstatus : (match csrWrite (start Config.recommended 0x12001B 0) .sstatus 0 with
    | .ok t => csrRead t .mstatus = 0x120002 | .error _ => false) = true := by decide
theorem test_C47_sie : (match csrWrite { csrStart 0 0 0 with mie := intBitsOfWord Config.recommended 0x80 } .sie
      0xFFFFFFFFFFFFFFFF with
    | .ok t => csrRead t .mie = 0xA2 | .error _ => false) = true := by decide
theorem test_C49_sptbr : wrote (csrStart 0 0 0) .sptbr 0x12345678 0x12345000 = true := by decide
/-- C19, C20, C22, C24, C26, C27, C29 to C34: no access. -/
theorem test_no_access :
    [(0x0, 0x300, false), (0x2, 0x340, false), (0x0, 0x100, false), (0x6, 0x142, true), (0x6, 0xD01, true),
      (0x2, 0xA01, true), (0x6, 0x7C0, false), (0x6, 0x200, false), (0x6, 0x780, false), (0x6, 0x741, false),
      (0x6, 0x003, false), (0x6, 0x380, true)].all
      (fun q : Word × CsrAddr × Bool =>
        csrAccess (start Config.recommended q.1 0) q.2.1 q.2.2 = none) = true := by decide
/-- C15, C21, C23, C25, C34 on CFG-B. -/
theorem test_access :
    csrAccess (start Config.recommended 0x6 0) 0xF00 false = some .mcpuid
      ∧ csrAccess (start Config.recommended 0x0 0) 0xC00 false = some .cycle
      ∧ csrAccess (start Config.recommended 0x2 0) 0x142 false = some .scause
      ∧ csrAccess (start Config.recommended 0x2 0) 0xD01 false = some .stime
      ∧ csrAccess (start cfgB 0x6 0) 0x380 true = some .mbase := by decide
/-- 92_eei_decisions.md D16: a reserved VM is a refusal point. -/
theorem test_vm_refused : (match csrWrite (csrStart 0 0 0) .mstatus 0x60006 with
    | .error .unsupportedVm => true | _ => false) = true := by decide

/-! ### ECALL, EBREAK, ERET -/

theorem test_K1_ecall : nextIs (exec .ecall (start Config.recommended 0x10009 0x1000))
    (trapped 8 0x1000 0x4E 0x100) = true := by decide
theorem test_K15_ecall_delegated : nextIs
    (exec .ecall { start Config.recommended 0x41 0x600 with mtdeleg := 0x100, stvec := 0x400 })
    (fun s => csrRead s .scause = 8 && s.ts.epc = 0x600 && csrRead s .mstatus = 0xA && s.pc = 0x400 && s.tm.epc = 0)
    = true := by decide
theorem test_K13_ebreak : nextIs (exec .ebreak (start Config.recommended 0xB 0x2004))
    (trapped 3 0x2004 0x5E 0x140) = true := by decide
theorem test_K14_ebreak : nextIs (exec .ebreak (start Config.recommended 0x6 0x300))
    (trapped 3 0x300 0x36 0x1C0) = true := by decide
theorem test_K4_ecall_hypervisor : nextIs (exec .ecall (start cfgD 0x25D 0x3000))
    (trapped 10 0x3000 0x2EE 0x180) = true := by decide
/-- K6: `mepc` is 0x1004. -/
def eretStart : State :=
  { start Config.recommended 0x4E 0x118 with tm := { TrapRegs.zero with epc := 0x1004 } }

theorem test_K6_eret : nextIs (exec .eret eretStart)
    (fun s => csrRead s .mstatus = 0x49 && s.pc = 0x1004) = true := by decide
theorem test_K12_eret_escalation :
    nextIs (exec .eret { start Config.recommended 0x32 0x0 with ts := { TrapRegs.zero with epc := 0x700 } })
    (fun s => csrRead s .mstatus = 0x46 && s.pc = 0x700) = true := by decide
/-- K5, K7 (CFG-B) and K8, K9 (M-only): the stack at other depths. -/
theorem test_stack_depths :
    (Mstatus.push cfgB .m (mstatusOfWord 0x09)).fields = 0x0E ∧ (Mstatus.pop cfgB (mstatusOfWord 0x0E)).fields = 0x09
      ∧ (Mstatus.push { cfgB with modes := .m } .m (mstatusOfWord 0x3F)).fields = 0x3E
      ∧ (Mstatus.pop { cfgB with modes := .m } (mstatusOfWord 0x36)).fields = 0x3E
      ∧ (Mstatus.push cfgD .m (mstatusOfWord 0x249)).fields = 0x24E
      ∧ (Mstatus.pop cfgD (mstatusOfWord 0x24E)).fields = 0x249 := by decide

/-! ### MRTS, MRTH, HRTS -/

def redirectStart (c : Config) (mstatus : Word) : State :=
  { start c mstatus 0x104 with
    tm := { scratch := 0, epc := 0x1008, cause := { interrupt := false, code := 5 }, badaddr := 0x7000 },
    stvec := 0x8000, htvec := 0x9000 }

theorem test_M1_mrts : nextIs (exec .mrts (redirectStart Config.recommended 0x4E))
    (fun s => s.ts.epc = 0x1008 && csrRead s .scause = 5 && s.ts.badaddr = 0x7000 && csrRead s .mstatus = 0x4A
      && s.pc = 0x8000 && csrRead s .sstatus = 8 && s.tm.epc = 0x1008) = true := by decide
theorem test_M4_mrts_no_supervisor : nextIs (exec .mrts (redirectStart cfgB 0xE)) illegal = true := by decide
theorem test_M5_mrth_no_hypervisor : nextIs (exec .mrth (redirectStart Config.recommended 0x4E)) illegal = true := by
  decide
theorem test_M6_mrth : nextIs (exec .mrth (redirectStart cfgD 0x25E))
    (fun s => s.th.epc = 0x1008 && csrRead s .hcause = 5 && s.th.badaddr = 0x7000 && csrRead s .mstatus = 0x25C
      && s.pc = 0x9000) = true := by decide
theorem test_M7_hrts : nextIs (exec .hrts (start cfgD 0x24C 0x100)) illegal = true := by decide

/-! ### WFI, SFENCE.VM -/

theorem test_W1_wfi_user : nextIs (exec .wfi (start Config.recommended 0x0 0x400)) illegal = true := by decide
/-- W6: something is pending, so the hart does not stall. -/
theorem test_W6_wfi : nextIs
    (exec .wfi { start Config.recommended 0x6 0x400 with mip := intBitsOfWord Config.recommended 0x80 })
    (fun s => s.pc = 0x404 && !s.stalled) = true := by decide

/-- The entries of section 2.6: e1, e2 of two address spaces for one page, e3 a page of the first, e4 global. -/
def fenceEntry (asid : Word) (global : Bool) (va : Word) (bits : Nat) : TcEntry :=
  { asid := asid, global := global, vaBase := va, vaBits := bits, level := 0, pte := 1, pteAddr := 0, pteBytes := 4 }

def fenceStart (sasid x7 : Word) : State :=
  ({ start cfgE 0x2 0x400 with
      sasid := sasid,
      tc := [fenceEntry 1 false 0x400000 12, fenceEntry 2 false 0x400000 12, fenceEntry 1 false 0x800000 22,
        fenceEntry 1 true 0xC0000000 22] }).writeReg 7 x7

/-- S1 to S3: every address. -/
theorem test_S1_sfence : [(0, 0), (1, 2), (2, 3)].all (fun q : Word × Nat =>
    nextIs (exec (.sfenceVm 0) (fenceStart q.1 0)) (fun s => s.tc.length = q.2 && s.pc = 0x404)) = true := by decide
/-- S4 to S9: one mapping. -/
theorem test_S4_sfence :
    [(1, 0x400ABC, 3), (0, 0x400ABC, 2), (0, 0xC0000010, 3), (1, 0xC0000010, 4), (1, 0x900000, 3), (0, 0, 4)].all
      (fun q : Word × Word × Nat =>
        nextIs (exec (.sfenceVm 7) (fenceStart q.1 q.2.1)) (fun s => s.tc.length = q.2.2)) = true := by decide

/-! ### Delegation, interrupts, clock -/

/-- T3, T4, T7 to T10. -/
theorem test_targets :
    trapTarget { start Config.recommended 0x2 0 with mtdeleg := 4 } 2 = .s
      ∧ trapTarget { start Config.recommended 0x6 0 with mtdeleg := 4 } 2 = .m
      ∧ trapTarget { start cfgD 0x0 0 with mtdeleg := 0x100 } 8 = .h
      ∧ trapTarget { start cfgD 0x0 0 with mtdeleg := 0x100, htdeleg := 0x100 } 8 = .s
      ∧ trapTarget { start cfgD 0x4 0 with mtdeleg := 0x100, htdeleg := 0x100 } 8 = .h
      ∧ trapTarget { start cfgD 0x2 0 with htdeleg := 0x100 } 8 = .m := by decide

def irqStart (mstatus mip mie : Word) : State :=
  { start Config.recommended mstatus 0x404 with
    mip := intBitsOfWord Config.recommended mip, mie := intBitsOfWord Config.recommended mie }

/-- I1 to I11. -/
theorem test_enabled :
    enabledSources (irqStart 0x6 0x80 0x80) = [] ∧ enabledSources (irqStart 0x7 0x80 0x80) = [.mti]
      ∧ enabledSources (irqStart 0x7 0x80 0) = [] ∧ enabledSources (irqStart 0x2 0x80 0x80) = [.mti]
      ∧ enabledSources (irqStart 0x3 0x20 0x20) = [.sti] ∧ enabledSources (irqStart 0x2 0x20 0x20) = []
      ∧ enabledSources (irqStart 0x0 0x20 0x20) = [.sti] ∧ enabledSources (irqStart 0x7 0x22 0x22) = []
      ∧ enabledSources (irqStart 0x1 0x02 0x20) = [] ∧ enabledSources (irqStart 0x3 0xA 0xA) = [.msi, .ssi]
      ∧ enabledSources (irqStart 0x7 0x8 0x8) = [.msi] := by decide

/-- W7: a machine timer interrupt taken in S by a step. -/
theorem test_W7_interrupt : nextIs (step (irqStart 0xA 0x80 0x80))
    (trapped 0x8000000000000001 0x404 0x56 0x140) = true := by decide

/-- G1, G2, G4: the compare. -/
theorem test_clock :
    passes 0x100000063 0x64 1 = true ∧ passes 0x60 0x64 0x10 = true ∧ passes 0x60 0x64 3 = false
      ∧ passes 0x70 0x70 0 = false ∧ passes 0x70 0x70 1 = true ∧ passes 0x70 0x64 0xFFFFFFF3 = false
      ∧ passes 0x70 0x64 0xFFFFFFF4 = true := by decide

/-! ### Memory and translation -/

def words (c : Config) (mstatus : Word) (l : List (Nat × Word)) (n : Nat) : State :=
  { start c mstatus 0x1000 with mem := l.foldl (fun m q => Memory.writeLE m q.1 q.2 n) [] }

/-- The physical address of an access, and the word at `a` afterwards. -/
def reached (r : Access Nat) (pa a n : Nat) (w : Word) : Bool :=
  match r with
  | .done p s => p = pa && Memory.readLE s.mem a n = w
  | _ => false

/-- The access fault of an access. -/
def faulted {α : Type} (r : Access α) (code : BitVec 4) (va : Word) : Bool :=
  match r with
  | .trap c v _ => c = code && v = va
  | _ => false

def mbbState (mstatus : Word) : State :=
  let s := start cfgE mstatus 0
  { s with seg := { mbase := 0, mbound := 0, mibase := 0x200000, mibound := 0x1000, mdbase := 0x300000, mdbound := 0x800 } }

def mbbOnly (mstatus : Word) : State :=
  let s := start cfgB mstatus 0
  { s with seg := { mbase := 0x100000, mbound := 0x2000, mibase := 0, mibound := 0, mdbase := 0, mdbound := 0 } }

/-- B1, B2, B4, B5, B5a. -/
theorem test_mbb :
    reached (accessPath .load 0x1FFC 4 (mbbOnly 0x20000)) 0x101FFC 0 1 0 = true
      ∧ faulted (accessPath .load 0x2000 4 (mbbOnly 0x20000)) 5 0x2000 = true
      ∧ faulted (accessPath .store 0xFFFFFFFC 4 (mbbOnly 0x20000)) 7 0xFFFFFFFC = true
      ∧ reached (accessPath .load 0x2000 4 (mbbOnly 0x20006)) 0x2000 0 1 0 = true
      ∧ faulted (accessPath .load 0x2000 4 (mbbOnly 0x30006)) 5 0x2000 = true := by decide

/-- B6 to B11. -/
theorem test_mbbid :
    reached (accessPath .fetch 0x80000010 4 (mbbState 0x40000)) 0x200010 0 1 0 = true
      ∧ faulted (accessPath .fetch 0x10 4 (mbbState 0x40000)) 1 0x10 = true
      ∧ faulted (accessPath .fetch 0x80001000 4 (mbbState 0x40000)) 1 0x80001000 = true
      ∧ reached (accessPath .load 0x7FC 4 (mbbState 0x40000)) 0x3007FC 0 1 0 = true
      ∧ faulted (accessPath .load 0x800 4 (mbbState 0x40000)) 5 0x800 = true
      ∧ faulted (accessPath .store 0x80000010 4 (mbbState 0x40000)) 7 0x80000010 = true := by decide

def sv32State (mstatus : Word) : State :=
  { words cfgE mstatus [(0x10004, 0x4401), (0x11004, 0x20007), (0x1000C, 0x200017)] 4 with sptbr := 0x10000 }

def walkReq (acc : Acc) : WalkReq := { sch := sv32, va := 0x401234, acc := acc, priv := .s }

/-- V1 to V3. -/
theorem test_sv32 :
    reached (accessPath .load 0x401234 4 (sv32State 0x100002)) 0x80234 0x11004 4 0x20027 = true
      ∧ reached (accessPath .store 0x401234 4 (sv32State 0x100002)) 0x80234 0x11004 4 0x20067 = true
      ∧ faulted (accessPath .fetch 0x401234 4 (sv32State 0x100002)) 1 0x401234 = true := by decide +kernel
/-- V4 to V7, V10. -/
theorem test_sv32_more :
    reached (accessPath .fetch 0x401234 4 (sv32State 0x100000)) 0x80234 0x11004 4 0x20027 = true
      ∧ reached (accessPath .load 0xC01234 4 (sv32State 0x100002)) 0x801234 0x1000C 4 0x200037 = true
      ∧ faulted (accessPath .load 0xC01234 4 (sv32State 0x100000)) 5 0xC01234 = true
      ∧ faulted (accessPath .load 0x801000 4 (sv32State 0x100002)) 5 0x801000 = true
      ∧ reached (accessPath .load 0x401234 4 (sv32State 0x110016)) 0x80234 0x11004 4 0x20027 = true := by decide +kernel

def sv39State (mstatus : Word) (leaf : Word) : State :=
  { words Config.recommended mstatus [(0x100008, 0x40401), (0x101008, leaf), (0x102008, 0x48D140B)] 8 with
    sptbr := 0x100000 }

/-- V11, V13, V14, V16. -/
theorem test_sv39 :
    reached (accessPath .load 0x40201ABC 4 (sv39State 0x120000 0x40801)) 0x12345ABC 0x102008 8 0x48D142B = true
      ∧ faulted (accessPath .fetch 0x40201ABC 4 (sv39State 0x120000 0x40801)) 1 0x40201ABC = true
      ∧ reached (accessPath .load 0x40212345 1 (sv39State 0x120002 0x180017)) 0x612345 0x102008 8 0x48D140B = true
      ∧ faulted (accessPath .load 0x4000000000 4 (sv39State 0x120002 0x40801)) 5 0x4000000000 = true := by decide +kernel

theorem test_canonical : canonical 0x3FFFFFFFFF 39 = true ∧ canonical 0xFFFFFFC000000000 39 = true
    ∧ canonical 0xFFFFFF8000000000 39 = false ∧ canonical 0x800000000000 48 = false := by decide

/-- A1 to A3. -/
theorem test_alignment :
    faulted (loadData 0x1002 4 (start Config.recommended 0x6 0)) 4 0x1002 = true
      ∧ faulted (storeData 0x1001 0 4 (start Config.recommended 0x6 0)) 6 0x1001 = true
      ∧ faulted (loadData 0x2002 4 (mbbOnly 0x20000)) 4 0x2002 = true := by decide

/-- A store is seen by a load, and only in its bytes (20_memory.md R221). -/
theorem test_store_load : (match storeData 0x1000 0x11223344 4 (start Config.recommended 0x6 0) with
    | .done _ t => Memory.read t.mem 0x1000 = 0x44 && Memory.read t.mem 0x1003 = 0x11 && Memory.wf t.mem
    | _ => false) = true := by decide

/-- E12: `PALEN` = 16. -/
theorem test_palen : { Config.recommended with palen := 16 }.physical 0x12345 = 0x2345 := by decide

/-! ### Reset and the step -/

/-- Z1 to Z3. -/
theorem test_reset :
    (State.reset.pc, State.reset.mtvec, State.reset.priv, State.reset.mstatus.vm) = (0x200, 0x100, .m, 0)
      ∧ (State.ofReset { cfgE with mtvecReset := .high }).pc = 0xFFFFFF00
      ∧ (State.ofReset { Config.recommended with mtvecReset := .high }).mtvec = 0xFFFFFFFFFFFFFE00 := by decide

/-- Z4: an interrupt trap is the first event. -/
theorem test_Z4 : nextIs (step { irqStart 0x7 0x8 0x8 with pc := 0x200 })
    (fun s => csrRead s .mcause = 0x8000000000000000 && s.tm.epc = 0x200 && s.pc = 0x1C0) = true := by decide

/-- A step runs the instruction placed where it fetches: C12. -/
theorem test_step_csrrsi : nextIs (step (State.reset.withFetchWord 32 0x3000E073))
    (fun s => csrRead s .mstatus = 7 && s.pc = 0x204) = true := by decide
theorem test_step_unallocated : nextIs (step (State.reset.withFetchWord 32 0x00004073)) illegal = true := by decide
theorem test_step_hrts : nextIs (step (State.reset.withFetchWord 32 0x20500073)) illegal = true := by decide
/-- Unwritten memory holds a word of another major opcode. -/
theorem test_step_user_level : (match step State.reset with
    | .refused .userLevelInstruction => true | _ => false) = true := by decide

/-! ### Witnesses: for each statement with hypotheses, states and operands that meet them, clause by clause -/

/-- CFG-F: the recommended configuration with F, an extension unit, Mbb, Mbbid, Sv48 and an NMI, and a `mtvec` whose bits
63 and 11:8 can be written. -/
def cfgF : Config :=
  { Config.recommended with
    hasF := true, hasX := true, mbb := true, mbbid := true, sv48 := true, hasNmi := true,
    mtvecWmask := 0x8000000000000F00, asidlen := 64 }

/-- An M-only machine. -/
def cfgM : Config := { Config.recommended with modes := .m, sv39 := false, mtdelegWmask := 0 }

/-- CFG-X: the recommended configuration with what an implementation adds. CSRs: one that XS tracks, `mtohost`, and one of
user level with a shadow; an interrupt source; an entry point for breakpoints from below M. -/
def cfgX : Config :=
  { Config.recommended with
    hasX := true,
    extraCsrs :=
      [{ addrs := [0x7C0], mask := 0xFF, unitX := true, external := false },
        { addrs := [0x780], mask := 0xFFFFFFFFFFFFFFFF, unitX := false, external := true },
        { addrs := [0x800, 0x8C0], mask := 0xF0, unitX := false, external := false }],
    extraInterrupts := [{ bit := 8, code := 2, writable := true }],
    extraVectors := [{ interrupt := false, code := 3, levels := [.u, .s], offset := 0x200 }] }

theorem test_more_configs_valid : [cfgF, cfgM, cfgX].all Config.valid = true := by decide

/-- 11_state_machine_csrs.md R94: bit X says whether a non-standard extension is present, and F whether there is a
floating-point unit. -/
theorem test_mcpuid_bits :
    { cfgX with mcpuid := 0x8000000000940100 }.mcpuidValid = true
      ∧ { cfgX with mcpuid := 0x8000000000140100 }.mcpuidValid = false
      ∧ { cfgX with mcpuid := 0x8000000000940120 }.mcpuidValid = false
      ∧ { Config.recommended with mcpuid := 0x8000000000140100 }.mcpuidValid = true := by decide

/-! ### What an implementation adds (00_scope.md R7) -/

/-- R110, R112: an added CSR that XS tracks, its write under the mask; illegal while XS is Off. -/
theorem test_extra_csr :
    nextIs (exec (.csrrwi 5 0x7C0 31) (start cfgX 0x4006 0)) (fun s => s.extra = [0x1F, 0, 0] && s.mstatus.xs = 3)
      = true
      ∧ nextIs (exec (.csrrwi 5 0x7C0 31) (start cfgX 0x6 0)) illegal = true
      ∧ nextIs (exec (.csrrwi 5 0x8C0 31) (start cfgX 0x0 0)) (fun s => s.extra = [0, 0, 0x10]) = true
      ∧ nextIs (exec (.csrrwi 5 0x780 31) (start cfgX 0x2 0)) illegal = true := by decide
/-- 11_state_machine_csrs.md R121, R135: the added entry point and the added interrupt source. -/
theorem test_extra_vector_interrupt :
    nextIs (exec .ebreak (start cfgX 0x0 0x400)) (fun s => s.pc = 0x300) = true
      ∧ nextIs (exec .ebreak (start cfgX 0x6 0x400)) (fun s => s.pc = 0x1C0) = true
      ∧ enabledSources { start cfgX 0x2 0 with mip := intBitsOfWord cfgX 0x100, mie := intBitsOfWord cfgX 0x100 }
        = [.extra 8 2] := by decide
/-- 20_memory.md R228, R247: an AMO needs a grant of stores; the attributes tell it from a store. -/
theorem test_amo_grant :
    reached (accessPath .amo 0x1000 4 (start Config.recommended 0x0 0)) 0x1000 0 1 0 = true
      ∧ faulted (accessPath .amo 0x1000 4
          (start { Config.recommended with
            pmaccess := [{ base := 0, size := 2 ^ 50, privs := [.u], accs := [.load, .amo] }] } 0x0 0)) 7 0x1000 = true
      ∧ faulted (accessPath .amo 0x1000 4
          (start { Config.recommended with
            pma := [{ base := 0, size := 2 ^ 50, kind := .memory, accs := [.load, .store], widths := [4] }] } 0x6 0))
          7 0x1000 = true := by decide
/-- 60_exceptions.md R471, D26: a write of `mtime` to the compare value sets MTIP at once; a write of `mtimecmp` to the
counter clears it, and it is set at the next tick. -/
theorem test_timer_writes :
    (writeTimeLow .m 0 State.reset).mip.mti = true ∧ (writeTimecmp .m 0 State.reset).mip.mti = false
      ∧ (advanceClock 0 (writeTimecmp .m 0 State.reset)).mip.mti = false
      ∧ (advanceClock 1 (writeTimeLow .m 9 (writeTimecmp .m 0 State.reset))).mip.mti = true
      ∧ (advanceClock 1 (writeTimeLow .m 9 State.reset)).mip.mti = false := by decide

/-- The state after reset with a word where the next step fetches. -/
def placed (w : Nat) : State := State.reset.withFetchWord 32 w

theorem witness_EncodeDecode : decode 0x10138073 = .ok (.sfenceVm 7) := by decide
theorem witness_UnallocatedSystemTraps_funct3 :
    FetchesWord (placed 0x00004073) (placed 0x00004073) 0x00004073 ∧ opcodeOf 0x00004073 = 0b1110011#7
      ∧ Unallocated 0x00004073 :=
  ⟨⟨by decide, by decide, 0x200, 0x201, 0x202, 0x203, by decide, by decide⟩, by decide, .inl (by decide)⟩
theorem witness_UnallocatedSystemTraps_rd :
    FetchesWord (placed 0x001000F3) (placed 0x001000F3) 0x001000F3 ∧ opcodeOf 0x001000F3 = 0b1110011#7
      ∧ Unallocated 0x001000F3 :=
  ⟨⟨by decide, by decide, 0x200, 0x201, 0x202, 0x203, by decide, by decide⟩, by decide,
    .inr ⟨by decide, .inl (by decide)⟩⟩
theorem witness_UnallocatedSystemTraps_rest :
    opcodeOf 0x00200073 = 0b1110011#7 ∧ Unallocated 0x00200073 ∧ opcodeOf 0x00008073 = 0b1110011#7
      ∧ Unallocated 0x00008073 :=
  ⟨by decide, .inr ⟨by decide, .inr (.inl (by decide))⟩, by decide, .inr ⟨by decide, .inr (.inr (by decide))⟩⟩
theorem witness_StepRunsDecoded :
    FetchesWord (placed 0x3000E073) (placed 0x3000E073) 0x3000E073 ∧ decode 0x3000E073 = .ok (.csrrsi 0 0x300 1)
      ∧ (Instr.csrrsi 0 0x300 1).wellFormed (placed 0x3000E073).cfg.nregs = true
      ∧ nextIs (exec (.csrrsi 0 0x300 1) (placed 0x3000E073)) (fun _ => true) = true :=
  ⟨⟨by decide, by decide, 0x200, 0x201, 0x202, 0x203, by decide, by decide⟩, by decide, by decide, by decide⟩
theorem witness_MachineFetch : (fun s : State => s.priv = .m ∧ s.cfg.ialign = .i32 ∧ s.pc.toNat % 4 = 0
    ∧ s.cfg.pmaOk .fetch (s.cfg.physical s.pc) 4 = true ∧ s.cfg.isDevice (s.cfg.physical s.pc) 4 = false)
    State.reset := by decide

/-- Code 0 at a misaligned `pc`, code 1 at an address no region holds, and at the second parcel with IALIGN = 16. -/
def fetchFault (c : Config) (pc : Word) (code : BitVec 4) (bad : Word) : Prop :=
  interruptAtBoundary (start c 0x6 pc) = none ∧ (start c 0x6 pc).stalled = false
    ∧ fetchPath (start c 0x6 pc) = .trap code bad (start c 0x6 pc)

theorem witness_FetchFaultTraps_misaligned : fetchFault Config.recommended 0x102 0 0x102 := by
  unfold fetchFault; decide
theorem witness_FetchFaultTraps_access : fetchFault { Config.recommended with pma := [] } 0x100 1 0x100 := by
  unfold fetchFault; decide
def parcelState : State :=
  { start { Config.recommended with
      ialign := .i16,
      pma := [{ base := 0, size := 0x102, kind := .memory, accs := [.fetch], widths := [2] }] } 0x6 0x100 with
    mem := [(0x100, 0x73)] }

theorem witness_FetchFaultTraps_parcel :
    interruptAtBoundary parcelState = none ∧ parcelState.stalled = false
      ∧ fetchPath parcelState = .trap 1 0x102 parcelState := by decide

/-- Outside the leaf entries: machine mode uses none. -/
theorem witness_FetchFaultTraps_outside : ¬InLeafPte parcelState parcelState.pc .fetch parcelState.priv 0x100 :=
  fun h => h.1 (by decide)

/-- V4's mapping with memory below 0x20000 alone: the fetch is translated, sets R in the leaf PTE at 0x11004 (R285), and
then fails at the physical address (R412). -/
def pagedFetch : State :=
  let s := sv32State 0x100000
  { s with
    pc := 0x401234
    cfg := { s.cfg with
      pma := [{ base := 0, size := 0x20000, kind := .memory, accs := [.fetch, .pteRead, .pteWrite], widths := [4] }] } }

theorem witness_FetchFaultTraps_paged :
    interruptAtBoundary pagedFetch = none ∧ pagedFetch.stalled = false
      ∧ faulted (fetchPath pagedFetch) 1 0x401234 = true
      ∧ Memory.readLE (translateAddress pagedFetch.pc .fetch pagedFetch.priv pagedFetch).2.mem 0x11004 4 = 0x20027 := by
  decide +kernel

/-- Machine mode with a value in x1. -/
def mstatusStart (c : Config) (v : Word) : State := (start c 0x6 0).writeReg 1 v

/-- Each ground of refusal: no such register, too little privilege, a write of a read-only register. -/
theorem witness_CsrAccessRefused :
    (csrUse Config.recommended (.csrrw 1 0x7C0 2) = some (1, 0x7C0, true) ∧ csrAt Config.recommended 0x7C0 = none)
      ∧ (csrUse Config.recommended (.csrrs 1 0x300 0) = some (1, 0x300, false)
        ∧ (start Config.recommended 0x2 0).priv.level < ((0x300 : CsrAddr).extractLsb' 8 2).toNat)
      ∧ csrUse Config.recommended (.csrrwi 1 0xF00 0) = some (1, 0xF00, true)
      ∧ (0xF00 : CsrAddr).extractLsb' 10 2 = 0b11#2
      ∧ csrUse Config.recommended (.csrrci 1 0x142 31) = some (1, 0x142, true)
      ∧ csrUse Config.recommended (.csrrsi 1 0x143 1) = some (1, 0x143, true) := by decide
/-- The check passes: a machine register, `fcsr` with FS on, an added register with XS on. -/
theorem witness_CsrAccessRefused_passes :
    csrAt Config.recommended 0x340 = some .mscratch ∧ csrUse Config.recommended (.csrrw 1 0x340 2) = some (1, 0x340, true)
      ∧ ((0x340 : CsrAddr).extractLsb' 8 2).toNat ≤ State.reset.priv.level
      ∧ (0x340 : CsrAddr).extractLsb' 10 2 ≠ 0b11#2 ∧ (0x340#12) ∉ [0x001#12, 0x002#12, 0x003#12]
      ∧ (start Config.recommended 0x6 0).cfg.extraCsrs = []
      ∧ csrAt cfgF 0x003 = some .fcsr ∧ (start cfgF 0x1000 0).mstatus.fs ≠ 0
      ∧ csrAt cfgX 0x7C0 = some (.extra 0) ∧ (start cfgX 0x4006 0).mstatus.xs ≠ 0 := by decide
theorem witness_CsrReadOnlyForms :
    csrUse Config.recommended (.csrrc 5 0xF00 0) = some (5, 0xF00, false)
      ∧ csrAccess State.reset 0xF00 false = some .mcpuid
      ∧ csrUse { Config.recommended with csrrwiZimm0Writes := false } (.csrrwi 5 0xF10 0) = some (5, 0xF10, false)
      ∧ csrAccess State.reset 0xF10 false = some .mhartid := by decide
theorem witness_CsrWriteForms :
    [Instr.csrrw 0 0x340 0, .csrrs 31 0x340 1, .csrrc 31 0x340 1, .csrrwi 0 0x340 0, .csrrsi 1 0x340 1,
        .csrrci 1 0x340 31].all (fun i => (csrUse Config.recommended i).any fun q => q.2.1 = 0x340 && q.2.2) = true
      ∧ csrAccess State.reset 0x340 true = some .mscratch
      ∧ csrUse Config.recommended (.csrrw 0 0x300 1) = some (0, 0x300, true)
      ∧ csrAccess (mstatusStart Config.recommended 0x60006) 0x300 true = some .mstatus
      ∧ (match csrWrite (mstatusStart Config.recommended 0x60006) .mstatus 0x60006 with
        | .error _ => true | .ok _ => false) = true := by decide
theorem witness_CsrWriteFrame :
    mstatusOk Config.recommended State.reset.mstatus = true
      ∧ wrote State.reset .mscratch 1 1 = true ∧ wrote State.reset .mstatus 0x7 0x7 = true
      ∧ wrote State.reset .sstatus 0x1 0x1 = true := by decide
theorem witness_CsrExistence :
    [(cfgE, 0xC80, Csr.cycleh), (cfgE, 0xC81, .timeh), (cfgE, 0xC82, .instreth), (cfgE, 0xD81, .stimeh),
        ({ cfgD with base := .rv32i }, 0xE81, .htimeh), (cfgE, 0x741, .mtimeh), (cfgE, 0x180, .sptbr),
        (cfgE, 0x181, .sasid), (cfgB, 0x380, .mbase), (cfgE, 0x385, .mdbound), (cfgF, 0x003, .fcsr),
        (cfgE, 0x100, .sstatus), (cfgD, 0x200, .hstatus), (cfgD, 0x243, .hbadaddr), (cfgX, 0x7C0, .extra 0),
        (cfgX, 0x780, .extra 1), (cfgX, 0x8C0, .extra 2)].all
      (fun q : Config × CsrAddr × Csr => csrAt q.1 q.2.1 = some q.2.2) = true := by decide
/-- Rows as the statement lists them, met and not met, and an address of no row. -/
theorem witness_CsrExistence_rows :
    (0x741, Csr.mtimeh, true) ∈ existenceRows cfgE ∧ (0x741, Csr.mtimeh, true) ∉ existenceRows Config.recommended
      ∧ (0x003, Csr.fcsr, true) ∈ existenceRows cfgF ∧ (0x181, Csr.sasid, true) ∉ existenceRows cfgB
      ∧ csrAt cfgB 0x181 = none ∧ csrAt cfgX 0x7C1 = none ∧ csrAt Config.recommended 0x780 = none := by decide

/-- An unsupported scheme; an unsupported mode in a live field; every field supported at depths 2 (M-only too), 3 and 4;
the set, clear and immediate forms. -/
theorem witness_MstatusWrite :
    csrUse Config.recommended (.csrrw 0 0x300 1) = some (0, 0x300, true)
      ∧ csrUse Config.recommended (.csrrs 5 0x300 1) = some (5, 0x300, true)
      ∧ csrUse Config.recommended (.csrrci 5 0x300 1) = some (5, 0x300, true)
      ∧ (mstatusStart cfgD 0).priv = .m
      ∧ Config.recommended.vmSupported ((0x60006 : Word).extractLsb' 17 5) = false
      ∧ Config.recommended.vmSupported ((0x4 : Word).extractLsb' 17 5) = true
      ∧ [(cfgM, (0x1003F : Word)), (cfgB, 0x3003F), (Config.recommended, 0x12F0DB), (cfgD, 0x13FFFF)].all
        (fun q => q.1.vmSupported (q.2.extractLsb' 17 5)
          && nextIs (exec (.csrrw 0 0x300 1) (mstatusStart q.1 q.2)) fun _ => true) = true := by decide
theorem witness_MstatusWrite_modes :
    namesUnsupportedMode Config.recommended 0x4 ∧ ¬namesUnsupportedMode Config.recommended 0x12F0DB
      ∧ ¬namesUnsupportedMode cfgM 0x1003F ∧ ¬namesUnsupportedMode cfgD 0x13FFFF := by
  refine ⟨⟨by decide, 0, by decide, by decide⟩, ?_, fun h => h.1 rfl, ?_⟩
  · rintro ⟨-, k, hk, h⟩
    have hk : k < 3 := hk
    interval_cases k <;> revert h <;> decide
  · rintro ⟨-, k, hk, h⟩
    have hk : k < 4 := hk
    interval_cases k <;> revert h <;> decide

/-- A read; a write that leaves S, one that leaves U and one that would leave H in `PRV1`; and `hstatus`. -/
theorem witness_SstatusView :
    cfgF.has .s = true ∧ mstatusOk cfgF (start cfgF 0x13F01B 0).mstatus = true ∧ (start cfgF 0x13F01B 0).priv = .s
      ∧ csrUse cfgF (.csrrs 1 0x100 0) = some (1, 0x100, false)
      ∧ csrUse cfgF (.csrrwi 1 0x100 16) = some (1, 0x100, true)
      ∧ nextIs (exec (.csrrwi 1 0x100 16) (start cfgF 0x13F01B 0)) (fun t => t.mstatus.e1.prv = .s) = true
      ∧ nextIs (exec (.csrrwi 1 0x100 0) (start cfgF 0x13F01B 0)) (fun t => t.mstatus.e1.prv = .u) = true
      ∧ mstatusOk cfgF (start cfgF 0x13F033 0).mstatus = true ∧ (start cfgF 0x13F033 0).mstatus.e1.prv = .m
      ∧ cfgF.has (Priv.ofBits (BitVec.ofBool (Priv.m.bits.getLsbD 1) ++ BitVec.ofBool ((0 : Word).getLsbD 4))) = false
      ∧ (match exec (.csrrwi 1 0x100 0) (start cfgF 0x13F033 0) with
        | .refused .unsupportedMode => true | _ => false) = true
      ∧ cfgD.has .h = true ∧ mstatusOk cfgD (start cfgD 0x5 0).mstatus = true ∧ (start cfgD 0x5 0).priv = .h
      ∧ nextIs (exec (.csrrci 1 0x200 1) (start cfgD 0x5 0)) (fun t => t.mstatus.e0.ie = false) = true := by decide
theorem witness_FloatStatus :
    csrUse cfgF (.csrrs 1 0x001 0) = some (1, 0x001, false) ∧ csrUse cfgF (.csrrw 1 0x002 2) = some (1, 0x002, true)
      ∧ csrUse cfgF (.csrrwi 1 0x003 0) = some (1, 0x003, true) ∧ (start cfgF 0x0 0).mstatus.fs = 0
      ∧ csrUse cfgF (.csrrci 1 0x001 31) = some (1, 0x001, true) ∧ cfgF.hasF = true
      ∧ (start cfgF 0x1000 0).mstatus.fs ≠ 0 := by decide
/-- An added register that XS tracks with XS off and on, and one that it does not track. -/
theorem witness_FloatStatus_extra :
    csrUse cfgX (.csrrw 1 0x7C0 2) = some (1, 0x7C0, true) ∧ csrAt cfgX 0x7C0 = some (.extra 0)
      ∧ (cfgX.extraCsrs[0]?).map (·.unitX) = some true ∧ (start cfgX 0x6 0).mstatus.xs = 0
      ∧ csrAccess (start cfgX 0x4006 0) 0x7C0 true = some (.extra 0) ∧ 0 < (start cfgX 0x4006 0).extra.length
      ∧ csrUse cfgX (.csrrs 1 0x780 0) = some (1, 0x780, false)
      ∧ csrAccess (start cfgX 0x6 0) 0x780 false = some (.extra 1) ∧ 1 < (start cfgX 0x6 0).extra.length := by decide
theorem witness_InterruptRegisterWrites : State.reset.cfg.extraInterrupts = [] ∧ cfgX.extraIntBits = 0x100
    ∧ cfgX.extraIntWritable = 0x100 := by decide
theorem witness_CompareWriteClears :
    csrUse Config.recommended (.csrrw 0 0x321 0) = some (0, 0x321, true)
      ∧ csrAccess State.reset 0x321 true = some .mtimecmp
      ∧ csrUse Config.recommended (.csrrsi 0 0x121 31) = some (0, 0x121, true)
      ∧ csrAccess State.reset 0x121 true = some .stimecmp
      ∧ csrUse cfgD (.csrrc 0 0x221 1) = some (0, 0x221, true)
      ∧ csrAccess (start cfgD 0x4 0) 0x221 true = some .htimecmp := by decide
theorem witness_DelegationWrites :
    Config.recommended.has .s = true ∧ cfgB.has .s = false ∧ cfgB.has .h = false ∧ cfgD.has .h = true
      ∧ cfgX.delegDefined.getLsbD 24 = true ∧ Config.recommended.delegDefined.getLsbD 24 = false
      ∧ Config.recommended.delegDefined.getLsbD 11 = true ∧ Config.recommended.delegDefined.getLsbD 23 = true
      ∧ Config.recommended.delegDefined.getLsbD 20 = false := by decide
theorem witness_TrapRegisterWrites :
    Config.recommended.trunc 0xFFFFFFFFFFFFFFFF = 0xFFFFFFFFFFFFFFFF ∧ cfgE.trunc 0xFFFFFFFF = 0xFFFFFFFF := by decide

/-- Bit 8 can be written, bit 20 takes the sign, bit 3 is hard-wired; and no bit can be written. -/
theorem witness_MtvecWrite :
    cfgF.valid = true ∧ cfgF.trunc 0x8000000000000100 = 0x8000000000000100
      ∧ cfgF.writeMtvec 0x8000000000000100 = 0xFFFFFFFFFFFFF100 ∧ cfgF.mtvecWmask ≠ 0
      ∧ cfgF.mtvecWmask.getLsbD 8 = true ∧ cfgF.mtvecWmask.getLsbD 20 = false ∧ cfgF.mtvecWmask.getLsbD 3 = false
      ∧ cfgF.mtvecWmask.getLsbD 63 = true
      ∧ (∀ j : Fin 63, 20 < j.val → cfgF.mtvecWmask.getLsbD j = false)
      ∧ cfgF.mtvecWmask.getLsbD 11 = true ∧ Config.recommended.mtvecWmask = 0 := by decide
theorem witness_BaseBoundAliases : cfgE.mbbid = true ∧ cfgB.mbbid = false := by decide
theorem witness_VectorAndPagingWrites :
    cfgE.trunc 0xFFFFFFFF = 0xFFFFFFFF ∧ cfgE.asidlen ≤ 64 ∧ cfgF.trunc 0 = 0 ∧ cfgF.asidlen = 64
      ∧ Config.recommended.asidlen = 0 := by decide
theorem witness_TimeRegisters :
    Config.recommended.isRv32 = false ∧ cfgE.isRv32 = true ∧ cfgE.trunc 0xFFFFFFFF = 0xFFFFFFFF
      ∧ (writeTimeLow .s 0 State.reset).mip.sti = true ∧ (writeTimeLow .h 0 State.reset).mip.hti = false
      ∧ (writeTimeLow .h 0 (State.ofReset cfgD)).mip.hti = true := by decide

/-! ### Witnesses: traps -/

theorem witness_TrapEntry : (start cfgD 0x0 0).cfg.modes ≠ .m ∧ badaddrValue State.reset (some 4) = 4
    ∧ trapTarget (start cfgX 0x0 0) 3 = .m ∧ (start cfgX 0x0 0).priv = .u
    ∧ (cfgX.extraVectors.any fun e => !e.interrupt && e.code = 3 && e.levels.contains .u) = true
    ∧ (cfgX.extraVectors.all fun e => e.code ≠ 2) = true := by decide
theorem witness_TrapTargetTable :
    (start cfgD 0x6 0).priv = .m ∧ (start cfgD 0x4 0).priv = .h ∧ (start cfgD 0x2 0).priv = .s
      ∧ (start cfgD 0x0 0).priv = .u ∧ cfgD.has .h = true ∧ (0xEE0FFF : Word).getLsbD 0 = true
      ∧ (0 : Word).getLsbD 0 = false ∧ (start Config.recommended 0x2 0).priv = .s
      ∧ Config.recommended.has .h = false ∧ Config.recommended.has .s = true ∧ cfgB.has .h = false
      ∧ cfgB.has .s = false := by decide
theorem witness_TrapNeverLowers :
    [(cfgD, (0x0 : Word)), (cfgD, 0x2), (cfgD, 0x4), (cfgD, 0x6), (cfgM, 0x6), (cfgB, 0x0)].all
      (fun q => q.1.has (start q.1 q.2 0).priv) = true := by decide
theorem witness_PushBits :
    [cfgM, cfgB, Config.recommended, cfgD].all
        (fun c => decide (Mstatus.hardwireStack c (State.ofReset c).mstatus = (State.ofReset c).mstatus) && c.has .m)
      = true ∧ cfgM.modes = .m ∧ cfgB.modes ≠ .m ∧ Config.recommended.modes ≠ .m ∧ cfgD.modes ≠ .m := by decide
theorem witness_PopBits :
    [cfgM, cfgB, Config.recommended, cfgD].all
        (fun c => decide (Mstatus.hardwireStack c (State.ofReset c).mstatus = (State.ofReset c).mstatus)) = true
      ∧ cfgM.modes = .m ∧ cfgD.modes ≠ .m := by decide

/-- An unsupported mode below; a rise where rises are refused; a rise where they are not; a return down. -/
theorem witness_EretReturns :
    (start Config.recommended 0x26 0).priv = .m ∧ Config.recommended.has (modeBelow (start Config.recommended 0x26 0)) = false
      ∧ (fun s : State => s.priv = .s ∧ s.cfg.has (modeBelow s) = true ∧ s.cfg.eretEscalation = .refuse
          ∧ s.priv.level < (modeBelow s).level) (start { Config.recommended with eretEscalation := .refuse } 0x32 0)
      ∧ (fun s : State => s.priv = .s ∧ s.cfg.has (modeBelow s) = true ∧ s.cfg.eretEscalation = .literal)
          (start Config.recommended 0x32 0)
      ∧ (fun s : State => s.priv = .m ∧ s.cfg.has (modeBelow s) = true ∧ (modeBelow s).level ≤ s.priv.level)
          (start { cfgM with eretEscalation := .refuse } 0x36 0) := by decide
theorem witness_PrivilegedIllegal :
    (start Config.recommended 0x0 0).priv = .u ∧ (start Config.recommended 0x2 0).priv ≠ .m ∧ cfgB.has .s = false
      ∧ Config.recommended.has .h = false := by decide
theorem witness_EcallEretRoundTrip : (fun s : State =>
    s.priv = .u ∧ s.cfg.modes ≠ .m ∧ s.mtdeleg.getLsbD 8 = false) (start cfgB 0x0 0x400) := by decide
theorem witness_RedirectInstructions :
    (start cfgD 0x6 0).priv = .m ∧ cfgD.has .s = true ∧ cfgD.has .h = true := by decide
theorem witness_DelegationAsRedirect :
    (start cfgD 0x0 0).priv ≠ .m ∧ (0xFFFFFF : Word).getLsbD 8 = true ∧ (0 : Word).getLsbD 8 = false
      ∧ trapTarget { start cfgD 0x0 0 with mtdeleg := 0x100 } 8 = .h
      ∧ trapTarget { start cfgD 0x0 0 with mtdeleg := 0x100, htdeleg := 0x100 } 8 = .s := by decide

/-! ### Witnesses: WFI, fences, interrupts -/

theorem witness_WfiCompletes :
    (start Config.recommended 0x2 0).priv ≠ .u
      ∧ pendingAny { State.reset with mip := { IntBits.none with ssi := true } } = true
      ∧ ({ State.reset with stalled := true } : State).stalled = true
      ∧ interruptAtBoundary { State.reset with stalled := true } = none
      ∧ interruptAtBoundary { State.reset with stalled := true, mip := { IntBits.none with ssi := true } } = none := by
  decide
theorem witness_SfenceRemoves : (fenceStart 1 0).priv ≠ .u := by decide
theorem witness_FencedTranslation :
    (fenceStart 0 0).priv ≠ .u ∧ (fenceStart 0 0).sasid = 0 ∧ (fenceStart 0 0).cfg.valid = true
      ∧ nextIs (exec (.sfenceVm 0) (fenceStart 0 0)) (fun _ => true) = true
      ∧ (sv32State 0x100002).mstatus.vm = 8 ∧ (sv32State 0x100002).sasid = 0 ∧ (sv32State 0x100002).priv = .s
      ∧ (start cfgF 0x120002 0).mstatus.vm = 9 ∧ (start cfgF 0x140002 0).mstatus.vm = 10 ∧ cfgF.valid = true
      ∧ canonical 0x40201ABC 39 = true ∧ canonical 0x40201ABC 48 = true := by decide
/-- V1 and V7: what steps 2 to 4 of the walk find, and find not. -/
theorem witness_FencedTranslation_leaf :
    memoryLeaf (sv32State 0x100002) (walkReq .load) 1 0x10000 = some (0x11004, 0, 0x20007)
      ∧ memoryLeaf (sv32State 0x100002) { walkReq .load with va := 0x801000 } 1 0x10000 = none := by decide +kernel
theorem witness_InterruptEnabled :
    intBitsOk Config.recommended (irqStart 0x3 0xA 0xA).mip = true ∧ IntSource.msi ∈ intSources Config.recommended
      ∧ intEnabled (irqStart 0x3 0xA 0xA) .msi = true ∧ cfgX.valid = true
      ∧ intBitsOk cfgX (intBitsOfWord cfgX 0x100) = true ∧ IntSource.extra 8 2 ∈ intSources cfgX := by decide
theorem witness_InterruptTaken :
    (irqStart 0x3 0xA 0xA).nmiPending = false ∧ intEnabled (irqStart 0x3 0xA 0xA) .msi = true
      ∧ intEnabled (irqStart 0x3 0xA 0xA) .ssi = true ∧ intEnabled (irqStart 0x7 0x80 0x80) .mti = true
      ∧ intEnabled { start cfgX 0x2 0 with mip := intBitsOfWord cfgX 0x100, mie := intBitsOfWord cfgX 0x100 } (.extra 8 2)
        = true := by decide
theorem witness_NmiTaken : (fun s : State => s.cfg.hasNmi = true ∧ s.nmiPending = true)
    { State.ofReset cfgF with nmiPending := true } := by decide
theorem witness_EnvironmentFrame :
    cfgD.has .s = true ∧ cfgD.has .h = true ∧ cfgB.has .s = false ∧ cfgB.has .h = false
      ∧ Config.recommended.remoteMsip = false ∧ Config.recommended.hasNmi = false
      ∧ ({ State.ofReset cfgF with nmiPending := true } : State).nmiPending = true
      ∧ (cfgX.extraCsrs[0]?).map (·.external) = some false ∧ (placed 0x3000E073).clock.hold = 0
      ∧ nextIs (step (placed 0x3000E073)) (fun _ => true) = true
      ∧ nextIs (step { placed 0x3000E073 with clock := { State.reset.clock with hold := 3 } })
        (fun t => t.clock.hold = 2 && t.clock.rtc = 0) = true := by decide

/-! ### Witnesses: memory and translation -/

theorem witness_MemoryLittleEndian : Memory.wf [(0, 1), (8, 2)] = true := by decide
theorem witness_StoreThenLoad :
    [1, 2, 4, 8].all (fun n => (0x1000 : Word).toNat % n = 0
        && decide ((State.reset).effPriv .store = .m) && decide ((State.reset).effPriv .load = .m)
        && Config.recommended.pmaOk .store (Config.recommended.physical 0x1000) n
        && Config.recommended.pmaOk .load (Config.recommended.physical 0x1000) n
        && !Config.recommended.isDevice (Config.recommended.physical 0x1000) n) = true
      ∧ Memory.wf State.reset.mem = true := by decide
theorem witness_MisalignedData :
    (0x1001 : Word).toNat % 2 ≠ 0 ∧ (0x1004 : Word).toNat % 8 ≠ 0 ∧ State.reset.cfg.misalignedDataOk = false := by
  decide
theorem witness_Untranslated :
    State.reset.effPriv .load = .m ∧ (start Config.recommended 0x0 0).mstatus.vm = 0
      ∧ physOk Config.recommended .load 0x1000 4 .u = true ∧ physOk Config.recommended .load (2 ^ 50 - 2) 4 .m = false
      ∧ Config.recommended.isDevice 0x1000 4 = false
      ∧ (start Config.recommended 0x0 0).effPriv .amo = .u ∧ Config.recommended.pmaccessOk .store 0x1000 .u = true
      ∧ Config.recommended.pmaOk .amo 0x1000 4 = true ∧ Config.recommended.pmaOk .amo (2 ^ 50 - 2) 4 = false := by decide
theorem witness_BaseAndBound :
    (mbbOnly 0x20000).mstatus.vm = 1 ∧ (mbbOnly 0x20000).effPriv .load ≠ .m ∧ cfgB.mbbid = false
      ∧ (mbbOnly 0x20000).seg.mbound.toNat ≤ (0x2000 : Word).toNat
      ∧ (0x1FFF : Word).toNat < (mbbOnly 0x20000).seg.mbound.toNat
      ∧ (mbbState 0x20000).mstatus.vm = 1 ∧ cfgE.mbbid = true ∧ (mbbState 0x20000).effPriv .fetch ≠ .m
      ∧ (0xFFF : Word).toNat < (mbbState 0x20000).seg.mibound.toNat
      ∧ (mbbState 0x20000).seg.mdbound.toNat ≤ (0x800 : Word).toNat := by decide
/-- R273: Mbb on a system with Mbbid: fetches by the instruction registers, data by the data registers. -/
theorem test_mbb_split :
    reached (accessPath .fetch 0x10 4 (mbbState 0x20000)) 0x200010 0 1 0 = true
      ∧ reached (accessPath .load 0x7FC 4 (mbbState 0x20000)) 0x3007FC 0 1 0 = true
      ∧ faulted (accessPath .load 0x800 4 (mbbState 0x20000)) 5 0x800 = true := by decide
theorem witness_SplitBaseAndBound :
    (mbbState 0x40000).mstatus.vm = 2 ∧ cfgE.trunc 0x80001000 = 0x80001000 ∧ cfgE.trunc 0x7FFFFFFF = 0x7FFFFFFF
      ∧ (0x7FFFFFFF : Word).toNat < 2 ^ (cfgE.xlen - 1) ∧ 2 ^ (cfgE.xlen - 1) ≤ (0x80001000 : Word).toNat
      ∧ (mbbState 0x40000).seg.mibound.toNat ≤ (0x80001000 : Word).toNat - 2 ^ (cfgE.xlen - 1)
      ∧ (0x80000FFF : Word).toNat - 2 ^ (cfgE.xlen - 1) < (mbbState 0x40000).seg.mibound.toNat
      ∧ (mbbState 0x40000).seg.mdbound.toNat ≤ (0x800 : Word).toNat
      ∧ (0x7FF : Word).toNat < (mbbState 0x40000).seg.mdbound.toNat := by decide
theorem witness_PagePermissions : 2 ≤ (2 : BitVec 4).toNat ∧ 2 ≤ (15 : BitVec 4).toNat ∧ Priv.u ≠ .m ∧ Priv.h ≠ .m := by
  decide

/-- A leaf with R clear for a load, a fetch that is not allowed, and a leaf with R set. -/
theorem witness_PageTableUpdate :
    Memory.wf (sv32State 0x100002).mem = true
      ∧ (findLeaf (walkReq .load) (sv32State 0x100002)).1.map (fun e => (e.pte, e.pteAddr, e.pteBytes))
        = some (0x20007, 0x11004, 4)
      ∧ (translatePaged (walkReq .load) (sv32State 0x100002)).1 = some 0x80234
      ∧ (translatePaged (walkReq .fetch) (sv32State 0x100002)).1 = none
      ∧ (0x20007 : Word) &&& pteUsedBits .load ≠ pteUsedBits .load
      ∧ (0x20027 : Word) &&& pteUsedBits .load = pteUsedBits .load := by decide +kernel
theorem witness_NonCanonicalFaults :
    (start Config.recommended 0x120002 0).effPriv .fetch ≠ .m ∧ (start Config.recommended 0x120002 0).mstatus.vm = 9
      ∧ (0x4000000000 : Word).getLsbD 39 ≠ (0x4000000000 : Word).getLsbD 38
      ∧ (start cfgF 0x140002 0).effPriv .load ≠ .m ∧ (start cfgF 0x140002 0).mstatus.vm = 10
      ∧ (0x8000000000000000 : Word).getLsbD 63 ≠ (0x8000000000000000 : Word).getLsbD 47 := by decide

/-! ### Witnesses: reset and invariants -/

theorem witness_ResetFixes : State.reset.cfg.mtvecReset = .low
    ∧ (State.ofReset { cfgE with mtvecReset := .high }).cfg.mtvecReset = .high := by decide
theorem witness_ResetLegal : cfgM.valid = true ∧ cfgD.valid = true := by decide
theorem witness_StepKeepsLegal :
    Inv (placed 0x3000E073) ∧ nextIs (step (placed 0x3000E073)) (fun _ => true) = true :=
  ⟨⟨by decide, by decide, by decide, by decide, by decide, by decide, by decide, by decide, by decide, by decide,
    by decide, by decide, by decide,
    decide_eq_true (show (0 : Word) &&& _ = 0 from BitVec.zero_and), by decide⟩, by decide⟩

/-- The mode changed by a trap, by ERET, by MRTS and MRTH, and by a write of `mstatus`. -/
theorem witness_PrivilegeChanges :
    [(cfgD, Instr.ecall, (0x0 : Word)), (cfgD, .eret, 0x6), (cfgD, .mrts, 0x6), (cfgD, .mrth, 0x6),
        (cfgD, .csrrwi 0 0x300 0, 0x6)].all
      (fun q => mstatusOk q.1 (start q.1 q.2.2 0).mstatus
        && nextIs (exec q.2.1 (start q.1 q.2.2 0)) (fun t => t.priv ≠ (start q.1 q.2.2 0).priv)) = true := by decide
theorem witness_UserIsolation :
    (start cfgF 0x1000 0).priv = .u
      ∧ nextIs (exec (.csrrs 5 0xC00 0) (start cfgF 0x1000 0)) (fun t => t.pc = 4) = true
      ∧ nextIs (exec (.csrrwi 5 0x001 31) (start cfgF 0x1000 0)) (fun t => t.mstatus.fs = 3) = true
      ∧ (start cfgX 0x0 0).priv = .u
      ∧ nextIs (exec (.csrrwi 5 0x800 16) (start cfgX 0x0 0)) (fun t => t.extra = [0, 0, 0x10]) = true
      ∧ (0x7C0 : CsrAddr).extractLsb' 8 2 ≠ 0#2 := by decide
theorem witness_SupervisorIsolation :
    (start cfgF 0x2 0).priv = .s ∧ mstatusOk cfgF (start cfgF 0x2 0).mstatus = true
      ∧ nextIs (exec (.csrrw 5 0x121 31) (start cfgF 0x2 0)) (fun t => t.pc = 4) = true
      ∧ nextIs (exec .eret (start cfgF 0x2 0)) (fun t => t.priv = .u) = true
      ∧ mstatusOk cfgX (start cfgX 0x2 0).mstatus = true
      ∧ nextIs (exec (.csrrwi 5 0x800 16) (start cfgX 0x2 0)) (fun t => t.extra = [0, 0, 0x10]) = true
      ∧ 2 ≤ ((0x7C0 : CsrAddr).extractLsb' 8 2).toNat := by decide

end Sys2Proof.Machine.Tests
end

section
/-!
Which register stands at an address (10_state.md R47 to R53), as equivalences: the listed registers by the rows of one
table, the added ones by the first entry of EXTRA_CSRS that answers.
-/

namespace Sys2Proof.Machine

/-- The listed CSRs, in the order in which `csrAt` searches them. -/
def csrTable : List (CsrAddr × Csr × CsrNeed) :=
  userCsrs ++ supervisorCsrs ++ hypervisorCsrs ++ machineCsrs

/-- The register is one that an implementation adds. -/
def Csr.isExtra : Csr → Bool
  | .extra _ => true
  | _ => false

theorem isExtra_eq_false_iff {r : Csr} : r.isExtra = false ↔ ∀ k, r ≠ .extra k := by
  cases r <;> simp [Csr.isExtra]

/-! ### The rows of the table -/

theorem csrTable_addresses_nodup : (csrTable.map Prod.fst).Nodup := by decide

theorem csrTable_standard : ∀ row ∈ csrTable, csrNonStandard row.1 = false := by decide

theorem csrTable_isExtra : ∀ row ∈ csrTable, row.2.1.isExtra = false := by decide

/-- The floating-point registers are those at the three addresses of R47. -/
theorem csrTable_isFp :
    ∀ row ∈ csrTable, row.2.1.isFp = true ↔ row.1 ∈ [0x001#12, 0x002#12, 0x003#12] := by decide

/-- The registers that need the floating-point unit are open to every level and can be written. -/
theorem csrTable_unitF :
    ∀ row ∈ csrTable, row.2.2 = .unitF → csrLevel row.1 = 0 ∧ csrReadOnly row.1 = false := by decide

theorem not_mem_csrTable_extra {a : CsrAddr} {k : Nat} {need : CsrNeed} : (a, Csr.extra k, need) ∉ csrTable :=
  fun h => Bool.noConfusion (csrTable_isExtra _ h)

/-! ### Searching the table and EXTRA_CSRS -/

/-- In a list that gives no address twice, a row whose need is met is the one found. -/
theorem findCsr_of_mem {c : Config} {a : CsrAddr} {r : Csr} {need : CsrNeed} {l : List (CsrAddr × Csr × CsrNeed)}
    (hd : (l.map Prod.fst).Nodup) (hm : (a, r, need) ∈ l) (hn : need.met c = true) : findCsr c a l = some r := by
  induction l with
  | nil => cases hm
  | cons row rest ih =>
    obtain ⟨b, q, n⟩ := row
    obtain ⟨hb, hrest⟩ := List.nodup_cons.1 hd
    rcases List.mem_cons.1 hm with heq | hin
    · cases heq
      simp [findCsr, hn]
    · have hne : a ≠ b := by
        rintro rfl
        exact hb (List.mem_map.2 ⟨_, hin, rfl⟩)
      simpa [findCsr, hne] using ih hrest hin

theorem findCsr_table_iff {c : Config} {a : CsrAddr} {r : Csr} :
    findCsr c a csrTable = some r ↔ ∃ need, (a, r, need) ∈ csrTable ∧ need.met c = true :=
  ⟨findCsr_some, fun ⟨_, hm, hn⟩ => findCsr_of_mem csrTable_addresses_nodup hm hn⟩

/-- The first entry that answers to the address is the one found. -/
theorem findExtra_of_first {a : CsrAddr} {l : List ExtraCsr} {k j : Nat} {e : ExtraCsr} (hj : l[j]? = some e)
    (ha : a ∈ e.addrs) (hfirst : ∀ i < j, ∀ d, l[i]? = some d → a ∉ d.addrs) :
    findExtra a k l = some (.extra (k + j)) := by
  induction l generalizing k j with
  | nil => simp at hj
  | cons d rest ih =>
    cases j with
    | zero =>
      cases hj
      simp [findExtra, ha]
    | succ j =>
      have hd : a ∉ d.addrs := hfirst 0 (Nat.zero_lt_succ j) d rfl
      have hrest := ih (k := k + 1) hj fun i hi => hfirst (i + 1) (Nat.succ_lt_succ hi)
      simpa [findExtra, hd, Nat.add_assoc, Nat.add_comm 1 j] using hrest

theorem findExtra_iff {a : CsrAddr} {l : List ExtraCsr} {k : Nat} : findExtra a 0 l = some (.extra k) ↔
    ∃ e, l[k]? = some e ∧ a ∈ e.addrs ∧ ∀ j < k, ∀ d, l[j]? = some d → a ∉ d.addrs := by
  constructor
  · intro h
    obtain ⟨j, e, hr, hj, ha, hfirst⟩ := findExtra_some h
    obtain rfl : k = j := by simpa using hr
    exact ⟨e, hj, ha, hfirst⟩
  · rintro ⟨e, hk, ha, hfirst⟩
    simpa using findExtra_of_first (k := 0) hk ha hfirst

/-- A listed register stands at an address exactly where a row whose need is met puts it. -/
theorem csrAt_listed_iff {c : Config} {a : CsrAddr} {r : Csr} (hr : r.isExtra = false) :
    csrAt c a = some r ↔ ∃ need, (a, r, need) ∈ csrTable ∧ need.met c = true := by
  constructor
  · intro h
    rcases csrAt_some h with hrow | ⟨-, k, e, rfl, -⟩
    · exact hrow
    · cases hr
  · intro h
    have hf : findCsr c a (userCsrs ++ supervisorCsrs ++ hypervisorCsrs ++ machineCsrs) = some r :=
      findCsr_table_iff.2 h
    simp only [csrAt, hf]

/-- An added register stands at an address exactly where the address is a non-standard one and the search finds it. -/
theorem csrAt_extra_iff {c : Config} {a : CsrAddr} {k : Nat} :
    csrAt c a = some (.extra k) ↔ csrNonStandard a = true ∧ findExtra a 0 c.extraCsrs = some (.extra k) := by
  unfold csrAt
  cases h : findCsr c a (userCsrs ++ supervisorCsrs ++ hypervisorCsrs ++ machineCsrs) with
  | none => simp
  | some q =>
    obtain ⟨need, hrow, -⟩ := findCsr_table_iff.1 h
    have hq : q ≠ .extra k := by
      rintro rfl
      exact not_mem_csrTable_extra hrow
    have hstd : csrNonStandard a = false := csrTable_standard (a, q, need) hrow
    simp [hq, hstd]

/-- An existing register is floating-point state exactly where its address is one of the three. -/
theorem csrAt_isFp_iff {c : Config} {a : CsrAddr} {r : Csr} (h : csrAt c a = some r) :
    r.isFp = true ↔ a ∈ [0x001#12, 0x002#12, 0x003#12] := by
  rcases csrAt_some h with ⟨need, hrow, -⟩ | ⟨hns, k, e, rfl, -⟩
  · exact csrTable_isFp _ hrow
  · have hne : a ∉ [0x001#12, 0x002#12, 0x003#12] := by
      simp only [List.mem_cons, List.not_mem_nil, or_false]
      rintro (rfl | rfl | rfl) <;> exact absurd hns (by decide)
    exact iff_of_false Bool.false_ne_true hne

/-! ### The rows of R47 to R50 -/

/-- A row of the table with its need decided by a configuration. -/
def CsrNeed.decideRow (c : Config) (row : CsrAddr × Csr × CsrNeed) : CsrAddr × Csr × Bool :=
  (row.1, row.2.1, row.2.2.met c)

theorem machineRows_eq (c : Config) : machineRows c = machineCsrs.map (CsrNeed.decideRow c) := by
  simp [machineRows, machineCsrs, CsrNeed.decideRow, CsrNeed.met, Bool.and_comm]

/-- The first 13 of the supervisor's addresses are its own; the other six write the user's counters. -/
theorem supervisorRows_eq (c : Config) : supervisorRows c = (supervisorCsrs.take 13).map (CsrNeed.decideRow c) := by
  simp [supervisorRows, supervisorCsrs, CsrNeed.decideRow, CsrNeed.met, Bool.and_comm]

theorem hypervisorRows_eq (c : Config) : hypervisorRows c = hypervisorCsrs.map (CsrNeed.decideRow c) := by
  simp [hypervisorRows, hypervisorCsrs, CsrNeed.decideRow, CsrNeed.met, Bool.and_comm]

theorem userRows_eq (c : Config) :
    userRows c = (userCsrs ++ supervisorCsrs.drop 13).map (CsrNeed.decideRow c) := by
  simp [userRows, userCsrs, supervisorCsrs, CsrNeed.decideRow, CsrNeed.met, Bool.and_comm]

/-- The rows of the spec are those of the table, their needs decided. -/
theorem mem_existenceRows_iff {c : Config} {a : CsrAddr} {r : Csr} {b : Bool} :
    (a, r, b) ∈ existenceRows c ↔ ∃ need, (a, r, need) ∈ csrTable ∧ need.met c = b := by
  have hsup : ∀ row, row ∈ supervisorCsrs ↔ row ∈ supervisorCsrs.take 13 ∨ row ∈ supervisorCsrs.drop 13 := by
    intro row
    rw [← List.mem_append, List.take_append_drop]
  have hmap : ∀ l : List (CsrAddr × Csr × CsrNeed),
      (a, r, b) ∈ l.map (CsrNeed.decideRow c) ↔ ∃ need, (a, r, need) ∈ l ∧ need.met c = b := by
    intro l
    simp [CsrNeed.decideRow]
  simp only [existenceRows, csrTable, machineRows_eq, supervisorRows_eq, hypervisorRows_eq, userRows_eq,
    ← List.map_append, hmap, List.mem_append, hsup]
  refine exists_congr fun need => and_congr_left fun _ => ?_
  tauto

/-- Settles O13: the search of the table and of EXTRA_CSRS, each as an equivalence. -/
theorem csrExistence : Obligations.CsrExistence := by
  unfold Obligations.CsrExistence
  intro c a
  refine ⟨fun r hr => ?_, fun k => ?_⟩
  · rw [csrAt_listed_iff (isExtra_eq_false_iff.2 hr), mem_existenceRows_iff]
  · rw [csrAt_extra_iff, findExtra_iff]

end Sys2Proof.Machine
end

section
/-!
The access check and the six steps of a CSR instruction (10_state.md R42, R54; 40_csr_instructions.md R350), an equation
per outcome, and the step that runs a decoded instruction.
-/

namespace Sys2Proof.Machine

/-! ### The access check -/

theorem csrReadOnly_iff {a : CsrAddr} :
    csrReadOnly a = true ↔ (a.extractLsb' 10 2 = 0b11#2 ∨ a = 0x142#12 ∨ a = 0x143#12) := by
  simp [csrReadOnly, or_assoc]

/-- The access check refuses an instruction on any of R42's grounds. -/
theorem csrAccess_eq_none {s : State} {a : CsrAddr} {w : Bool}
    (h : csrAt s.cfg a = none ∨ s.priv.level < csrLevel a ∨ (w = true ∧ csrReadOnly a = true)) :
    csrAccess s a w = none := by
  rw [Option.eq_none_iff_forall_not_mem]
  intro r hr
  obtain ⟨hat, hlevel, hwrite, -⟩ := csrAccess_some.1 hr
  rcases h with hnone | hlow | ⟨hw, hro⟩
  · rw [hnone] at hat
    cases hat
  · omega
  · rw [hwrite hw] at hro
    cases hro

/-- The access check refuses a register that is state of a unit that is Off (R54). -/
theorem csrAccess_eq_none_of_unitOff {s : State} {a : CsrAddr} {w : Bool} {r : Csr} (hat : csrAt s.cfg a = some r)
    (hoff : csrUnitOff s r = true) : csrAccess s a w = none := by
  rw [Option.eq_none_iff_forall_not_mem]
  intro q hq
  obtain ⟨hatq, -, -, hon⟩ := csrAccess_some.1 hq
  obtain rfl : r = q := Option.some.inj (hat.symm.trans hatq)
  rw [hoff] at hon
  cases hon

/-- An added register is state of XS where its entry says so. -/
theorem isX_extra {c : Config} {k : Nat} {e : ExtraCsr} (hk : c.extraCsrs[k]? = some e) :
    (Csr.extra k).isX c = e.unitX := by
  simp [Csr.isX, hk]

/-- Only an added register is state of XS. -/
theorem isExtra_of_isX {c : Config} {r : Csr} (h : r.isX c = true) : r.isExtra = true := by
  unfold Csr.isX at h
  split at h
  · rfl
  · cases h

/-- An existing register that is state of XS is an added one, which answers to the address. -/
theorem csrAt_isX {c : Config} {a : CsrAddr} {r : Csr} (hat : csrAt c a = some r) (hx : r.isX c = true) :
    ∃ e ∈ c.extraCsrs, a ∈ e.addrs ∧ e.unitX = true := by
  rcases csrAt_some hat with ⟨need, hrow, -⟩ | ⟨-, k, e, rfl, hk, ha⟩
  · have hlisted : r.isExtra = false := csrTable_isExtra (a, r, need) hrow
    rw [isExtra_of_isX hx] at hlisted
    cases hlisted
  · exact ⟨e, List.mem_of_getElem? hk, ha, isX_extra hk ▸ hx⟩

/-! ### The six steps -/

/-- Where the access check refuses, the instruction is illegal and nothing else happens. -/
theorem csrInstr_illegal {rd : Reg} {a : CsrAddr} {w : Bool} {new : Word → Word} {s : State}
    (h : csrAccess s a w = none) : csrInstr rd a w new s = .next (raiseException 2 none s) := by
  simp only [csrInstr, h, raiseIllegal]

/-- A form that does not write reads the register into `rd`. -/
theorem csrInstr_read {rd : Reg} {a : CsrAddr} {new : Word → Word} {s : State} {r : Csr}
    (h : csrAccess s a false = some r) :
    csrInstr rd a false new s = .next ((s.writeReg rd (csrRead s r)).advance) := by
  simp [csrInstr, h]

/-- A form that writes, where the register takes the value. -/
theorem csrInstr_write {rd : Reg} {a : CsrAddr} {new : Word → Word} {s t : State} {r : Csr}
    (h : csrAccess s a true = some r) (ht : csrWrite s r (s.cfg.trunc (new (csrRead s r))) = .ok t) :
    csrInstr rd a true new s = .next ((t.writeReg rd (csrRead s r)).advance) := by
  simp [csrInstr, h, ht]

/-- Settles O9: each ground of R42 makes the access check refuse, and with none of them and the unit on it passes. -/
theorem csrAccessRefused : Obligations.CsrAccessRefused := by
  unfold Obligations.CsrAccessRefused
  intro i s rd a w huse
  refine ⟨fun hground => ?_, fun r hat hlevel hwrite hfs hxs => ?_⟩
  · rw [← csrReadOnly_iff] at hground
    rw [exec_csrUse huse, csrInstr_illegal (csrAccess_eq_none hground)]
  · have hro : w = true → csrReadOnly a = false := fun hw => by
      rw [← Bool.not_eq_true, csrReadOnly_iff]
      simpa using hwrite hw
    have hfp : r.isFp = true → s.mstatus.fs ≠ 0 := fun hr =>
      hfs.resolve_right (not_not.2 ((csrAt_isFp_iff hat).1 hr))
    have hx : r.isX s.cfg = true → s.mstatus.xs ≠ 0 := fun hr => by
      obtain ⟨e, he, ha, hunit⟩ := csrAt_isX hat hr
      refine hxs.resolve_right fun hall => ?_
      rw [hall e he ha] at hunit
      cases hunit
    exact csrAccess_some.2 ⟨hat, hlevel, hro, csrUnitOff_false.2 ⟨hfp, hx⟩⟩

/-! ### The step that runs a decoded instruction -/

theorem FetchesWord.cfg_eq {s s1 : State} {w : BitVec 32} (h : FetchesWord s s1 w) : s1.cfg = s.cfg := by
  obtain ⟨-, -, a, b, c, d, hfetch, -⟩ := h
  rw [(fetchPath_done hfetch).1]

/-- The bytes of a word that decodes are read as its instruction. -/
theorem decodeFetched_bytesOfWord {w : BitVec 32} {i : Instr} (h : decode w = .ok i) :
    decodeFetched (bytesOfWord w) = .ok i := by
  have hbytes : decodeBytes (bytesOfWord w) = .ok (i, []) := by
    simpa [h, Except.map] using decodeBytes_bytesOfWord w []
  simp only [decodeFetched, hbytes]

/-- A step that fetches a word, with no interrupt taken and no stall, runs what the word's bytes decode to. -/
theorem step_of_fetchesWord {s s1 : State} {w : BitVec 32} (h : FetchesWord s s1 w) :
    step s = andThen environment (andThen retire (runDecoded (decodeFetched (bytesOfWord w)) s1)) := by
  obtain ⟨hint, hstall, a, b, c, d, hfetch, hbytes⟩ := h
  simp [step, cycle, hint, hstall, runInstruction, hfetch, hbytes]

/-- Settles O5: the fetch keeps the configuration, so the instruction is well-formed in the state it leaves too. -/
theorem stepRunsDecoded : Obligations.StepRunsDecoded := by
  unfold Obligations.StepRunsDecoded
  intro s s1 w i hfetch hdec hwf
  rw [← hfetch.cfg_eq] at hwf
  have hrun : runDecoded (decodeFetched (bytesOfWord w)) s1 = exec i s1 := by
    simp only [decodeFetched_bytesOfWord hdec, runDecoded, hwf, if_true]
  rw [step_of_fetchesWord hfetch, hrun]
  cases exec i s1 <;> rfl

end Sys2Proof.Machine
end

section
/-!
What a CSR write can change (10_state.md R52): said once, by the kind of register, and the frame that follows.
-/

namespace Sys2Proof.Machine

/-- The states differ at most in CSRs other than `mstatus`, `fcsr` and the added ones, and not in the platform's clock. -/
def SameButPlainCsrs (s t : State) : Prop :=
  t = { s with
    mip := t.mip, mie := t.mie, mtvec := t.mtvec, htvec := t.htvec, stvec := t.stvec, mtdeleg := t.mtdeleg,
    htdeleg := t.htdeleg, tm := t.tm, th := t.th, ts := t.ts, seg := t.seg, sptbr := t.sptbr, sasid := t.sasid,
    clock := { t.clock with rtc := s.clock.rtc, hold := s.clock.hold } }

/-- A write that completes is one of `mstatus`, one through its restricted view, one of bits of `fcsr`, one of an added
register, or one of a plain CSR. -/
theorem csrWrite_ok {s t : State} {r : Csr} {v : Word} (h : csrWrite s r v = .ok t) :
    (r = .mstatus ∧ writeMstatus s v = .ok t)
      ∨ writeSstatus s v = .ok t
      ∨ (∃ mask bits, t = writeFcsr s mask bits)
      ∨ (∃ k, r = .extra k ∧ t = writeExtra s k v)
      ∨ SameButPlainCsrs s t := by
  cases r
  case mstatus => exact .inl ⟨rfl, h⟩
  case sstatus | hstatus => exact .inr (.inl h)
  case fflags | frm | fcsr =>
    cases h
    exact .inr (.inr (.inl ⟨_, _, rfl⟩))
  case extra k =>
    cases h
    exact .inr (.inr (.inr (.inl ⟨k, rfl, rfl⟩)))
  all_goals
    cases h
    exact .inr (.inr (.inr (.inr rfl)))

/-! ### The restricted view of `mstatus` -/

/-- A field of `mstatus` outside the view is in the word that a write through the view makes as it was. -/
theorem sstatus_word_extract {old v : Word} {lo n : Nat} (h : ∀ k < n, sstatusMask.getLsbD (lo + k) = false) :
    ((old &&& ~~~sstatusMask) ||| (v &&& sstatusMask)).extractLsb' lo n = old.extractLsb' lo n := by
  ext k hk
  simp only [BitVec.getElem_extractLsb', BitVec.getLsbD_or, BitVec.getLsbD_and, BitVec.getLsbD_not, h k hk]
  by_cases hlt : lo + k < 64
  · simp [hlt]
  · simp [BitVec.getLsbD_of_ge old (lo + k) (by omega)]

theorem hardwireStack_of_mstatusOk {c : Config} {m : Mstatus} (h : mstatusOk c m = true) :
    Mstatus.hardwireStack c m = m := by
  simp only [mstatusOk, Bool.and_eq_true, decide_eq_true_eq] at h
  obtain ⟨⟨⟨hstack, -⟩, -⟩, -⟩ := h
  exact hstack

/-- A write through the restricted view changes `mstatus` alone, and neither its mode nor its scheme. -/
theorem writeSstatus_ok {s t : State} {v : Word} (hm : mstatusOk s.cfg s.mstatus = true)
    (h : writeSstatus s v = .ok t) :
    t = { s with mstatus := t.mstatus } ∧ t.mstatus.e0.prv = s.mstatus.e0.prv ∧ t.mstatus.vm = s.mstatus.vm := by
  obtain ⟨rfl, -, -⟩ := writeMstatus_ok.1 h
  refine ⟨rfl, ?_, ?_⟩
  · have hwired : (s.mstatus.e0.hardwire s.cfg).prv = s.mstatus.e0.prv :=
      congrArg (fun m : Mstatus => m.e0.prv) (hardwireStack_of_mstatusOk hm)
    have hword : (stackEntryAt ((s.mstatus.fields &&& ~~~sstatusMask) ||| (v &&& sstatusMask)) 0).prv
        = s.mstatus.e0.prv := by
      simp only [stackEntryAt, Nat.zero_add]
      rw [sstatus_word_extract (by decide), fields_p0, ofBits_bits]
    rw [← hwired]
    simp only [Mstatus.hardwireUnits, Mstatus.hardwireStack, mstatusOfWord, StackEntry.hardwire]
    split
    · rfl
    · exact hword
  · simp only [Mstatus.hardwireUnits, Mstatus.hardwireStack, mstatusOfWord]
    rw [sstatus_word_extract (by decide), fields_vm]

/-! ### The added registers -/

/-- A write of an added register, where the state holds its entry. -/
theorem writeExtra_of_entry {s : State} {k : Nat} {e : ExtraCsr} {v : Word} (hk : s.cfg.extraCsrs[k]? = some e) :
    writeExtra s k v =
      { s with
        extra := s.extra.set k (maskedWrite (s.extra.getD k 0) e.mask v)
        mstatus := { s.mstatus with xs := if e.unitX then 3 else s.mstatus.xs } } := by
  simp only [writeExtra, hk]

/-- A write of an added register changes the added registers and XS at most. -/
theorem writeExtra_frame (s : State) (k : Nat) (v : Word) :
    writeExtra s k v =
      { s with
        extra := (writeExtra s k v).extra
        mstatus := { s.mstatus with xs := (writeExtra s k v).mstatus.xs } } := by
  cases hk : s.cfg.extraCsrs[k]? with
  | none => simp only [writeExtra, hk]
  | some e => simp only [writeExtra_of_entry hk]

/-- Settles O12, by the kinds of write. -/
theorem csrWriteFrame : Obligations.CsrWriteFrame := by
  unfold Obligations.CsrWriteFrame State.priv
  intro s t r v hm h
  rcases csrWrite_ok h with ⟨rfl, hw⟩ | hw | ⟨mask, bits, rfl⟩ | ⟨k, rfl, rfl⟩ | hw
  · obtain ⟨rfl, -, -⟩ := writeMstatus_ok.1 hw
    simp
  · obtain ⟨ht, hprv, hvm⟩ := writeSstatus_ok hm hw
    rw [ht]
    simp [hprv, hvm]
  · simp
  · rw [writeExtra_frame]
    simp
  · rw [hw]
    simp

end Sys2Proof.Machine
end

section
/-!
The status fields FS and XS under CSR instructions (10_state.md R54; 11_state_machine_csrs.md R110, R112): an instruction
that names state of a unit that is Off is illegal, and a write makes the unit's state Dirty.
-/

namespace Sys2Proof.Machine

/-! ### Masked writes -/

theorem maskedWrite_and_mask (old mask v : Word) : maskedWrite old mask v &&& mask = v &&& mask := by
  ext k hk
  cases h : mask[k] <;> simp [maskedWrite, h]

/-- Bits outside the mask keep their value. -/
theorem maskedWrite_and_of_disjoint {old mask v keep : Word} (h : keep &&& mask = 0) :
    maskedWrite old mask v &&& keep = old &&& keep := by
  ext k hk
  have hbit : keep[k] = true → mask[k] = false := by
    simpa using congrArg (fun w : Word => w[k]) h
  cases hkeep : keep[k] with
  | false => simp [hkeep]
  | true => simp [maskedWrite, hkeep, hbit hkeep]

theorem maskedWrite_xor_old (old mask v : Word) : (maskedWrite old mask v ^^^ old) &&& ~~~mask = 0 := by
  ext k hk
  cases h : mask[k] <;> simp [maskedWrite, h]

theorem frmMask_and_fflagsMask (c : Config) : frmMask c &&& fflagsMask c = 0 := by
  simp [frmMask, BitVec.and_assoc]

theorem fflagsMask_and_frmMask (c : Config) : fflagsMask c &&& frmMask c = 0 := by
  rw [BitVec.and_comm, frmMask_and_fflagsMask]

/-! ### `rd` and `pc` at the end of a CSR instruction -/

theorem writeReg_frame (s : State) (rd : Reg) (v : Word) :
    s.writeReg rd v = { s with x := (s.writeReg rd v).x } := by
  unfold State.writeReg
  split <;> rfl

/-- A CSR instruction changes `rd` and `pc` beside what its write does. -/
theorem writeReg_advance_frame (s : State) (rd : Reg) (v : Word) :
    (s.writeReg rd v).advance
      = { s with x := (s.writeReg rd v).advance.x, pc := s.cfg.trunc (s.pc + 4) } := by
  rw [writeReg_frame]
  rfl

/-! ### Floating-point state -/

/-- Where the unit is present and on, the access check passes at the addresses of the floating-point state. -/
theorem csrAccess_fp {s : State} {a : CsrAddr} {r : Csr} (w : Bool) (hrow : (a, r, CsrNeed.unitF) ∈ csrTable)
    (hf : s.cfg.hasF = true) (hfs : s.mstatus.fs ≠ 0) : csrAccess s a w = some r := by
  obtain ⟨hlevel, hro⟩ := csrTable_unitF _ hrow rfl
  have hlisted : r.isExtra = false := csrTable_isExtra (a, r, .unitF) hrow
  have hx : r.isX s.cfg = true → s.mstatus.xs ≠ 0 := fun h => by
    rw [isExtra_of_isX h] at hlisted
    cases hlisted
  have hat : csrAt s.cfg a = some r := (csrAt_listed_iff hlisted).2 ⟨.unitF, hrow, hf⟩
  exact csrAccess_some.2 ⟨hat, hlevel ▸ Nat.zero_le _, fun _ => hro, csrUnitOff_false.2 ⟨fun _ => hfs, hx⟩⟩

/-- With FS Off the access check refuses the addresses of the floating-point state, whether the unit is present or not. -/
theorem csrAccess_fp_off {s : State} {a : CsrAddr} {w : Bool} (ha : a ∈ [0x001#12, 0x002#12, 0x003#12])
    (hfs : s.mstatus.fs = 0) : csrAccess s a w = none := by
  cases hat : csrAt s.cfg a with
  | none => exact csrAccess_eq_none (.inl hat)
  | some r =>
    have hoff : csrUnitOff s r = true := by
      simp [csrUnitOff, (csrAt_isFp_iff hat).2 ha, hfs]
    exact csrAccess_eq_none_of_unitOff hat hoff

/-- What every CSR instruction that names floating-point state does, whichever of the three registers it is. -/
def FloatFrame (s t : State) (w : Bool) : Prop :=
  t.mstatus = { s.mstatus with fs := if w then 3 else s.mstatus.fs }
    ∧ t = { s with x := t.x, pc := s.cfg.trunc (s.pc + 4), fp := t.fp, mstatus := t.mstatus }
    ∧ (w = false → t.fp = s.fp) ∧ t.fp.f = s.fp.f

theorem floatFrame_read (s : State) (rd : Reg) (old : Word) :
    FloatFrame s (s.writeReg rd old).advance false := by
  refine ⟨by simp, ?_, by simp, by simp⟩
  rw [writeReg_advance_frame]

theorem floatFrame_write (s : State) (rd : Reg) (old mask bits : Word) :
    FloatFrame s ((writeFcsr s mask bits).writeReg rd old).advance true := by
  refine ⟨by simp, ?_, by simp, by simp⟩
  rw [writeReg_advance_frame]
  rfl

/-- An instruction that names floating-point state and does not write. -/
theorem exec_fp_read {i : Instr} {s : State} {rd : Reg} {a : CsrAddr} {r : Csr}
    (huse : csrUse s.cfg i = some (rd, a, false)) (hrow : (a, r, CsrNeed.unitF) ∈ csrTable) (hf : s.cfg.hasF = true)
    (hfs : s.mstatus.fs ≠ 0) : ∃ t, exec i s = .next t ∧ FloatFrame s t false := by
  refine ⟨(s.writeReg rd (csrRead s r)).advance, ?_, floatFrame_read s rd (csrRead s r)⟩
  rw [exec_csrUse huse, csrInstr_read (csrAccess_fp false hrow hf hfs)]

/-- An instruction that writes floating-point state: `fcsr` takes the written bits under the register's mask. -/
theorem exec_fp_write {i : Instr} {s : State} {rd : Reg} {a : CsrAddr} {r : Csr} {mask bits : Word}
    (huse : csrUse s.cfg i = some (rd, a, true)) (hrow : (a, r, CsrNeed.unitF) ∈ csrTable) (hf : s.cfg.hasF = true)
    (hfs : s.mstatus.fs ≠ 0)
    (hw : csrWrite s r (s.cfg.trunc (csrNew s (csrRead s r) i)) = .ok (writeFcsr s mask bits)) :
    ∃ t, exec i s = .next t ∧ FloatFrame s t true ∧ t.cfg = s.cfg
      ∧ t.fp.fcsr = maskedWrite s.fp.fcsr mask bits := by
  refine ⟨((writeFcsr s mask bits).writeReg rd (csrRead s r)).advance, ?_,
    floatFrame_write s rd (csrRead s r) mask bits, by simp, by simp⟩
  rw [exec_csrUse huse, csrInstr_write (new := fun old => csrNew s old i) (csrAccess_fp true hrow hf hfs) hw]

/-! ### Added registers -/

/-- With XS Off the access check refuses an added register that is state of the extension. -/
theorem csrAccess_extra_off {s : State} {a : CsrAddr} {w : Bool} {k : Nat} {e : ExtraCsr}
    (hat : csrAt s.cfg a = some (.extra k)) (hk : s.cfg.extraCsrs[k]? = some e) (hunit : e.unitX = true)
    (hxs : s.mstatus.xs = 0) : csrAccess s a w = none := by
  have hoff : csrUnitOff s (.extra k) = true := by
    simp [csrUnitOff, isX_extra hk, hunit, hxs]
  exact csrAccess_eq_none_of_unitOff hat hoff

/-- The value an added register reads after a write of it. -/
theorem csrRead_extra_of_set {s t : State} {k : Nat} {v : Word} (hlen : k < s.extra.length)
    (ht : t.extra = s.extra.set k v) : csrRead t (.extra k) = v := by
  simp [csrRead, ht, hlen]

/-- What a CSR instruction that names the added register `k` does beside writing it. -/
def ExtraFrame (s t : State) (k : Nat) (dirty : Bool) : Prop :=
  t = { s with x := t.x, pc := s.cfg.trunc (s.pc + 4), extra := t.extra, mstatus := t.mstatus }
    ∧ t.mstatus = { s.mstatus with xs := if dirty then 3 else s.mstatus.xs }
    ∧ ∀ j, j ≠ k → t.extra[j]? = s.extra[j]?

theorem extraFrame_read (s : State) (rd : Reg) (old : Word) (k : Nat) :
    ExtraFrame s (s.writeReg rd old).advance k false := by
  refine ⟨?_, by simp, fun j _ => by simp⟩
  rw [writeReg_advance_frame]

theorem extraFrame_write {s : State} {k : Nat} {e : ExtraCsr} (rd : Reg) (old v : Word)
    (hk : s.cfg.extraCsrs[k]? = some e) :
    ExtraFrame s ((writeExtra s k v).writeReg rd old).advance k e.unitX := by
  rw [writeExtra_of_entry hk]
  refine ⟨?_, by simp, fun j hj => by simp [List.getElem?_set_ne hj.symm]⟩
  rw [writeReg_advance_frame]

/-- An instruction that names an added register and does not write it. -/
theorem exec_extra_read {i : Instr} {s : State} {rd : Reg} {a : CsrAddr} {k : Nat}
    (huse : csrUse s.cfg i = some (rd, a, false)) (hacc : csrAccess s a false = some (.extra k)) :
    ∃ t, exec i s = .next t ∧ ExtraFrame s t k false ∧ t.extra = s.extra := by
  refine ⟨(s.writeReg rd (csrRead s (.extra k))).advance, ?_, extraFrame_read s rd _ k, by simp⟩
  rw [exec_csrUse huse, csrInstr_read hacc]

/-- An instruction that writes an added register: it takes the new value under the entry's mask. -/
theorem exec_extra_write {i : Instr} {s : State} {rd : Reg} {a : CsrAddr} {k : Nat} {e : ExtraCsr}
    (huse : csrUse s.cfg i = some (rd, a, true)) (hacc : csrAccess s a true = some (.extra k))
    (hk : s.cfg.extraCsrs[k]? = some e) (hlen : k < s.extra.length) :
    ∃ t, exec i s = .next t ∧ ExtraFrame s t k e.unitX
      ∧ csrRead t (.extra k) = maskedWrite (csrRead s (.extra k)) e.mask
          (s.cfg.trunc (csrNew s (csrRead s (.extra k)) i)) := by
  refine ⟨_, ?_, extraFrame_write rd (csrRead s (.extra k)) (s.cfg.trunc (csrNew s (csrRead s (.extra k)) i)) hk, ?_⟩
  · rw [exec_csrUse huse, csrInstr_write hacc rfl]
  · exact csrRead_extra_of_set hlen (by simp [writeExtra_of_entry hk, csrRead])

/-- Settles O17: at the three floating-point addresses by the status of the unit, the will-write predicate and the
register; of an added register by the same two. -/
theorem floatStatus : Obligations.FloatStatus := by
  unfold Obligations.FloatStatus
  intro i s rd a w huse
  refine ⟨fun ha => ⟨?fpOff, ?fpOn⟩, fun k e hat hk => ⟨?extraOff, ?extraOn⟩⟩
  case fpOff =>
    intro hoff
    rw [exec_csrUse huse, csrInstr_illegal (csrAccess_fp_off (by simpa using ha) hoff)]
  case fpOn =>
    intro hf hfs
    cases w with
    | false =>
      have hrow : ∃ r, (a, r, CsrNeed.unitF) ∈ csrTable := by
        rcases ha with rfl | rfl | rfl
        · exact ⟨.fflags, by decide⟩
        · exact ⟨.frm, by decide⟩
        · exact ⟨.fcsr, by decide⟩
      obtain ⟨r, hrow⟩ := hrow
      obtain ⟨t, ht, hm, hframe, hfp, hregs⟩ := exec_fp_read huse hrow hf hfs
      exact ⟨t, ht, hm, hframe, hfp, hregs, nofun, nofun, nofun⟩
    | true =>
      rcases ha with rfl | rfl | rfl
      · obtain ⟨t, ht, ⟨hm, hframe, hfp, hregs⟩, hcfg, hfcsr⟩ :=
          exec_fp_write (r := .fflags) huse (by decide) hf hfs rfl
        refine ⟨t, ht, hm, hframe, hfp, hregs, fun _ _ => ⟨?_, ?_, ?_⟩, fun _ h => absurd h (by decide),
          fun _ h => absurd h (by decide)⟩
        · simp only [csrRead, hcfg, hfcsr, maskedWrite_and_mask]
        · simp only [csrRead, hcfg, hfcsr, maskedWrite_and_of_disjoint (frmMask_and_fflagsMask s.cfg)]
        · rw [hfcsr, maskedWrite_xor_old]
      · obtain ⟨t, ht, ⟨hm, hframe, hfp, hregs⟩, hcfg, hfcsr⟩ :=
          exec_fp_write (r := .frm) huse (by decide) hf hfs rfl
        refine ⟨t, ht, hm, hframe, hfp, hregs, fun _ h => absurd h (by decide), fun _ _ => ⟨?_, ?_, ?_⟩,
          fun _ h => absurd h (by decide)⟩
        · simp only [csrRead, hcfg, hfcsr, maskedWrite_and_mask]
        · simp only [csrRead, hcfg, hfcsr, maskedWrite_and_of_disjoint (fflagsMask_and_frmMask s.cfg)]
        · rw [hfcsr, maskedWrite_xor_old]
      · obtain ⟨t, ht, ⟨hm, hframe, hfp, hregs⟩, -, hfcsr⟩ :=
          exec_fp_write (r := .fcsr) huse (by decide) hf hfs rfl
        refine ⟨t, ht, hm, hframe, hfp, hregs, fun _ h => absurd h (by decide), fun _ h => absurd h (by decide),
          fun _ _ => ⟨?_, ?_⟩⟩
        · simp only [csrRead, hfcsr, maskedWrite_and_mask]
        · rw [hfcsr, maskedWrite_xor_old]
  case extraOff =>
    intro hunit hoff
    rw [exec_csrUse huse, csrInstr_illegal (csrAccess_extra_off hat hk hunit hoff)]
  case extraOn =>
    intro hacc hlen
    cases w with
    | false =>
      obtain ⟨t, ht, ⟨hframe, hm, hothers⟩, hextra⟩ := exec_extra_read huse hacc
      exact ⟨t, ht, hframe, by simpa using hm, hothers, fun _ => hextra, nofun⟩
    | true =>
      obtain ⟨t, ht, ⟨hframe, hm, hothers⟩, hread⟩ := exec_extra_write huse hacc hk hlen
      refine ⟨t, ht, hframe, by simpa using hm, hothers, nofun, fun _ => ⟨?_, ?_⟩⟩
      · rw [hread, maskedWrite_and_mask]
      · rw [hread, maskedWrite_xor_old]

end Sys2Proof.Machine
end

section
/-!
The stored values of a legal state (10_state.md R34; 11_state_machine_csrs.md R124, R130, R142), one predicate at a time:
what each says, and which updates keep it.
-/

namespace Sys2Proof.Machine

/-! ### XLEN bits -/

theorem fits_iff {c : Config} {v : Word} : fits c v = true ↔ c.trunc v = v := by
  simp [fits]

@[simp] theorem fits_trunc (c : Config) (v : Word) : fits c (c.trunc v) = true := by
  simp [fits]

@[simp] theorem fits_zero (c : Config) : fits c 0#64 = true := by
  simp [fits]

theorem fits_and {c : Config} {v : Word} (h : fits c v = true) (w : Word) : fits c (v &&& w) = true := by
  rw [fits_iff, trunc_and, fits_iff.1 h]

theorem fits_maskedWrite {c : Config} {old v : Word} (mask : Word) (hold : fits c old = true) (hv : fits c v = true) :
    fits c (maskedWrite old mask v) = true := by
  rw [fits_iff, maskedWrite, trunc_or, trunc_and, trunc_and, fits_iff.1 hold, fits_iff.1 hv]

theorem fits_of_alignTvec {c : Config} {v : Word} (h : c.alignTvec v = v) : fits c v = true := by
  rw [← h, Config.alignTvec]
  exact fits_and (fits_trunc c v) _

theorem mod_four_of_alignTvec {c : Config} {v : Word} (h : c.alignTvec v = v) : v.toNat % 4 = 0 := by
  rw [← h]
  exact alignTvec_mod c v

/-- A masked write that replaces bits of a field, over an old value that has no others, stays in the field. -/
theorem maskedWrite_and_of_subset {old mask v field : Word} (hmask : mask &&& field = mask)
    (hold : old &&& field = old) : maskedWrite old mask v &&& field = maskedWrite old mask v := by
  rw [maskedWrite, BitVec.and_or_distrib_right]
  congr 1
  · rw [BitVec.and_assoc, BitVec.and_comm _ field, ← BitVec.and_assoc, hold]
  · rw [BitVec.and_assoc, hmask]

/-! ### `pc` -/

theorem pcOk_iff {s : State} :
    pcOk s = true ↔ fits s.cfg s.pc = true ∧ s.pc.toNat % s.cfg.ialignBytes = 0 := by
  simp [pcOk]

/-! ### Integer registers -/

theorem regsFit_iff {s : State} : regsFit s = true ↔ ∀ i : Reg, fits s.cfg (s.x.get i) = true := by
  simp [regsFit]

theorem regsFit_writeReg {s : State} (r : Reg) (v : Word) (h : regsFit s = true) :
    regsFit (s.writeReg r v) = true := by
  rw [regsFit_iff] at h ⊢
  intro i
  rw [writeReg_cfg]
  unfold State.writeReg
  split
  · exact h i
  · have hget : (s.x.set r (s.cfg.trunc v)).get i = if r.val = i.val then s.cfg.trunc v else s.x.get i :=
      Vector.getElem_set r.isLt i.isLt
    rw [hget]
    split
    · exact fits_trunc s.cfg v
    · exact h i

/-! ### Trap registers -/

theorem trapRegsOk_iff {c : Config} {r : TrapRegs} : trapRegsOk c r = true ↔
    fits c r.scratch = true ∧ c.alignEpc r.epc = r.epc ∧ fits c r.badaddr = true := by
  simp [trapRegsOk, and_assoc]

/-! ### Interrupt bits -/

theorem intBitsOk_iff {c : Config} {b : IntBits} : intBitsOk c b = true ↔
    (c.has .s = false → b.ssi = false ∧ b.sti = false) ∧ (c.has .h = false → b.hsi = false ∧ b.hti = false)
      ∧ b.extra &&& c.extraIntBits = b.extra := by
  cases hs : c.has .s <;> cases hh : c.has .h <;> simp [intBitsOk, hs, hh, and_assoc]

theorem intBitsOk_intBitsOfWord (c : Config) (w : Word) : intBitsOk c (intBitsOfWord c w) = true := by
  rw [intBitsOk_iff]
  simp +contextual [intBitsOfWord, BitVec.and_assoc]

theorem bitsAt_getLsbD (l : List Nat) (k : Nat) :
    (bitsAt l).getLsbD k = (decide (k < 64) && decide (k ∈ l)) := by
  induction l with
  | nil => simp [bitsAt]
  | cons b rest ih =>
    have hbit : (1#64 <<< b).getLsbD k = (decide (k < 64) && decide (k = b)) := by
      rw [BitVec.getLsbD_shiftLeft, BitVec.getLsbD_one]
      by_cases hlt : k < b
      · simp [hlt, hlt.ne]
      · have hsub : k - b = 0 ↔ k = b := by omega
        simp [hlt, hsub]
    rw [bitsAt, BitVec.getLsbD_or, ih, hbit]
    simp [Bool.and_or_distrib_left]

/-- The bits of added sources that can be written are bits of added sources. -/
theorem extraIntWritable_subset (c : Config) : c.extraIntWritable &&& c.extraIntBits = c.extraIntWritable := by
  apply BitVec.eq_of_getLsbD_eq
  intro k hk
  simp only [Config.extraIntWritable, Config.extraIntBits, BitVec.getLsbD_and, trunc_getLsbD, bitsAt_getLsbD]
  by_cases h : k ∈ (c.extraInterrupts.filter (·.writable)).map (·.bit)
  · have hmem : k ∈ c.extraInterrupts.map (·.bit) :=
      List.map_subset _ (List.filter_subset_self _) h
    simp only [h, hmem, decide_true, Bool.and_true, Bool.and_self]
  · simp only [h, decide_false, Bool.and_false, Bool.false_and]

end Sys2Proof.Machine
end

section
/-!
A legal `mstatus` (11_state_machine_csrs.md R101, R103, R107, R116): what pushing, popping, a write and a status field
set to Dirty keep.
-/

namespace Sys2Proof.Machine

/-- The units' fields are hard-wired exactly as their absence asks. -/
theorem hardwireUnits_eq_iff {c : Config} {m : Mstatus} : Mstatus.hardwireUnits c m = m ↔
    (c.hasX = false → m.xs = 0) ∧ (c.hasF = false → m.fs = 0) := by
  obtain ⟨vm, mprv, xs, fs, e3, e2, e1, e0⟩ := m
  cases hx : c.hasX <;> cases hf : c.hasF <;> simp [Mstatus.hardwireUnits, hx, hf, eq_comm (a := 0#2)]

theorem mstatusOk_iff {c : Config} {m : Mstatus} : mstatusOk c m = true ↔
    Mstatus.hardwireStack c m = m ∧ (c.hasX = false → m.xs = 0) ∧ (c.hasF = false → m.fs = 0)
      ∧ c.vmSupported m.vm = true ∧ Mstatus.modesOk c m = true := by
  simp only [mstatusOk, Bool.and_eq_true, decide_eq_true_eq, hardwireUnits_eq_iff, and_assoc]

theorem modesOk_iff {c : Config} {m : Mstatus} : Mstatus.modesOk c m = true ↔
    c.has m.e0.prv = true ∧ c.has m.e1.prv = true ∧ (3 ≤ c.depth → c.has m.e2.prv = true)
      ∧ (4 ≤ c.depth → c.has m.e3.prv = true) := by
  simp only [Mstatus.modesOk, Bool.and_eq_true, Bool.or_eq_true, decide_eq_true_eq, and_assoc, imp_iff_not_or,
    Nat.not_le, Nat.lt_succ_iff]

theorem depth_cases (c : Config) : c.depth = 2 ∨ c.depth = 3 ∨ c.depth = 4 := by
  unfold Config.depth
  cases c.modes <;> simp

@[simp] theorem has_lowest (c : Config) : c.has c.lowest = true := by
  unfold Config.has Config.lowest
  cases c.modes <;> rfl

/-! ### Hard-wired entries and units -/

@[simp] theorem hardwire_hardwire (c : Config) (e : StackEntry) : (e.hardwire c).hardwire c = e.hardwire c := by
  unfold StackEntry.hardwire
  split <;> rfl

/-- A hard-wired mode field holds a supported mode where the field it stands for does. -/
theorem has_hardwire {c : Config} {e : StackEntry} (h : c.has e.prv = true) : c.has (e.hardwire c).prv = true := by
  unfold StackEntry.hardwire
  split
  · exact has_m c
  · exact h

@[simp] theorem hardwireStack_hardwireStack (c : Config) (m : Mstatus) :
    Mstatus.hardwireStack c (Mstatus.hardwireStack c m) = Mstatus.hardwireStack c m := by
  simp only [Mstatus.hardwireStack, hardwire_hardwire]
  split <;> split <;> rfl

@[simp] theorem hardwireUnits_hardwireUnits (c : Config) (m : Mstatus) :
    Mstatus.hardwireUnits c (Mstatus.hardwireUnits c m) = Mstatus.hardwireUnits c m := by
  simp only [Mstatus.hardwireUnits]
  split <;> split <;> rfl

/-- A stack whose live entries name supported modes, its hard-wired entries put at their values, is legal. -/
theorem mstatusOk_hardwireStack {c : Config} {m : Mstatus} (hxs : c.hasX = false → m.xs = 0)
    (hfs : c.hasF = false → m.fs = 0) (hvm : c.vmSupported m.vm = true) (h0 : c.has m.e0.prv = true)
    (h1 : c.has m.e1.prv = true) (h2 : 3 ≤ c.depth → c.has m.e2.prv = true)
    (h3 : 4 ≤ c.depth → c.has m.e3.prv = true) : mstatusOk c (Mstatus.hardwireStack c m) = true := by
  refine mstatusOk_iff.2 ⟨hardwireStack_hardwireStack c m, hxs, hfs, hvm,
    modesOk_iff.2 ⟨has_hardwire h0, has_hardwire h1, fun hd => ?_, fun hd => ?_⟩⟩
  · simpa [Mstatus.hardwireStack, Nat.not_le.2 hd] using h2 hd
  · simpa [Mstatus.hardwireStack, Nat.not_le.2 hd] using h3 hd

/-! ### What keeps it legal -/

/-- A push of a supported mode. -/
theorem mstatusOk_push {c : Config} {m : Mstatus} {p : Priv} (h : mstatusOk c m = true) (hp : c.has p = true) :
    mstatusOk c { Mstatus.push c p m with mprv := false } = true := by
  obtain ⟨-, hxs, hfs, hvm, hmodes⟩ := mstatusOk_iff.1 h
  obtain ⟨h0, h1, h2, -⟩ := modesOk_iff.1 hmodes
  exact mstatusOk_hardwireStack (m := { m with e3 := m.e2, e2 := m.e1, e1 := m.e0, e0 := ⟨p, false⟩, mprv := false })
    hxs hfs hvm hp h0 (fun _ => h1) fun hd => h2 (by omega)

/-- A pop: the filler is of the lowest level, which is supported. -/
theorem mstatusOk_pop {c : Config} {m : Mstatus} (h : mstatusOk c m = true) :
    mstatusOk c (Mstatus.pop c m) = true := by
  obtain ⟨-, hxs, hfs, hvm, hmodes⟩ := mstatusOk_iff.1 h
  obtain ⟨-, h1, h2, h3⟩ := modesOk_iff.1 hmodes
  have hfill : c.has (popFiller c).prv = true := has_lowest c
  refine mstatusOk_hardwireStack hxs hfs hvm h1 ?e1 (fun hd => ?e2)
    fun _ => hfill
  case e1 =>
    have := depth_cases c
    dsimp only
    split
    · exact hfill
    · exact h2 (by omega)
  case e2 =>
    dsimp only
    split
    · exact hfill
    · exact h3 (by omega)

/-- The fields of a word, the hard-wired ones at their values, where its scheme and modes are supported. -/
theorem mstatusOk_ofWord {c : Config} {w : Word} (hvm : c.vmSupported (mstatusOfWord w).vm = true)
    (hmodes : Mstatus.modesOk c (Mstatus.hardwireUnits c (Mstatus.hardwireStack c (mstatusOfWord w))) = true) :
    mstatusOk c (Mstatus.hardwireUnits c (Mstatus.hardwireStack c (mstatusOfWord w))) = true := by
  obtain ⟨hxs, hfs⟩ := hardwireUnits_eq_iff.1
    (hardwireUnits_hardwireUnits c (Mstatus.hardwireStack c (mstatusOfWord w)))
  exact mstatusOk_iff.2 ⟨congrArg (Mstatus.hardwireUnits c) (hardwireStack_hardwireStack c _), hxs, hfs, hvm, hmodes⟩

theorem mstatusOk_setFs {c : Config} {m : Mstatus} (h : mstatusOk c m = true) (hf : c.hasF = true) (v : BitVec 2) :
    mstatusOk c { m with fs := v } = true := by
  obtain ⟨hstack, hxs, hfs, hvm, hmodes⟩ := mstatusOk_iff.1 h
  refine mstatusOk_iff.2 ⟨?_, hxs, ?_, hvm, hmodes⟩
  · exact congrArg (fun q : Mstatus => { q with fs := v }) hstack
  · simp [hf]

theorem mstatusOk_setXs {c : Config} {m : Mstatus} (h : mstatusOk c m = true) (hx : c.hasX = true) (v : BitVec 2) :
    mstatusOk c { m with xs := v } = true := by
  obtain ⟨hstack, hxs, hfs, hvm, hmodes⟩ := mstatusOk_iff.1 h
  refine mstatusOk_iff.2 ⟨?_, ?_, hfs, hvm, hmodes⟩
  · exact congrArg (fun q : Mstatus => { q with xs := v }) hstack
  · simp [hx]

/-- The current mode replaced by another supported one: a mode beside M is supported only where no mode field is
hard-wired. -/
theorem mstatusOk_setPrv {c : Config} {m : Mstatus} {p : Priv} (h : mstatusOk c m = true) (hp : c.has p = true)
    (hpm : p ≠ .m) : mstatusOk c { m with e0 := { m.e0 with prv := p } } = true := by
  obtain ⟨hstack, hxs, hfs, hvm, hmodes⟩ := mstatusOk_iff.1 h
  obtain ⟨-, hrest⟩ := modesOk_iff.1 hmodes
  have hlive : c.modes ≠ .m := fun hm => by cases p <;> simp [Config.has, hm] at hp hpm
  have hwire : ∀ e : StackEntry, e.hardwire c = e := fun e => if_neg hlive
  refine mstatusOk_iff.2 ⟨?_, hxs, hfs, hvm, modesOk_iff.2 ⟨hp, hrest⟩⟩
  simp only [Mstatus.hardwireStack, hwire] at hstack ⊢
  exact congrArg (fun q : Mstatus => { q with e0 := { m.e0 with prv := p } }) hstack

end Sys2Proof.Machine
end

section
/-!
A legal state under the shared operations: a register write, `pc`, a trap, a return, a redirection, a fetch, the passage
of time and the outside.
-/

namespace Sys2Proof.Machine

/-! ### What a legal state gives -/

theorem Inv.tvec {s : State} (h : Inv s) : s.cfg.alignTvec s.mtvec = s.mtvec
    ∧ s.cfg.alignTvec s.stvec = s.stvec ∧ s.cfg.alignTvec s.htvec = s.htvec := by
  simpa [vectorsOk, and_assoc] using h.vectors

theorem Inv.trapRegs {s : State} (h : Inv s) (p : Priv) : trapRegsOk s.cfg (s.trapRegs p) = true := by
  cases p
  case u => simp [trapRegsOk_iff, State.trapRegs, TrapRegs.zero]
  case s => exact h.trapS
  case h => exact h.trapH
  case m => exact h.trapM

/-- The offset of every trap entry point is a multiple of 4. -/
theorem entryOffset_mod {c : Config} (hc : c.valid = true) (interrupt : Bool) (code : BitVec 4) (p : Priv) :
    (c.entryOffset interrupt code p).toNat % 4 = 0 := by
  have hadded : ∀ v ∈ c.extraVectors, v.offset &&& 3 = 0 := by
    simp only [Config.valid, Config.extrasValid, Bool.and_eq_true, List.all_eq_true, decide_eq_true_eq] at hc
    obtain ⟨⟨-, -, hvectors⟩, -⟩ := hc
    exact fun v hv => (hvectors v hv).2
  unfold Config.entryOffset
  split
  case h_1 v hv =>
    have hbits : ∀ k, (v.offset &&& 3).getLsbD k = false := fun k => by
      rw [hadded v (List.mem_of_find?_eq_some hv)]
      exact BitVec.getLsbD_zero
    exact mod_four_of_getLsbD (by simpa using hbits 0) (by simpa using hbits 1)
  case h_2 => cases p <;> decide

/-- A trap is handled at a supported level. -/
theorem trapTarget_has (s : State) (b : Nat) : s.cfg.has (trapTarget s b) = true := by
  unfold trapTarget
  split
  · exact has_m _
  · split
    · rename_i hh
      split
      · exact has_m _
      · split
        · exact hh
        · split
          · exact has_s_of_has_h hh
          · exact hh
    · split
      · rename_i hs
        split
        · exact hs
        · exact has_m _
      · exact has_m _

/-! ### One part of the state replaced -/

section
variable {s : State} (h : Inv s)
include h

theorem Inv.setPc {a : Word} (hf : fits s.cfg a = true) (ha : a.toNat % s.cfg.ialignBytes = 0) :
    Inv { s with pc := a } :=
  { h with pc := pcOk_iff.2 ⟨hf, ha⟩ }

theorem Inv.advance : Inv s.advance :=
  h.setPc (fits_trunc _ _) (trunc_add_mod (pcOk_iff.1 h.pc).2 (by decide))

theorem Inv.writeReg (r : Reg) (v : Word) : Inv (s.writeReg r v) := by
  have hregs := regsFit_writeReg r v h.regs
  rw [writeReg_frame] at hregs ⊢
  exact { h with regs := hregs }

theorem Inv.setMstatus {m : Mstatus} (hm : mstatusOk s.cfg m = true) : Inv { s with mstatus := m } :=
  { h with mstatus := hm }

theorem Inv.setTrapRegs (p : Priv) {r : TrapRegs} (hr : trapRegsOk s.cfg r = true) : Inv (s.setTrapRegs p r) := by
  cases p
  case u => exact h
  case s => exact { h with trapS := hr }
  case h => exact { h with trapH := hr }
  case m => exact { h with trapM := hr }

theorem Inv.setMip {b : IntBits} (hb : intBitsOk s.cfg b = true) : Inv { s with mip := b } :=
  { h with mip := hb }

theorem Inv.setMie {b : IntBits} (hb : intBitsOk s.cfg b = true) : Inv { s with mie := b } :=
  { h with mie := hb }

theorem Inv.setClock (k : Clock) : Inv { s with clock := k } :=
  { h with mem := h.mem }

theorem Inv.setSegments (g : Segments) : Inv { s with seg := g } :=
  { h with mem := h.mem }

/-! ### Traps -/

theorem Inv.enterTrap {p : Priv} {a : Word} (hp : s.cfg.has p = true) (hf : fits s.cfg a = true)
    (ha : a.toNat % s.cfg.ialignBytes = 0) (cause : Cause) (epc : Word) (badaddr : Option Word) :
    Inv (enterTrap p a cause epc badaddr s) := by
  have hregs : trapRegsOk s.cfg { s.trapRegs p with
      epc := s.cfg.alignEpc epc, cause := cause, badaddr := badaddrValue s badaddr } = true := by
    obtain ⟨hscratch, -, -⟩ := trapRegsOk_iff.1 (h.trapRegs p)
    refine trapRegsOk_iff.2 ⟨hscratch, alignEpc_alignEpc _ _, ?_⟩
    cases badaddr <;> exact fits_trunc _ _
  have hm := mstatusOk_push h.mstatus hp
  have hentered := (h.setTrapRegs p hregs).setMstatus (by simpa using hm)
  have hmoved := hentered.setPc (a := a) (by simpa using hf) (by simpa using ha)
  exact { hmoved with mem := hmoved.mem }

theorem Inv.handlerAddress_ok (cause : Cause) (p : Priv) :
    fits s.cfg (handlerAddress s cause p) = true ∧ (handlerAddress s cause p).toNat % s.cfg.ialignBytes = 0 := by
  obtain ⟨hm, hs, hh⟩ := h.tvec
  have hmachine := trunc_add_mod (mod_ialign_of_mod_four (c := s.cfg) (mod_four_of_alignTvec hm))
    (entryOffset_mod h.cfg cause.interrupt cause.code s.priv)
  cases p
  case u | m => exact ⟨fits_trunc _ _, hmachine⟩
  case s => exact ⟨fits_of_alignTvec hs, mod_ialign_of_mod_four (mod_four_of_alignTvec hs)⟩
  case h => exact ⟨fits_of_alignTvec hh, mod_ialign_of_mod_four (mod_four_of_alignTvec hh)⟩

theorem Inv.takeTrap (b : Nat) (cause : Cause) (epc : Word) (badaddr : Option Word) :
    Inv (takeTrap b cause epc badaddr s) := by
  obtain ⟨hf, ha⟩ := h.handlerAddress_ok cause (trapTarget s b)
  exact h.enterTrap (trapTarget_has s b) hf ha cause epc badaddr

theorem Inv.raiseException (code : BitVec 4) (badaddr : Option Word) : Inv (raiseException code badaddr s) :=
  h.takeTrap _ _ _ _

theorem Inv.takeNmi : Inv (takeNmi s) := by
  have hmtvec := mod_ialign_of_mod_four (c := s.cfg) (mod_four_of_alignTvec h.tvec.1)
  have hentered := h.enterTrap (has_m s.cfg) (fits_trunc _ (s.mtvec + 0xFC)) (trunc_add_mod hmtvec (by decide))
    ⟨(Config.nmiCause s.draws).1, (Config.nmiCause s.draws).2⟩ s.pc none
  exact { hentered with mem := hentered.mem }

theorem Inv.interruptAtBoundary {t : State} (ht : interruptAtBoundary s = some t) : Inv t := by
  unfold Machine.interruptAtBoundary at ht
  split at ht
  · cases ht
    exact h.takeNmi
  · obtain ⟨i, -, rfl⟩ := Option.map_eq_some_iff.1 ht
    exact h.takeTrap _ _ _ _

theorem Inv.trapReturn (p : Priv) : Inv (trapReturn (s.trapRegs p).epc s) := by
  obtain ⟨-, hepc, -⟩ := trapRegsOk_iff.1 (h.trapRegs p)
  refine (h.setMstatus (mstatusOk_pop h.mstatus)).setPc ?_ ?_
  · rw [← hepc, fits_iff, trunc_alignEpc]
  · rw [← hepc]
    exact alignEpc_mod _ _

theorem Inv.redirectTrap {p : Priv} {a : Word} (hp : s.cfg.has p = true) (hpm : p ≠ .m)
    (ha : s.cfg.alignTvec a = a) : Inv (redirectTrap p a s) := by
  have hregs : trapRegsOk s.cfg { s.trapRegs p with
      epc := s.tm.epc, cause := s.tm.cause, badaddr := s.tm.badaddr } = true := by
    obtain ⟨hscratch, -, -⟩ := trapRegsOk_iff.1 (h.trapRegs p)
    obtain ⟨-, hepc, hbad⟩ := trapRegsOk_iff.1 h.trapM
    exact trapRegsOk_iff.2 ⟨hscratch, hepc, hbad⟩
  have hm := mstatusOk_setPrv h.mstatus hp hpm
  have hentered := (h.setTrapRegs p hregs).setMstatus (by simpa using hm)
  exact hentered.setPc (by simpa using fits_of_alignTvec ha)
    (by simpa using mod_ialign_of_mod_four (mod_four_of_alignTvec ha))

/-! ### Fetch, counting, waiting, the outside -/

theorem Inv.sameButPaging {t : State} (hsame : SameButPaging s t) (hwf : Memory.wf t.mem = true) : Inv t := by
  unfold SameButPaging at hsame
  rw [hsame]
  exact { h with mem := hwf }

theorem Inv.retire : Inv (retire s) :=
  h.setClock _

theorem Inv.idleStep : Inv (idleStep s) :=
  { h with mem := h.mem }

end

theorem updatedExtras_ok {c : Config} (draw k : Nat) (es : List ExtraCsr) {vs : List Word}
    (hv : ∀ v ∈ vs, fits c v = true) : (updatedExtras c draw k es vs).length = vs.length
      ∧ ∀ v ∈ updatedExtras c draw k es vs, fits c v = true := by
  induction es generalizing k vs with
  | nil => exact ⟨rfl, hv⟩
  | cons e es ih =>
    cases vs with
    | nil => exact ⟨rfl, hv⟩
    | cons v vs =>
      obtain ⟨hhead, htail⟩ := List.forall_mem_cons.1 hv
      obtain ⟨hlen, hrest⟩ := ih (k + 1) htail
      refine ⟨congrArg (· + 1) hlen, List.forall_mem_cons.2 ⟨?_, hrest⟩⟩
      split
      · exact fits_trunc _ _
      · exact hhead

theorem extrasOk_iff {s : State} : extrasOk s = true ↔
    s.extra.length = s.cfg.extraCsrs.length ∧ ∀ v ∈ s.extra, fits s.cfg v = true := by
  simp [extrasOk]

theorem intBitsOk_environment {s : State} (h : intBitsOk s.cfg s.mip = true) :
    intBitsOk s.cfg (environment s).mip = true := by
  obtain ⟨hs, hh, hextra⟩ := intBitsOk_iff.1 h
  rw [environment_mip]
  refine intBitsOk_iff.2 ⟨fun hn => ?_, fun hn => ?_, ?_⟩
  · simp [advanceClock, hn, hs hn]
  · simp [advanceClock, hn, hh hn]
  · exact maskedWrite_and_of_subset BitVec.and_self hextra

/-- The outside changes interrupt bits, the clock, added registers and hidden state. -/
theorem environment_frame (s : State) : environment s =
    { s with
      mip := (environment s).mip, clock := (environment s).clock, extra := (environment s).extra
      nmiPending := (environment s).nmiPending, tc := (environment s).tc, draws := (environment s).draws } := by
  simp only [environment, dropTranslations, nmiArrival, extraCsrWrites, extraSources, remoteMsip, advanceCycles, passTime,
    advanceClock]

theorem Inv.environment {s : State} (h : Inv s) : Inv (environment s) := by
  obtain ⟨hlen, hfits⟩ := extrasOk_iff.1 h.extras
  obtain ⟨hlen', hfits'⟩ := updatedExtras_ok s.draws 0 s.cfg.extraCsrs hfits
  have hextras : (Machine.environment s).extra.length = s.cfg.extraCsrs.length
      ∧ ∀ v ∈ (Machine.environment s).extra, fits s.cfg v = true := by
    rw [environment_extra]
    exact ⟨hlen'.trans hlen, hfits'⟩
  have hmip := intBitsOk_environment h.mip
  rw [environment_frame]
  generalize Machine.environment s = t at hmip hextras ⊢
  exact { h with mip := hmip, extras := extrasOk_iff.2 hextras }

end Sys2Proof.Machine
end

section
/-!
A legal state under a CSR write (10_state.md R52): each register keeps its format, the units' registers exist only where
the unit does.
-/

namespace Sys2Proof.Machine

theorem and_or_absorb_left (v w : Word) : v &&& (v ||| w) = v := by
  ext k hk
  simpa using Or.inl

theorem and_or_absorb_right (v w : Word) : v &&& (w ||| v) = v := by
  rw [BitVec.or_comm, and_or_absorb_left]

theorem pagingOk_iff {s : State} : pagingOk s = true ↔
    fits s.cfg s.sptbr = true ∧ s.sptbr &&& 0xFFF = 0 ∧ s.sasid &&& s.cfg.sasidMask = s.sasid := by
  simp [pagingOk, and_assoc]

/-! ### Registers of a unit -/

theorem csrTable_isFp_need : ∀ row ∈ csrTable, row.2.1.isFp = true → row.2.2 = .unitF := by decide

/-- Floating-point state exists only with the unit (R53). -/
theorem hasF_of_csrAt {c : Config} {a : CsrAddr} {r : Csr} (hat : csrAt c a = some r) (hr : r.isFp = true) :
    c.hasF = true := by
  rcases csrAt_some hat with ⟨need, hrow, hneed⟩ | ⟨-, k, e, rfl, -⟩
  · have hunit : need = .unitF := csrTable_isFp_need (a, r, need) hrow hr
    rwa [hunit] at hneed
  · cases hr

/-- An added register is state of the extension only where XS is live. -/
theorem hasX_of_unitX {c : Config} (hc : c.valid = true) {k : Nat} {e : ExtraCsr} (hk : c.extraCsrs[k]? = some e)
    (hunit : e.unitX = true) : c.hasX = true := by
  simp only [Config.valid, Config.extrasValid, Bool.and_eq_true, Bool.or_eq_true, Bool.not_eq_true',
    List.all_eq_true, decide_eq_true_eq] at hc
  obtain ⟨⟨-, ⟨⟨⟨hcsrs, -⟩, -⟩, -⟩, -⟩, -⟩ := hc
  obtain ⟨-, hx⟩ := hcsrs e (List.mem_of_getElem? hk)
  exact hx.resolve_left (by simp [hunit])

/-! ### Interrupt bits -/

/-- A timer-pending bit may be cleared, and set where its level is supported. -/
theorem intBitsOk_setTimer {c : Config} {b : IntBits} (h : intBitsOk c b = true) (p : Priv) {pending : Bool}
    (hp : pending = true → c.has p = true) : intBitsOk c (b.setTimer p pending) = true := by
  obtain ⟨hs, hh, hextra⟩ := intBitsOk_iff.1 h
  have hclear : c.has p = false → pending = false := fun hn => by
    rw [← Bool.not_eq_true] at hn ⊢
    exact mt hp hn
  cases p
  case u => exact h
  case s => exact intBitsOk_iff.2 ⟨fun hn => ⟨(hs hn).1, hclear hn⟩, hh, hextra⟩
  case h => exact intBitsOk_iff.2 ⟨hs, fun hn => ⟨(hh hn).1, hclear hn⟩, hextra⟩
  case m => exact intBitsOk_iff.2 ⟨hs, hh, hextra⟩

theorem intBitsOk_mipWrite {c : Config} {b : IntBits} (h : intBitsOk c b = true) (v : Word) :
    intBitsOk c { b with
      ssi := v.getLsbD 1 && c.has .s, hsi := v.getLsbD 2 && c.has .h, msi := v.getLsbD 3,
      extra := maskedWrite b.extra c.extraIntWritable v } = true := by
  obtain ⟨hs, hh, hextra⟩ := intBitsOk_iff.1 h
  exact intBitsOk_iff.2 ⟨fun hn => ⟨by simp [hn], (hs hn).2⟩, fun hn => ⟨by simp [hn], (hh hn).2⟩,
    maskedWrite_and_of_subset (extraIntWritable_subset c) hextra⟩

theorem intBitsOk_sipWrite {c : Config} {b : IntBits} (h : intBitsOk c b = true) (v : Word) :
    intBitsOk c { b with ssi := v.getLsbD 1 && c.has .s } = true := by
  obtain ⟨hs, hh, hextra⟩ := intBitsOk_iff.1 h
  exact intBitsOk_iff.2 ⟨fun hn => ⟨by simp [hn], (hs hn).2⟩, hh, hextra⟩

theorem intBitsOk_sieWrite {c : Config} {b : IntBits} (h : intBitsOk c b = true) (v : Word) :
    intBitsOk c { b with ssi := v.getLsbD 1 && c.has .s, sti := v.getLsbD 5 && c.has .s } = true := by
  obtain ⟨-, hh, hextra⟩ := intBitsOk_iff.1 h
  exact intBitsOk_iff.2 ⟨fun hn => ⟨by simp [hn], by simp [hn]⟩, hh, hextra⟩

theorem has_of_timeMatches {c : Config} {k : Clock} {p : Priv} (h : timeMatches c k p = true) : c.has p = true := by
  simp only [timeMatches, Bool.and_eq_true] at h
  obtain ⟨⟨hp, -⟩, -⟩ := h
  exact hp

/-! ### Trap registers -/

section
variable {c : Config} {r : TrapRegs} (h : trapRegsOk c r = true)
include h

theorem trapRegsOk_setScratch {v : Word} (hv : fits c v = true) : trapRegsOk c { r with scratch := v } = true := by
  obtain ⟨-, hrest⟩ := trapRegsOk_iff.1 h
  exact trapRegsOk_iff.2 ⟨hv, hrest⟩

theorem trapRegsOk_setEpc (v : Word) : trapRegsOk c { r with epc := c.alignEpc v } = true := by
  obtain ⟨hscratch, -, hbad⟩ := trapRegsOk_iff.1 h
  exact trapRegsOk_iff.2 ⟨hscratch, alignEpc_alignEpc c v, hbad⟩

theorem trapRegsOk_setBadaddr {v : Word} (hv : fits c v = true) : trapRegsOk c { r with badaddr := v } = true := by
  obtain ⟨hscratch, hepc, -⟩ := trapRegsOk_iff.1 h
  exact trapRegsOk_iff.2 ⟨hscratch, hepc, hv⟩

end

/-! ### Writes with effects of their own -/

section
variable {s : State} (h : Inv s)
include h

theorem Inv.writeMstatus {t : State} {v : Word} (ht : writeMstatus s v = .ok t) : Inv t := by
  obtain ⟨rfl, hvm, hmodes⟩ := writeMstatus_ok.1 ht
  exact h.setMstatus (mstatusOk_ofWord hvm hmodes)

theorem Inv.writeFcsr {mask : Word} (hf : s.cfg.hasF = true)
    (hmask : mask &&& (fflagsMask s.cfg ||| frmMask s.cfg) = mask) (v : Word) : Inv (writeFcsr s mask v) := by
  have hold : s.fp.fcsr &&& (fflagsMask s.cfg ||| frmMask s.cfg) = s.fp.fcsr := of_decide_eq_true h.fcsr
  exact { h with
    mstatus := mstatusOk_setFs h.mstatus hf 3
    fcsr := decide_eq_true (maskedWrite_and_of_subset hmask hold) }

theorem Inv.writeExtra {v : Word} (hv : fits s.cfg v = true) (k : Nat) : Inv (writeExtra s k v) := by
  cases hk : s.cfg.extraCsrs[k]? with
  | none => simpa only [Machine.writeExtra, hk] using h
  | some e =>
    obtain ⟨hlen, hfits⟩ := extrasOk_iff.1 h.extras
    have hold : fits s.cfg (s.extra.getD k 0) = true := by
      rw [List.getD_eq_getElem?_getD]
      cases hget : s.extra[k]? with
      | none => exact fits_zero _
      | some w => exact hfits w (List.mem_of_getElem? hget)
    have hxs : mstatusOk s.cfg { s.mstatus with xs := if e.unitX then 3 else s.mstatus.xs } = true := by
      split
      · rename_i hunit
        exact mstatusOk_setXs h.mstatus (hasX_of_unitX h.cfg hk hunit) 3
      · exact h.mstatus
    rw [writeExtra_of_entry hk]
    refine { h with mstatus := hxs, extras := extrasOk_iff.2 ⟨?_, fun w hw => ?_⟩ }
    · simpa using hlen
    · rcases List.mem_or_eq_of_mem_set hw with hin | rfl
      · exact hfits w hin
      · exact fits_maskedWrite _ hold hv

theorem Inv.setTimers {b : IntBits} (hb : intBitsOk s.cfg b = true) (k : Clock) :
    Inv { s with clock := k, mip := b } :=
  { h with mip := hb }

theorem Inv.writeTimecmp (p : Priv) (v : Word) : Inv (writeTimecmp p v s) :=
  h.setTimers (intBitsOk_setTimer h.mip p Bool.false_ne_true.elim) _

theorem Inv.writeTimeLow (p : Priv) (v : Word) : Inv (writeTimeLow p v s) := by
  refine h.setTimers (b := (Machine.writeTimeLow p v s).mip) ?_ _
  unfold Machine.writeTimeLow
  dsimp only
  split
  · rename_i hmatch
    exact intBitsOk_setTimer h.mip p fun _ => has_of_timeMatches hmatch
  · exact h.mip

/-! ### Every register -/

theorem Inv.setPaging {root asid : Word} (hfits : fits s.cfg root = true) (hpage : root &&& 0xFFF = 0)
    (hasid : asid &&& s.cfg.sasidMask = asid) : Inv { s with sptbr := root, sasid := asid } :=
  { h with paging := pagingOk_iff.2 ⟨hfits, hpage, hasid⟩ }

/-- A CSR write of an XLEN-bit value to a register that exists keeps the state legal. -/
theorem Inv.csrWrite {t : State} {a : CsrAddr} {r : Csr} {v : Word} (hat : csrAt s.cfg a = some r)
    (hv : fits s.cfg v = true) (ht : csrWrite s r v = .ok t) : Inv t := by
  obtain ⟨hmtvec, hstvec, hhtvec⟩ := h.tvec
  obtain ⟨hsptbr, hpage, hsasid⟩ := pagingOk_iff.1 h.paging
  obtain ⟨hmtdeleg, hhtdeleg⟩ : s.mtdeleg &&& s.cfg.mtdelegMask = s.mtdeleg
    ∧ s.htdeleg &&& s.cfg.htdelegMask = s.htdeleg := by simpa [delegationOk] using h.delegation
  cases r
  case mstatus | sstatus | hstatus => exact h.writeMstatus ht
  all_goals cases ht
  case fflags => exact h.writeFcsr (hasF_of_csrAt hat rfl) (and_or_absorb_left _ _) _
  case frm => exact h.writeFcsr (hasF_of_csrAt hat rfl) (and_or_absorb_right _ _) _
  case fcsr => exact h.writeFcsr (hasF_of_csrAt hat rfl) BitVec.and_self _
  case extra k => exact h.writeExtra hv k
  case cycle | instret | cycleh | instreth => exact h.setClock _
  case time | stime | htime | mtime => exact h.writeTimeLow _ _
  case timeh | stimeh | htimeh | mtimeh => exact h.setClock _
  case stimecmp | htimecmp | mtimecmp => exact h.writeTimecmp _ _
  case scause | sbadaddr | mcpuid | mimpid | mhartid => exact h
  case mbase | mbound | mibase | mibound | mdbase | mdbound => exact h.setSegments _
  case mip => exact h.setMip (intBitsOk_mipWrite h.mip v)
  case sip => exact h.setMip (intBitsOk_sipWrite h.mip v)
  case mie => exact h.setMie (intBitsOk_intBitsOfWord _ v)
  case sie => exact h.setMie (intBitsOk_sieWrite h.mie v)
  case mtvec => exact { h with vectors := by simp [vectorsOk, hstvec, hhtvec] }
  case stvec => exact { h with vectors := by simp [vectorsOk, hmtvec, hhtvec] }
  case htvec => exact { h with vectors := by simp [vectorsOk, hmtvec, hstvec] }
  case mtdeleg => exact { h with delegation := by simp [delegationOk, hhtdeleg, BitVec.and_assoc] }
  case htdeleg => exact { h with delegation := by simp [delegationOk, hmtdeleg, BitVec.and_assoc] }
  case sptbr => exact h.setPaging (fits_and hv _) (by simp [BitVec.and_assoc]) hsasid
  case sasid => exact h.setPaging hsptbr hpage (by simp [BitVec.and_assoc])
  case mscratch => exact h.setTrapRegs .m (trapRegsOk_setScratch h.trapM hv)
  case hscratch => exact h.setTrapRegs .h (trapRegsOk_setScratch h.trapH hv)
  case sscratch => exact h.setTrapRegs .s (trapRegsOk_setScratch h.trapS hv)
  case mepc => exact h.setTrapRegs .m (trapRegsOk_setEpc h.trapM v)
  case hepc => exact h.setTrapRegs .h (trapRegsOk_setEpc h.trapH v)
  case sepc => exact h.setTrapRegs .s (trapRegsOk_setEpc h.trapS v)
  case mcause => exact h.setTrapRegs .m (r := { s.tm with cause := _ }) h.trapM
  case hcause => exact h.setTrapRegs .h (r := { s.th with cause := _ }) h.trapH
  case mbadaddr => exact h.setTrapRegs .m (trapRegsOk_setBadaddr h.trapM hv)
  case hbadaddr => exact h.setTrapRegs .h (trapRegsOk_setBadaddr h.trapH hv)

end

end Sys2Proof.Machine
end

section
/-!
Every step keeps a state legal and the configuration as it is: instruction by instruction, then the step around it.
-/

namespace Sys2Proof.Machine

/-! ### What keeps the configuration -/

@[simp] theorem takeTrap_cfg (b : Nat) (cause : Cause) (epc : Word) (badaddr : Option Word) (s : State) :
    (takeTrap b cause epc badaddr s).cfg = s.cfg :=
  enterTrap_cfg _ _ _ _ _ s

@[simp] theorem raiseException_cfg (code : BitVec 4) (badaddr : Option Word) (s : State) :
    (raiseException code badaddr s).cfg = s.cfg :=
  takeTrap_cfg _ _ _ _ s

@[simp] theorem takeNmi_cfg (s : State) : (takeNmi s).cfg = s.cfg := by
  simp [takeNmi]

theorem SameButPaging.cfg_eq {s t : State} (h : SameButPaging s t) : t.cfg = s.cfg := by
  unfold SameButPaging at h
  rw [h]

/-- A state that may follow `s`: legal, in the same configuration. -/
def LegalAfter (s t : State) : Prop :=
  Inv t ∧ t.cfg = s.cfg

theorem LegalAfter.trans {s t u : State} (h1 : LegalAfter s t) (h2 : LegalAfter t u) : LegalAfter s u :=
  ⟨h2.1, h2.2.trans h1.2⟩

section
variable {s t : State} (h : Inv s)
include h

theorem legalAfter_illegal : LegalAfter s (raiseException 2 none s) :=
  ⟨h.raiseException 2 none, raiseException_cfg _ _ s⟩

/-! ### Instructions -/

/-- A CSR instruction: `rd` and `pc` after what its write leaves. -/
theorem legalAfter_csrInstr {rd : Reg} {a : CsrAddr} {w : Bool} {new : Word → Word}
    (ht : csrInstr rd a w new s = .next t) : LegalAfter s t := by
  rcases csrInstr_next ht with ⟨-, rfl⟩ | ⟨r, hacc, ⟨-, rfl⟩ | ⟨-, u, hwrite, rfl⟩⟩
  · exact legalAfter_illegal h
  · exact ⟨(h.writeReg rd _).advance, by simp⟩
  · obtain ⟨hat, -⟩ := csrAccess_some.1 hacc
    have hu : Inv u := h.csrWrite hat (fits_trunc _ _) hwrite
    have hcfg : u.cfg = s.cfg := (csrWriteFrame s u r _ h.mstatus hwrite).1
    exact ⟨(hu.writeReg rd _).advance, by simpa using hcfg⟩

theorem legalAfter_eret (ht : execEret s = .next t) : LegalAfter s t := by
  rcases execEret_next ht with ⟨-, rfl⟩ | ⟨-, -, rfl⟩
  · exact legalAfter_illegal h
  · exact ⟨h.trapReturn s.priv, rfl⟩

theorem legalAfter_mrts (ht : execMrts s = .next t) : LegalAfter s t := by
  unfold execMrts at ht
  split at ht
  · rename_i hp
    obtain ⟨-, hs⟩ := (Bool.and_eq_true _ _).mp hp
    cases ht
    exact ⟨h.redirectTrap hs (by decide) h.tvec.2.1, redirectTrap_cfg _ _ s⟩
  · cases ht
    exact legalAfter_illegal h

theorem legalAfter_mrth (ht : execMrth s = .next t) : LegalAfter s t := by
  unfold execMrth at ht
  split at ht
  · rename_i hp
    obtain ⟨-, hh⟩ := (Bool.and_eq_true _ _).mp hp
    cases ht
    exact ⟨h.redirectTrap hh (by decide) h.tvec.2.2, redirectTrap_cfg _ _ s⟩
  · cases ht
    exact legalAfter_illegal h

/-- WFI changes hidden state and `pc`. -/
theorem legalAfter_wfi (ht : execWfi s = .next t) : LegalAfter s t := by
  unfold execWfi at ht
  split at ht
  · cases ht
    exact legalAfter_illegal h
  · cases ht
    exact ⟨{ h.advance with mem := h.mem }, rfl⟩

/-- A fence changes the translation cache and `pc`. -/
theorem legalAfter_sfenceVm {rs1 : Reg} (ht : execSfenceVm rs1 s = .next t) : LegalAfter s t := by
  unfold execSfenceVm at ht
  split at ht
  · cases ht
    exact legalAfter_illegal h
  · cases ht
    exact ⟨{ h.advance with mem := h.mem }, rfl⟩

theorem legalAfter_exec {i : Instr} (ht : exec i s = .next t) : LegalAfter s t := by
  cases i
  case csrrw | csrrs | csrrc | csrrwi | csrrsi | csrrci =>
    rw [exec_csrUse rfl] at ht
    exact legalAfter_csrInstr h ht
  case ecall | ebreak =>
    cases ht
    exact ⟨h.raiseException _ none, raiseException_cfg _ _ s⟩
  case eret => exact legalAfter_eret h ht
  case mrts => exact legalAfter_mrts h ht
  case mrth => exact legalAfter_mrth h ht
  case hrts =>
    cases ht
    exact legalAfter_illegal h
  case wfi => exact legalAfter_wfi h ht
  case sfenceVm => exact legalAfter_sfenceVm h ht

/-! ### The step -/

theorem legalAfter_runDecoded {d : Except DecodeError Instr} (ht : runDecoded d s = .next t) : LegalAfter s t := by
  rcases runDecoded_next ht with ⟨i, -, -, hexec⟩ | rfl
  · exact legalAfter_exec h hexec
  · exact legalAfter_illegal h

/-- A fetch leaves a legal state, whether it traps or gives bytes. -/
theorem legalAfter_sameButPaging (hsame : SameButPaging s t)
    (hwf : Memory.wf s.mem = true → Memory.wf t.mem = true) : LegalAfter s t :=
  ⟨h.sameButPaging hsame (hwf h.mem), hsame.cfg_eq⟩

theorem legalAfter_interrupt (ht : interruptAtBoundary s = some t) : LegalAfter s t := by
  refine ⟨h.interruptAtBoundary ht, ?_⟩
  unfold interruptAtBoundary at ht
  split at ht
  · cases ht
    exact takeNmi_cfg s
  · obtain ⟨i, -, rfl⟩ := Option.map_eq_some_iff.1 ht
    exact takeTrap_cfg _ _ _ _ s

end

/-- Settles O57, by what the step has done before the outside acts: an interrupt, a step of a stall, a trap at the fetch,
or the instruction fetched. -/
theorem stepKeepsLegal : Obligations.StepKeepsLegal := by
  unfold Obligations.StepKeepsLegal
  intro s t h ht
  obtain ⟨u, rfl, hcases⟩ := cycle_next ht
  have hu : LegalAfter s u := by
    rcases hcases with hint | ⟨-, -, rfl⟩ | ⟨-, -, v, rfl, hrun⟩
    · exact legalAfter_interrupt h hint
    · exact ⟨h.idleStep, rfl⟩
    · have hv : LegalAfter s v := by
        rcases hrun with ⟨code, bad, s1, hfetch, rfl⟩ | ⟨addrs, s1, hfetch, hrun⟩
        · obtain ⟨hsame, hwf⟩ := fetchPath_trap hfetch
          have hs1 := legalAfter_sameButPaging h hsame hwf
          exact hs1.trans ⟨hs1.1.raiseException code (some bad), raiseException_cfg _ _ s1⟩
        · obtain ⟨hsame, hwf⟩ := fetchPath_done hfetch
          have hs1 := legalAfter_sameButPaging h hsame hwf
          exact hs1.trans (legalAfter_runDecoded hs1.1 hrun)
      exact hv.trans ⟨hv.1.retire, rfl⟩
  exact hu.trans ⟨hu.1.environment, environment_cfg u⟩

end Sys2Proof.Machine
end

section
/-!
`mstatus` read and written (11_state_machine_csrs.md R100, R103, R107, R111, R116): the sign bit is computed, the other
bits are the fields, and a write is refused by its scheme or by a live mode field.
-/

namespace Sys2Proof.Machine

/-! ### The sign bit -/

theorem signBit_getLsbD (c : Config) (k : Nat) : c.signBit.getLsbD k = decide (k = c.xlen - 1) := by
  have hshift : c.signBit = 1#64 <<< (c.xlen - 1) := by
    unfold Config.signBit Config.xlen Config.isRv32
    cases c.base <;> rfl
  have hx : c.xlen = 32 ∨ c.xlen = 64 := (width_cases c).imp And.right And.right
  rw [hshift, BitVec.getLsbD_shiftLeft, BitVec.getLsbD_one, Bool.eq_iff_iff]
  simp only [Bool.and_eq_true, Bool.not_eq_true', decide_eq_true_eq, decide_eq_false_iff_not]
  omega

/-- The fields of `mstatus` fill bits 21:0 and no other. -/
theorem fields_and_mask (m : Mstatus) : m.fields &&& 0x3FFFFF = m.fields := by
  rw [← ofWord_bits, ofWord_fields]

theorem signBit_and_fields (c : Config) : c.signBit &&& 0x3FFFFF = 0 := by
  unfold Config.signBit
  split <;> decide

theorem signBit_and_sstatusMask (c : Config) : c.signBit &&& sstatusMask = 0 := by
  unfold Config.signBit
  split <;> decide

/-- A mask that leaves a bit out sees neither its setting nor its clearing. -/
theorem or_and_eq_and_not_and {v b mask : Word} (h : b &&& mask = 0) :
    (v ||| b) &&& mask = (v &&& ~~~b) &&& mask := by
  ext k hk
  have hbit : b[k] = true → mask[k] = false := by
    simpa using congrArg (fun w : Word => w[k]) h
  cases hb : b[k] with
  | false => simp [hb]
  | true => simp [hbit hb]

/-- The fields are read from bits 21:0 of a word. -/
theorem mstatusOfWord_congr {v w : Word} (h : v &&& 0x3FFFFF = w &&& 0x3FFFFF) :
    mstatusOfWord v = mstatusOfWord w := by
  rw [← ofWord_bits, ← ofWord_bits] at h
  rw [← ofWord_fields (mstatusOfWord v), h, ofWord_fields]

theorem sd_iff (m : Mstatus) : m.sd = true ↔ (m.fs = 3 ∨ m.xs = 3) := by
  simp [Mstatus.sd]

/-- A word without the sign bit, SD set beside it, has the sign bit exactly where SD is 1. -/
theorem or_sd_getLsbD {c : Config} {m : Mstatus} {w : Word} (h : w.getLsbD (c.xlen - 1) = false) :
    (w ||| (if m.sd then c.signBit else 0)).getLsbD (c.xlen - 1) = m.sd := by
  rw [BitVec.getLsbD_or, h]
  cases hm : m.sd <;> simp [signBit_getLsbD]

/-- No word that a mask without the sign bit limits has it. -/
theorem getLsbD_sign_of_and {c : Config} {w mask : Word} (hmask : c.signBit &&& mask = 0) :
    (w &&& mask).getLsbD (c.xlen - 1) = false := by
  have hbit := congrArg (fun x : Word => x.getLsbD (c.xlen - 1)) hmask
  simp only [BitVec.getLsbD_and, signBit_getLsbD, decide_true, Bool.true_and] at hbit
  rw [BitVec.getLsbD_and, hbit]
  simp

/-- Settles O16: the fields and the view leave the sign bit to SD, and the fields are read below it. -/
theorem sdComputed : Obligations.SdComputed := by
  unfold Obligations.SdComputed
  intro s v
  refine ⟨?_, ?_, ?_, ?_⟩
  · rw [← sd_iff]
    have hfields : s.mstatus.fields.getLsbD (s.cfg.xlen - 1) = false := by
      rw [← fields_and_mask]
      exact getLsbD_sign_of_and (signBit_and_fields s.cfg)
    exact iff_of_eq (congrArg (· = true) (or_sd_getLsbD hfields))
  · rw [← sd_iff]
    exact iff_of_eq (congrArg (· = true)
      (or_sd_getLsbD (getLsbD_sign_of_and (signBit_and_sstatusMask s.cfg))))
  · have hword := mstatusOfWord_congr (or_and_eq_and_not_and (v := v) (signBit_and_fields s.cfg))
    simp only [csrWrite, writeMstatus, hword]
  · simp only [csrWrite, writeSstatus, or_and_eq_and_not_and (v := v) (signBit_and_sstatusMask s.cfg)]

/-! ### What a write is refused for -/

theorem writeMstatus_unsupportedVm {s : State} {v : Word} (h : s.cfg.vmSupported (v.extractLsb' 17 5) = false) :
    writeMstatus s v = .error .unsupportedVm := by
  have hvm : (mstatusOfWord v).vm = v.extractLsb' 17 5 := rfl
  simp [writeMstatus, Mstatus.hardwireUnits, Mstatus.hardwireStack, hvm, h]

theorem writeMstatus_unsupportedMode {s : State} {v : Word} (hvm : s.cfg.vmSupported (v.extractLsb' 17 5) = true)
    (hmodes : ¬ Mstatus.modesOk s.cfg
      (Mstatus.hardwireUnits s.cfg (Mstatus.hardwireStack s.cfg (mstatusOfWord v))) = true) :
    writeMstatus s v = .error .unsupportedMode := by
  have hfield : (Mstatus.hardwireUnits s.cfg (Mstatus.hardwireStack s.cfg (mstatusOfWord v))).vm
      = v.extractLsb' 17 5 := rfl
  simp [writeMstatus, hfield, hvm, hmodes]

/-- A property of every live place of the stack, place by place. -/
theorem forall_lt_depth_iff {c : Config} {p : Nat → Prop} :
    (∀ k < c.depth, p k) ↔ p 0 ∧ p 1 ∧ (3 ≤ c.depth → p 2) ∧ (4 ≤ c.depth → p 3) := by
  have hd := depth_cases c
  constructor
  · intro h
    exact ⟨h 0 (by omega), h 1 (by omega), fun h3 => h 2 (by omega), fun h4 => h 3 (by omega)⟩
  · rintro ⟨h0, h1, h2, h3⟩ k hk
    match k with
    | 0 => exact h0
    | 1 => exact h1
    | 2 => exact h2 (by omega)
    | 3 => exact h3 (by omega)
    | k + 4 => omega

/-- The mode a stack entry holds after a write, of an M-only machine always M (R103). -/
theorem hardwire_stackEntryAt (c : Config) (v : Word) (lo : Nat) : (stackEntryAt v lo).hardwire c =
    { prv := if c.modes = .m then .m else Priv.ofBits (v.extractLsb' (lo + 1) 2), ie := v.getLsbD lo } := by
  unfold StackEntry.hardwire stackEntryAt
  split <;> rfl

theorem modes_ne_m_of_depth {c : Config} (h : 3 ≤ c.depth) : c.modes ≠ .m := by
  intro hm
  simp [Config.depth, hm] at h

theorem not_namesUnsupportedMode_iff {c : Config} {v : Word} : ¬ namesUnsupportedMode c v ↔
    c.modes = .m ∨ ∀ k < c.depth, c.has (Priv.ofBits (v.extractLsb' (3 * k + 1) 2)) = true := by
  simp only [namesUnsupportedMode, not_and_or, not_not, not_exists, Bool.not_eq_false, imp_iff_not_or]

/-- What a write of the word `v` leaves in `mstatus` where it is not refused, place by place (R100, R103, R116). -/
theorem ofWord_entries (c : Config) (v : Word) :
    let m := Mstatus.hardwireUnits c (Mstatus.hardwireStack c (mstatusOfWord v))
    let mode : Nat → Priv := fun lo => if c.modes = .m then .m else Priv.ofBits (v.extractLsb' lo 2)
    m.e0 = { prv := mode 1, ie := v.getLsbD 0 } ∧ m.e1 = { prv := mode 4, ie := v.getLsbD 3 }
      ∧ m.e2 = (if 3 ≤ c.depth then { prv := mode 7, ie := v.getLsbD 6 } else { prv := .u, ie := false })
      ∧ m.e3 = (if 4 ≤ c.depth then { prv := mode 10, ie := v.getLsbD 9 } else { prv := .u, ie := false }) := by
  intro m mode
  refine ⟨hardwire_stackEntryAt c v 0, hardwire_stackEntryAt c v 3, ?_, ?_⟩
  · by_cases hd : 3 ≤ c.depth
    · have hlive := modes_ne_m_of_depth hd
      have hdeep : ¬ c.depth ≤ 2 := by omega
      simp [m, mode, Mstatus.hardwireUnits, Mstatus.hardwireStack, mstatusOfWord, stackEntryAt, hd, hdeep, hlive]
    · have hshallow : c.depth ≤ 2 := by omega
      simp [m, Mstatus.hardwireUnits, Mstatus.hardwireStack, StackEntry.zero, hd, hshallow]
  · by_cases hd : 4 ≤ c.depth
    · have hlive := modes_ne_m_of_depth (show 3 ≤ c.depth by omega)
      have hdeep : ¬ c.depth ≤ 3 := by omega
      simp [m, mode, Mstatus.hardwireUnits, Mstatus.hardwireStack, mstatusOfWord, stackEntryAt, hd, hdeep, hlive]
    · have hshallow : c.depth ≤ 3 := by omega
      simp [m, Mstatus.hardwireUnits, Mstatus.hardwireStack, StackEntry.zero, hd, hshallow]

/-- The modes that a write leaves are all supported unless the word names an unsupported one in a live field. -/
theorem modesOk_ofWord_iff (c : Config) (v : Word) :
    Mstatus.modesOk c (Mstatus.hardwireUnits c (Mstatus.hardwireStack c (mstatusOfWord v))) = true
      ↔ ¬ namesUnsupportedMode c v := by
  obtain ⟨h0, h1, h2, h3⟩ := ofWord_entries c v
  rw [not_namesUnsupportedMode_iff, forall_lt_depth_iff, modesOk_iff, h0, h1, h2, h3]
  by_cases hm : c.modes = .m
  · simp [hm, Config.depth]
  · simp +contextual [hm]

/-! ### The instructions -/

/-- In machine mode the access check passes at the address of `mstatus`. -/
theorem csrAccess_mstatus {s : State} (w : Bool) (hp : s.priv = .m) : csrAccess s 0x300 w = some .mstatus := by
  have hat : csrAt s.cfg 0x300 = some .mstatus := (csrAt_listed_iff rfl).2 ⟨.always, by decide, rfl⟩
  refine csrAccess_some.2 ⟨hat, ?_, fun _ => by decide, csrUnitOff_false.2 ⟨nofun, nofun⟩⟩
  rw [hp]
  decide

/-- A form that writes, where the register refuses the value. -/
theorem csrInstr_refused {rd : Reg} {a : CsrAddr} {new : Word → Word} {s : State} {r : Csr} {e : Refusal}
    (h : csrAccess s a true = some r) (he : csrWrite s r (s.cfg.trunc (new (csrRead s r))) = .error e) :
    csrInstr rd a true new s = .refused e := by
  simp [csrInstr, h, he]

theorem writeReg_setMstatus (s : State) (m : Mstatus) (rd : Reg) (v : Word) :
    ({ s with mstatus := m } : State).writeReg rd v = { s.writeReg rd v with mstatus := m } := by
  unfold State.writeReg
  split <;> rfl

/-- Settles O14, by whether the scheme and the live modes of the word are supported. -/
theorem mstatusWrite : Obligations.MstatusWrite := by
  unfold Obligations.MstatusWrite
  intro i s rd huse hp v mode
  have hacc := csrAccess_mstatus true hp
  rw [exec_csrUse huse]
  refine ⟨fun hvm => csrInstr_refused hacc (writeMstatus_unsupportedVm hvm), fun hvm hnames => ?_,
    fun hvm hnames => ?_⟩
  · refine csrInstr_refused hacc (writeMstatus_unsupportedMode hvm ?_)
    rw [modesOk_ofWord_iff, not_not]
    exact hnames
  · obtain ⟨h0, h1, h2, h3⟩ := ofWord_entries s.cfg v
    have hwrite := writeMstatus_ok.2 ⟨rfl, hvm, (modesOk_ofWord_iff s.cfg v).2 hnames⟩
    refine ⟨_, csrInstr_write hacc hwrite, ?_⟩
    rw [writeReg_setMstatus]
    exact ⟨by simp [State.advance], rfl, rfl, rfl, rfl, h0, h1, h2, h3⟩

end Sys2Proof.Machine
end

section
/-!
The machine registers beside `mstatus`, and their supervisor and hypervisor counterparts, under a CSR write: compare and
trap registers, interrupt and delegation registers, `mtvec`, base and bound (11_state_machine_csrs.md R118 to R153).
-/

namespace Sys2Proof.Machine

/-! ### Compare registers -/

theorem setWidth_trunc (c : Config) (v : Word) : (c.trunc v).setWidth 32 = v.setWidth 32 := by
  unfold Config.trunc
  split
  · ext k hk
    simp
  · rfl

/-- An instruction that writes a level's compare register: the low 32 bits of the new value, the level's timer-pending
bit cleared. -/
theorem exec_timecmp_write {i : Instr} {s : State} {rd : Reg} {a : CsrAddr} {r : Csr} {p : Priv}
    (huse : csrUse s.cfg i = some (rd, a, true)) (hacc : csrAccess s a true = some r)
    (hr : ∀ v, csrWrite s r v = .ok (writeTimecmp p v s)) :
    ∃ t, exec i s = .next t ∧ t.clock = s.clock.setTimecmp p ((csrNew s (csrRead s r) i).setWidth 32)
      ∧ t.mip = s.mip.setTimer p false := by
  refine ⟨_, by rw [exec_csrUse huse, csrInstr_write hacc (hr _)], ?_, by simp⟩
  simp [setWidth_trunc]

/-- Settles O19, level by level. -/
theorem compareWriteClears : Obligations.CompareWriteClears := by
  unfold Obligations.CompareWriteClears
  intro i s rd a huse
  refine ⟨fun _ hacc => ?_, fun _ hacc => ?_, fun _ hacc => ?_⟩
  all_goals
    obtain ⟨t, ht, hclock, hmip⟩ := exec_timecmp_write huse hacc fun _ => rfl
    exact ⟨t, ht, by rw [hclock]; rfl, hmip⟩

/-! ### Trap registers -/

/-- The bits that IALIGN makes zero. -/
theorem alignEpc_of_fits {c : Config} {v : Word} (hv : c.trunc v = v) :
    c.alignEpc v = v &&& ~~~(if c.ialign = .i32 then 3 else 1) := by
  rw [alignEpc_eq, hv]
  cases c.ialign <;> rfl

theorem and_signBit (c : Config) (v : Word) : v &&& c.signBit = if c.topBit v then c.signBit else 0 := by
  apply BitVec.eq_of_getLsbD_eq
  intro k hk
  rw [BitVec.getLsbD_and, signBit_getLsbD]
  by_cases h : k = c.xlen - 1
  · have htop : v.getLsbD k = c.topBit v := congrArg v.getLsbD h
    rw [htop]
    cases c.topBit v <;> simp [h, signBit_getLsbD]
  · split <;> simp [signBit_getLsbD, h]

theorem and_fifteen (v : Word) : v &&& 0xF = (v.setWidth 4).setWidth 64 := by
  apply BitVec.eq_of_toNat_eq
  have hsmall : v.toNat % 2 ^ 4 < 2 ^ 64 := by omega
  rw [BitVec.toNat_and, BitVec.toNat_setWidth, BitVec.toNat_setWidth, Nat.mod_eq_of_lt hsmall]
  exact Nat.and_two_pow_sub_one_eq_mod v.toNat 4

/-- A cause register keeps the Interrupt bit and the 4-bit code of a write (R145). -/
theorem causeOfWord_word (c : Config) (v : Word) :
    (causeOfWord c v).word c = v &&& (c.signBit ||| 0xF) := by
  rw [BitVec.and_or_distrib_left, and_signBit, and_fifteen]
  rfl

/-- Settles O21: each register by its own arm of the write. -/
theorem trapRegisterWrites : Obligations.TrapRegisterWrites := by
  unfold Obligations.TrapRegisterWrites
  intro s v hv low
  have hepc : s.cfg.alignEpc v = v &&& ~~~low := alignEpc_of_fits hv
  refine ⟨?_, ?_, ?_, ⟨_, rfl, rfl, causeOfWord_word s.cfg v⟩, ⟨_, rfl, rfl, causeOfWord_word s.cfg v⟩,
    rfl, rfl, rfl, rfl, rfl⟩
  all_goals rw [← hepc]; rfl

/-! ### `mtvec` -/

theorem three_getLsbD (k : Nat) : (3 : Word).getLsbD k = decide (k < 2) :=
  Nat.testBit_two_pow_sub_one 2 k

theorem not_three_getLsbD {k : Nat} (h2 : 2 ≤ k) (hk : k < 64) : (~~~(3 : Word)).getLsbD k = true := by
  rw [BitVec.getLsbD_not, three_getLsbD]
  simp only [hk, decide_true, Bool.true_and, Bool.not_eq_true', decide_eq_false_iff_not]
  omega

theorem zero_getLsbD (k : Nat) : (0 : Word).getLsbD k = false :=
  BitVec.getLsbD_zero

/-- The fill reaches from bit `n - 1` down to the next writable bit. -/
theorem mtvecFillBelow_getLsbD (mask : Word) {k : Nat} (hk : k < 64) (n : Nat) :
    (mtvecFillBelow mask n).getLsbD k = true ↔ k < n ∧ ∀ j, k ≤ j → j < n → mask.getLsbD j = false := by
  induction n with
  | zero => simp [mtvecFillBelow]
  | succ n ih =>
    unfold mtvecFillBelow
    cases hn : mask.getLsbD n with
    | true =>
      have hstop : ¬ (k < n + 1 ∧ ∀ j, k ≤ j → j < n + 1 → mask.getLsbD j = false) := by
        rintro ⟨hlt, hall⟩
        rw [hall n (by omega) (by omega)] at hn
        cases hn
      simpa using hstop
    | false =>
      have hbit : (1#64 <<< n).getLsbD k = true ↔ k = n := by
        rw [BitVec.getLsbD_shiftLeft, BitVec.getLsbD_one]
        simp only [Bool.and_eq_true, Bool.not_eq_true', decide_eq_true_eq, decide_eq_false_iff_not]
        omega
      rw [if_neg Bool.false_ne_true, BitVec.getLsbD_or, Bool.or_eq_true, hbit, ih]
      constructor
      · rintro (rfl | ⟨hlt, hall⟩)
        · refine ⟨by omega, fun j hj hj' => ?_⟩
          obtain rfl : j = k := by omega
          exact hn
        · refine ⟨by omega, fun j hj hj' => ?_⟩
          rcases Nat.lt_succ_iff_lt_or_eq.1 hj' with h | rfl
          · exact hall j hj h
          · exact hn
      · rintro ⟨hlt, hall⟩
        rcases Nat.lt_succ_iff_lt_or_eq.1 hlt with h | h
        · exact .inr ⟨h, fun j hj hj' => hall j hj (by omega)⟩
        · exact .inl h

/-- Each bit of `mtvec` after a write, where some bit is writable. -/
theorem writeMtvec_getLsbD {c : Config} (hmask : c.mtvecWmask ≠ 0) (v : Word) {k : Nat} (h2 : 2 ≤ k)
    (hx : k < c.xlen) : (c.writeMtvec v).getLsbD k =
      ((c.resetMtvec.getLsbD k
          && !(c.mtvecWmask.getLsbD k || (mtvecFillBelow c.mtvecWmask (c.xlen - 1)).getLsbD k))
        || (v.getLsbD k && c.mtvecWmask.getLsbD k)
        || (c.topBit v && (mtvecFillBelow c.mtvecWmask (c.xlen - 1)).getLsbD k)) := by
  have hk : k < 64 := by
    have := width_cases c
    omega
  have hthree := not_three_getLsbD h2 hk
  rw [Config.writeMtvec, if_neg hmask]
  dsimp only
  rw [BitVec.getLsbD_and, hthree, trunc_getLsbD]
  cases c.topBit v <;> simp only [BitVec.getLsbD_or, BitVec.getLsbD_and, BitVec.getLsbD_not, hthree, hx, hk,
    decide_true, Bool.and_true, Bool.true_and, Bool.false_and, Bool.or_false, if_true, if_false, zero_getLsbD,
    Bool.false_eq_true]

theorem writeMtvec_and_three (c : Config) (v : Word) : c.writeMtvec v &&& 3 = 0 := by
  rw [← alignTvec_writeMtvec, Config.alignTvec, BitVec.and_assoc]
  simp

/-- The sign bit is writable where any bit is (R120). -/
theorem mtvecWmask_sign {c : Config} (hc : c.valid = true) (hmask : c.mtvecWmask ≠ 0) :
    c.mtvecWmask.getLsbD (c.xlen - 1) = true := by
  simp only [Config.valid, Config.mtvecValid, Bool.and_eq_true, Bool.or_eq_true, decide_eq_true_eq] at hc
  obtain ⟨⟨⟨-, hvalid⟩, -⟩, -⟩ := hc
  obtain ⟨⟨⟨-, htop⟩, -⟩, -⟩ := hvalid.resolve_left hmask
  exact htop

/-- Settles O22, bit by bit: writable, filled from the sign bit, or hard-wired. -/
theorem mtvecWrite : Obligations.MtvecWrite := by
  unfold Obligations.MtvecWrite
  intro s t v hvalid _ ht
  cases ht
  refine ⟨rfl, writeMtvec_and_three s.cfg v, fun h => if_pos h, fun hmask k h2 hx => ?_⟩
  have hbit := writeMtvec_getLsbD hmask v h2 hx
  have hfill := mtvecFillBelow_getLsbD s.cfg.mtvecWmask (k := k) (by have := width_cases s.cfg; omega) (s.cfg.xlen - 1)
  refine ⟨fun hw => ?writable, fun hw => ⟨fun hall => ?filled, fun ⟨j, hj, hjx, hjw⟩ => ?kept⟩⟩
  case writable =>
    have hstop : (mtvecFillBelow s.cfg.mtvecWmask (s.cfg.xlen - 1)).getLsbD k = false := by
      rw [← Bool.not_eq_true, hfill]
      rintro ⟨hlt, hbelow⟩
      rw [hbelow k le_rfl hlt] at hw
      cases hw
    simpa [hw, hstop] using hbit
  case filled =>
    have hne : k ≠ s.cfg.xlen - 1 := by
      rintro rfl
      rw [mtvecWmask_sign hvalid hmask] at hw
      cases hw
    have hreach : (mtvecFillBelow s.cfg.mtvecWmask (s.cfg.xlen - 1)).getLsbD k = true := by
      refine hfill.2 ⟨by omega, fun j hj hjx => ?_⟩
      rcases Nat.eq_or_lt_of_le hj with rfl | hlt
      · exact hw
      · exact hall j hlt hjx
    simpa [hw, hreach, Config.topBit] using hbit
  case kept =>
    have hstop : (mtvecFillBelow s.cfg.mtvecWmask (s.cfg.xlen - 1)).getLsbD k = false := by
      rw [← Bool.not_eq_true, hfill]
      rintro ⟨-, hbelow⟩
      rw [hbelow j hj.le hjx] at hjw
      cases hjw
    simpa [hw, hstop] using hbit

/-! ### Interrupt and delegation registers -/

theorem extraIntBits_getLsbD (c : Config) (k : Nat) : c.extraIntBits.getLsbD k = true ↔
    k < c.xlen ∧ 8 ≤ k ∧ ∃ e ∈ c.extraInterrupts, e.bit = k := by
  have hbyte : (0xFF : Word).getLsbD k = decide (k < 8) := Nat.testBit_two_pow_sub_one 8 k
  have hwidth := width_cases c
  simp only [Config.extraIntBits, BitVec.getLsbD_and, BitVec.getLsbD_not, trunc_getLsbD, bitsAt_getLsbD, hbyte,
    Bool.and_eq_true, Bool.not_eq_true', decide_eq_true_eq, decide_eq_false_iff_not, List.mem_map]
  constructor
  · rintro ⟨⟨hx, -, he⟩, -, h8⟩
    exact ⟨hx, by omega, he⟩
  · rintro ⟨hx, h8, he⟩
    exact ⟨⟨hx, by omega, he⟩, by omega, by omega⟩

/-- Settles O18: the arms of the write, and no added bits without added sources. -/
theorem interruptRegisterWrites : Obligations.InterruptRegisterWrites := by
  unfold Obligations.InterruptRegisterWrites
  intro s v
  refine ⟨rfl, rfl, rfl, rfl, rfl, rfl, fun hnone => ⟨?_, ?_⟩⟩
  · simp [Config.extraIntBits, hnone, bitsAt]
  · simp [Config.extraIntWritable, hnone, bitsAt]

/-- The standard traps: codes 0 to 11, and the six interrupt bits shifted by 16 (R124). -/
theorem standardTraps_getLsbD (k : Nat) :
    (0xEE0FFF : Word).getLsbD k = true ↔ k < 12 ∨ k ∈ [17, 18, 19, 21, 22, 23] := by
  by_cases hk : k < 24
  · interval_cases k <;> decide
  · have hbound : 2 ^ 24 ≤ 2 ^ k := Nat.pow_le_pow_right (by decide) (by omega)
    have hlow : (0xEE0FFF : Word).getLsbD k = false :=
      Nat.testBit_lt_two_pow (lt_of_lt_of_le (by decide : 0xEE0FFF < 2 ^ 24) hbound)
    simp only [hlow, List.mem_cons, List.not_mem_nil, Bool.false_eq_true, false_iff, or_false]
    omega

theorem delegDefined_getLsbD (c : Config) (k : Nat) : c.delegDefined.getLsbD k = true ↔
    (k < 12 ∨ k ∈ [17, 18, 19, 21, 22, 23]
      ∨ ∃ e ∈ c.extraInterrupts, 8 ≤ e.bit ∧ k = 16 + e.bit ∧ k < c.xlen) := by
  have hwidth := width_cases c
  rw [Config.delegDefined, BitVec.getLsbD_or, Bool.or_eq_true, standardTraps_getLsbD, or_assoc, trunc_getLsbD,
    BitVec.getLsbD_shiftLeft]
  refine or_congr_right (or_congr_right ?_)
  simp only [Bool.and_eq_true, Bool.not_eq_true', decide_eq_true_eq, decide_eq_false_iff_not, extraIntBits_getLsbD]
  constructor
  · rintro ⟨hx, ⟨-, h16⟩, -, h8, e, he, hbit⟩
    exact ⟨e, he, by omega, by omega, hx⟩
  · rintro ⟨e, he, h8, rfl, hx⟩
    exact ⟨hx, ⟨by omega, by omega⟩, by omega, by omega, e, he, by omega⟩

/-- Settles O20: the masks of the two registers, and the bits that name a trap. -/
theorem delegationWrites : Obligations.DelegationWrites := by
  unfold Obligations.DelegationWrites
  intro s v
  refine ⟨?_, ?_, delegDefined_getLsbD s.cfg⟩
  · by_cases hnone : s.cfg.has .s = false ∧ s.cfg.has .h = false
    · simp [csrWrite, Config.mtdelegMask, hnone]
    · have hsome : (s.cfg.has .s || s.cfg.has .h) = true := by
        simpa [imp_iff_not_or] using hnone
      simp only [csrWrite, Config.mtdelegMask, hsome, if_true, if_neg hnone, BitVec.and_assoc]
  · cases hh : s.cfg.has .h <;> simp [csrWrite, Config.htdelegMask, hh, BitVec.and_assoc]

/-! ### Base and bound -/

/-- Settles O23, by whether the system has the split registers. -/
theorem baseBoundAliases : Obligations.BaseBoundAliases := by
  unfold Obligations.BaseBoundAliases
  intro s v
  refine ⟨fun h => ?_, fun h => ⟨_, _, rfl, rfl, ?_⟩⟩
  · simp [csrWrite, csrRead, h]
  · simp [csrRead, h]

end Sys2Proof.Machine
end

section
/-!
The restricted views of `mstatus` under any CSR instruction (12_state_supervisor_csrs.md R171), and the supervisor's
trap-vector and paging registers under a CSR write (R175, R188, R189).
-/

namespace Sys2Proof.Machine

/-! ### `mstatus` after a write through the view -/

/-- `mstatus` with the bits of the view taken from a word: MPRV, XS, FS, the low bit of `PRV1`, and the enables IE1 and
IE. -/
def Mstatus.withView (m : Mstatus) (v : Word) : Mstatus :=
  { m with
    mprv := v.getLsbD 16
    xs := v.extractLsb' 14 2
    fs := v.extractLsb' 12 2
    e1 :=
      { prv := Priv.ofBits (BitVec.ofBool (m.e1.prv.bits.getLsbD 1) ++ BitVec.ofBool (v.getLsbD 4))
        ie := v.getLsbD 3 }
    e0 := { m.e0 with ie := v.getLsbD 0 } }

theorem maskedWrite_getLsbD (old mask v : Word) (k : Nat) :
    (maskedWrite old mask v).getLsbD k = if mask.getLsbD k then v.getLsbD k else old.getLsbD k := by
  simp only [maskedWrite, BitVec.getLsbD_or, BitVec.getLsbD_and, BitVec.getLsbD_not]
  cases hmask : mask.getLsbD k with
  | true => simp
  | false => simpa using fun h => BitVec.lt_of_getLsbD h

/-- A field inside the mask is the written value's. -/
theorem maskedWrite_extract_of_mask {old mask v : Word} {lo n : Nat} (h : ∀ k < n, mask.getLsbD (lo + k) = true) :
    (maskedWrite old mask v).extractLsb' lo n = v.extractLsb' lo n := by
  ext k hk
  rw [BitVec.getElem_extractLsb', BitVec.getElem_extractLsb', maskedWrite_getLsbD, if_pos (h k hk)]

/-- `PRV1` straddles the view: its low bit, bit 4, is in it and its high bit is not. -/
theorem maskedWrite_sstatusMask_prv1 (m : Mstatus) (v : Word) :
    (maskedWrite m.fields sstatusMask v).extractLsb' 4 2
      = BitVec.ofBool (m.e1.prv.bits.getLsbD 1) ++ BitVec.ofBool (v.getLsbD 4) := by
  have hhigh : m.fields.getLsbD 5 = m.e1.prv.bits.getLsbD 1 := by
    rw [← fields_p1, BitVec.getLsbD_extractLsb']
    rfl
  ext k hk
  rw [BitVec.getElem_extractLsb', maskedWrite_getLsbD, BitVec.getElem_append]
  match k with
  | 0 => simp [sstatusMask]
  | 1 => simpa [sstatusMask] using hhigh

/-- The fields of the word that a write through the view makes. -/
theorem mstatusOfWord_maskedWrite (m : Mstatus) (v : Word) :
    mstatusOfWord (maskedWrite m.fields sstatusMask v) = m.withView v := by
  have hkeptField : ∀ lo n, (∀ k < n, sstatusMask.getLsbD (lo + k) = false) →
      (maskedWrite m.fields sstatusMask v).extractLsb' lo n = m.fields.extractLsb' lo n :=
    fun _ _ => sstatus_word_extract
  have hkept : ∀ k, sstatusMask.getLsbD k = false →
      (maskedWrite m.fields sstatusMask v).getLsbD k = m.fields.getLsbD k := fun k hk => by
    rw [maskedWrite_getLsbD, hk, if_neg Bool.false_ne_true]
  have htaken : ∀ k, sstatusMask.getLsbD k = true →
      (maskedWrite m.fields sstatusMask v).getLsbD k = v.getLsbD k := fun k hk => by
    rw [maskedWrite_getLsbD, if_pos hk]
  have hfields := ofWord_fields m
  simp only [mstatusOfWord, stackEntryAt, Nat.reduceAdd, fields_p1, ofBits_bits] at hfields ⊢
  rw [hkeptField 17 5 (by decide), hkeptField 10 2 (by decide), hkeptField 7 2 (by decide),
    hkeptField 1 2 (by decide), maskedWrite_extract_of_mask (lo := 14) (by decide),
    maskedWrite_extract_of_mask (lo := 12) (by decide), maskedWrite_sstatusMask_prv1, hkept 9 (by decide),
    hkept 6 (by decide), htaken 16 (by decide), htaken 3 (by decide), htaken 0 (by decide)]
  exact congrArg (Mstatus.withView · v) hfields

/-- Where a mode beside M is supported no mode field is hard-wired, and a write through the view leaves the entries at or
above DEPTH as they were. -/
theorem hardwireStack_withView {c : Config} {m : Mstatus} (hm : mstatusOk c m = true) (hlive : c.modes ≠ .m)
    (v : Word) : Mstatus.hardwireStack c (m.withView v) = m.withView v := by
  have hwire : ∀ e : StackEntry, e.hardwire c = e := fun e => if_neg hlive
  have hstack := hardwireStack_of_mstatusOk hm
  simp only [Mstatus.hardwireStack, hwire] at hstack ⊢
  exact congrArg (Mstatus.withView · v) hstack

/-- The only mode field that a write through the view can change is `PRV1`. -/
theorem modesOk_withView_iff {c : Config} {m : Mstatus} (hm : mstatusOk c m = true) (v : Word) :
    Mstatus.modesOk c (Mstatus.hardwireUnits c (m.withView v)) = true ↔ c.has (m.withView v).e1.prv = true := by
  obtain ⟨-, -, -, -, hmodes⟩ := mstatusOk_iff.1 hm
  obtain ⟨h0, -, h2, h3⟩ := modesOk_iff.1 hmodes
  rw [modesOk_iff]
  exact ⟨fun ⟨_, h1, _⟩ => h1, fun h1 => ⟨h0, h1, h2, h3⟩⟩

theorem modes_ne_m_of_has {c : Config} {p : Priv} (h : c.has p = true) (hp : p ≠ .m) : c.modes ≠ .m := by
  intro hm
  cases p <;> simp [Config.has, hm] at h hp

theorem writeSstatus_eq (s : State) (v : Word) :
    writeSstatus s v = writeMstatus s (maskedWrite s.mstatus.fields sstatusMask v) := rfl

section
variable {s : State} (hm : mstatusOk s.cfg s.mstatus = true) (hlive : s.cfg.modes ≠ .m) {v : Word}
include hm hlive

/-- A write through the view completes where the mode it leaves in `PRV1` is supported. -/
theorem writeSstatus_supported (hp : s.cfg.has (s.mstatus.withView v).e1.prv = true) :
    writeSstatus s v = .ok { s with mstatus := Mstatus.hardwireUnits s.cfg (s.mstatus.withView v) } := by
  obtain ⟨-, -, -, hvm, -⟩ := mstatusOk_iff.1 hm
  rw [writeSstatus_eq, writeMstatus_ok, mstatusOfWord_maskedWrite, hardwireStack_withView hm hlive]
  exact ⟨rfl, hvm, (modesOk_withView_iff hm v).2 hp⟩

/-- It is refused where that mode is not supported. -/
theorem writeSstatus_unsupportedMode (hp : s.cfg.has (s.mstatus.withView v).e1.prv = false) :
    writeSstatus s v = .error .unsupportedMode := by
  obtain ⟨-, -, -, hvm, -⟩ := mstatusOk_iff.1 hm
  rw [writeSstatus_eq]
  refine writeMstatus_unsupportedMode ?_ ?_
  · rw [maskedWrite, sstatus_word_extract (by decide), fields_vm]
    exact hvm
  · rw [mstatusOfWord_maskedWrite, hardwireStack_withView hm hlive, modesOk_withView_iff hm, hp]
    exact Bool.false_ne_true

end

/-! ### CSR instructions on the view -/

theorem readSstatus_eq (s : State) : readSstatus s = (csrRead s .mstatus &&& 0x1F019)
    ||| (if s.mstatus.fs = 3 ∨ s.mstatus.xs = 3 then s.cfg.signBit else 0) := by
  simp only [readSstatus, sd_iff]
  rfl

/-- The register is one of the two names of the view. -/
def Csr.IsView (r : Csr) : Prop :=
  r = .sstatus ∨ r = .hstatus

theorem Csr.IsView.read {r : Csr} (h : r.IsView) (s : State) : csrRead s r = readSstatus s := by
  rcases h with rfl | rfl <;> rfl

theorem Csr.IsView.write {r : Csr} (h : r.IsView) (s : State) (v : Word) : csrWrite s r v = writeSstatus s v := by
  rcases h with rfl | rfl <;> rfl

/-- At either address, where its level is implemented and the mode is no lower, the access check gives a name of the
view. -/
theorem csrAccess_view {s : State} {a : CsrAddr} (w : Bool)
    (h : (a = 0x100#12 ∧ s.cfg.has .s = true ∧ 1 ≤ s.priv.level)
      ∨ (a = 0x200#12 ∧ s.cfg.has .h = true ∧ 2 ≤ s.priv.level)) :
    ∃ r, csrAccess s a w = some r ∧ r.IsView := by
  rcases h with ⟨rfl, hs, hlevel⟩ | ⟨rfl, hh, hlevel⟩
  · have hat : csrAt s.cfg 0x100 = some .sstatus := (csrAt_listed_iff rfl).2 ⟨.modeS, by decide, hs⟩
    exact ⟨.sstatus, csrAccess_some.2 ⟨hat, hlevel, fun _ => by decide, csrUnitOff_false.2 ⟨nofun, nofun⟩⟩, .inl rfl⟩
  · have hat : csrAt s.cfg 0x200 = some .hstatus := (csrAt_listed_iff rfl).2 ⟨.modeH, by decide, hh⟩
    exact ⟨.hstatus, csrAccess_some.2 ⟨hat, hlevel, fun _ => by decide, csrUnitOff_false.2 ⟨nofun, nofun⟩⟩, .inr rfl⟩

/-- Settles O15: both addresses name the view, and a write through it is decided by the mode it leaves in `PRV1`. -/
theorem sstatusView : Obligations.SstatusView := by
  unfold Obligations.SstatusView
  intro i s rd a w hm huse haddr old v below
  have hlive : s.cfg.modes ≠ .m := by
    rcases haddr with ⟨-, hs, -⟩ | ⟨-, hh, -⟩
    · exact modes_ne_m_of_has hs nofun
    · exact modes_ne_m_of_has hh nofun
  obtain ⟨r, hacc, hview⟩ := csrAccess_view w haddr
  have hold : csrRead s r = old := (hview.read s).trans (readSstatus_eq s)
  have hwrite : csrWrite s r (s.cfg.trunc (csrNew s (csrRead s r) i)) = writeSstatus s v := by
    rw [hview.write, hold]
  rw [exec_csrUse huse]
  refine ⟨?_, ?_, ?_⟩
  · rintro rfl
    rw [csrInstr_read hacc, hold]
  · rintro rfl hp
    exact csrInstr_refused hacc (hwrite.trans (writeSstatus_unsupportedMode hm hlive hp))
  · rintro rfl hp
    refine ⟨_, csrInstr_write hacc (hwrite.trans (writeSstatus_supported hm hlive hp)), ?_⟩
    rw [hold, writeReg_setMstatus]
    exact ⟨by simp [State.advance], rfl⟩

/-! ### Trap vectors and paging -/

/-- Clearing the low bits of a word rounds its number down. -/
theorem and_not_low_toNat (v : Word) (n : Nat) :
    (v &&& ~~~(BitVec.ofNat 64 (2 ^ n - 1))).toNat = v.toNat / 2 ^ n * 2 ^ n := by
  apply Nat.eq_of_testBit_eq
  intro k
  rw [Nat.testBit_mul_two_pow, Nat.testBit_div_two_pow, BitVec.testBit_toNat, BitVec.testBit_toNat,
    BitVec.getLsbD_and, BitVec.getLsbD_not, BitVec.getLsbD_ofNat, Nat.testBit_two_pow_sub_one]
  by_cases hn : n ≤ k
  · have hhigh : ¬ k < n := by omega
    simpa [hn, hhigh] using fun h => BitVec.lt_of_getLsbD h
  · have hlow : k < n := by omega
    simp [hn, hlow]

/-- Keeping the low ASIDLEN bits of a word is its number modulo `2^ASIDLEN`. -/
theorem and_sasidMask_toNat {c : Config} (hlen : c.asidlen ≤ 64) (v : Word) :
    (v &&& c.sasidMask).toNat = v.toNat % 2 ^ c.asidlen := by
  have hpow : 2 ^ c.asidlen ≤ 2 ^ 64 := Nat.pow_le_pow_right (by decide) hlen
  have hpos : 0 < 2 ^ c.asidlen := Nat.two_pow_pos c.asidlen
  rw [Config.sasidMask, BitVec.toNat_and, BitVec.toNat_ofNat, Nat.mod_eq_of_lt (by omega),
    Nat.and_two_pow_sub_one_eq_mod]

theorem alignTvec_toNat {c : Config} {v : Word} (hv : c.trunc v = v) :
    (c.alignTvec v).toNat = v.toNat / 4 * 4 := by
  rw [Config.alignTvec, hv]
  exact and_not_low_toNat v 2

/-- Settles O24, register by register. -/
theorem vectorAndPagingWrites : Obligations.VectorAndPagingWrites := by
  unfold Obligations.VectorAndPagingWrites
  intro s v hv hlen
  exact ⟨⟨_, rfl, rfl, alignTvec_toNat hv⟩, ⟨_, rfl, rfl, alignTvec_toNat hv⟩,
    ⟨_, rfl, rfl, and_not_low_toNat v 12⟩, ⟨_, rfl, rfl, and_sasidMask_toNat hlen v⟩⟩

end Sys2Proof.Machine
end

section
/-!
Memory and the untranslated access path (20_memory.md R220 to R247; 21_translation.md R264 to R266): the bits of a
little-endian value, a list of consecutive bytes as such a value, and who may access what where no scheme translates.
-/

namespace Sys2Proof.Machine

/-! ### Little-endian values -/

/-- Bit `i` of the `n` bytes at an address is bit `i % 8` of byte `i / 8`. -/
theorem Memory.readLE_getLsbD (m : Memory) (a n i : Nat) : (Memory.readLE m a n).getLsbD i =
    (decide (i < 64) && decide (i < 8 * n) && (Memory.read m (a + i / 8)).getLsbD (i % 8)) := by
  induction n generalizing a i with
  | zero => simp [Memory.readLE]
  | succ n ih =>
    rw [Memory.readLE, BitVec.getLsbD_or, BitVec.getLsbD_setWidth, BitVec.getLsbD_shiftLeft, ih]
    by_cases hi : i < 8
    · have hdiv : i / 8 = 0 := by omega
      have hmod : i % 8 = i := by omega
      have hlt : i < 8 * (n + 1) := by omega
      simp [hi, hdiv, hmod, hlt]
    · have hbyte : a + 1 + (i - 8) / 8 = a + i / 8 := by omega
      have hmod : (i - 8) % 8 = i % 8 := by omega
      have hlt : i - 8 < 8 * n ↔ i < 8 * (n + 1) := by omega
      have hhigh : (Memory.read m a).getLsbD i = false := BitVec.getLsbD_of_ge _ _ (by omega)
      have hword : i < 64 → i - 8 < 64 := by omega
      by_cases h64 : i < 64 <;> simp [hi, hbyte, hmod, hlt, hhigh, h64, hword]

/-- A little-endian value is the low bytes of any word that agrees with memory byte by byte. -/
theorem Memory.readLE_toNat_of_bytes {m : Memory} {a n : Nat} {v : Word}
    (hbytes : ∀ k, k < n → Memory.read m (a + k) = v.extractLsb' (8 * k) 8) :
    (Memory.readLE m a n).toNat = v.toNat % 2 ^ (8 * n) := by
  apply Nat.eq_of_testBit_eq
  intro i
  rw [Nat.testBit_mod_two_pow, BitVec.testBit_toNat, BitVec.testBit_toNat, Memory.readLE_getLsbD]
  by_cases hi : i < 8 * n
  · have hbit : 8 * (i / 8) + i % 8 = i := Nat.div_add_mod i 8
    rw [hbytes _ (by omega), BitVec.getLsbD_extractLsb', hbit]
    simpa [hi, Nat.mod_lt] using fun h => BitVec.lt_of_getLsbD h
  · simp [hi]

/-- Byte `k` of a little-endian value written, as bits 8k+7:8k of the value. -/
theorem Memory.read_writeLE_extract {m : Memory} {a k n : Nat} (v : Word) (hw : Memory.wf m = true) (hk : k < n) :
    Memory.read (Memory.writeLE m a v n) (a + k) = v.extractLsb' (8 * k) 8 := by
  rw [Memory.read_writeLE_inside hw hk]
  ext j hj
  simp [BitVec.getLsbD_ushiftRight]

/-- The low bytes of a value written read back, zero-extended. -/
theorem Memory.readLE_writeLE_toNat {m : Memory} (a n : Nat) (v : Word) (hw : Memory.wf m = true) :
    (Memory.readLE (Memory.writeLE m a v n) a n).toNat = v.toNat % 2 ^ (8 * n) :=
  Memory.readLE_toNat_of_bytes fun _ hk => Memory.read_writeLE_extract v hw hk

/-- Settles O46, from the laws of a little-endian write. -/
theorem memoryLittleEndian : Obligations.MemoryLittleEndian := by
  unfold Obligations.MemoryLittleEndian
  intro m a n v hw
  exact ⟨Memory.wf_writeLE a v n hw, fun _ hk => Memory.read_writeLE_extract v hw hk,
    fun _ hb => Memory.read_writeLE_outside hb, fun _ => Memory.readLE_writeLE_toNat a n v hw⟩

/-! ### Consecutive bytes -/

theorem gatherBytes_range' (m : Memory) (a n : Nat) : gatherBytes m (List.range' a n) = Memory.readLE m a n := by
  induction n generalizing a with
  | zero => rfl
  | succ n ih => rw [List.range'_succ, gatherBytes, ih, Memory.readLE]

theorem scatterBytes_range' (m : Memory) (v : Word) (a n : Nat) :
    scatterBytes m v (List.range' a n) = Memory.writeLE m a v n := by
  induction n generalizing m v a with
  | zero => rfl
  | succ n ih => rw [List.range'_succ, scatterBytes, ih, Memory.writeLE]

/-! ### The access path -/

theorem translateAddress_untranslated {s : State} {p : Priv} (va : Word) (acc : Acc)
    (h : p = .m ∨ s.mstatus.vm = 0) : translateAddress va acc p s = (some va, s) := by
  unfold translateAddress
  rcases h with h | h <;> simp [h]

/-- An AMO is a store to PMACCESS (20_memory.md R228). -/
theorem permissionKind_phys (acc : Acc) : permissionKind acc.phys =
    if acc = .fetch then .fetch else if acc = .load then .load else .store := by
  cases acc <;> rfl

theorem physOk_iff {c : Config} {acc : PhysAcc} {pa n : Nat} {p : Priv} : physOk c acc pa n p = true ↔
    (p = .m ∨ c.pmaccessOk (permissionKind acc) pa p = true) ∧ c.pmaOk acc pa n = true := by
  simp [physOk]

section
variable {s s1 : State} {acc : Acc} {va a : Word} {n : Nat}

/-- An address that a physical check refuses is an access fault (20_memory.md R247 steps 3 and 4). -/
theorem accessPath_refused (ht : translateAddress va acc (s.effPriv acc) s = (some a, s1))
    (hp : ¬ physOk s.cfg acc.phys (s.cfg.physical a) n (s.effPriv acc) = true) :
    accessPath acc va n s = .trap acc.faultCode va s1 := by
  simp [accessPath, ht, hp]

/-- An address that passes the checks and is no device's is reached (20_memory.md R247). -/
theorem accessPath_reached (ht : translateAddress va acc (s.effPriv acc) s = (some a, s1))
    (hp : physOk s.cfg acc.phys (s.cfg.physical a) n (s.effPriv acc) = true)
    (hd : s.cfg.isDevice (s.cfg.physical a) n = false) :
    accessPath acc va n s = .done (s.cfg.physical a) s1 := by
  simp [accessPath, ht, hp, hd]

/-- A plain access reaches its address modulo `2^PALEN` and changes nothing. -/
theorem PlainData.accessPath (h : PlainData s acc va n) :
    accessPath acc va n s = .done (s.cfg.physical va) s := by
  obtain ⟨hpriv, hpma, hdev⟩ := h
  exact accessPath_reached (translateAddress_untranslated va acc (.inl hpriv))
    (physOk_iff.mpr ⟨.inl hpriv, hpma⟩) hdev

/-! ### Loads and stores -/

theorem PlainData.dataPath (h : PlainData s acc va n) (ha : va.toNat % n = 0) :
    dataPath acc va n s = .done (List.range' (s.cfg.physical va) n) s := by
  rw [Machine.dataPath, if_pos ha, h.accessPath]

theorem PlainData.loadData (h : PlainData s .load va n) (ha : va.toNat % n = 0) :
    loadData va n s = .done (Memory.readLE s.mem (s.cfg.physical va) n) s := by
  rw [Machine.loadData, h.dataPath ha]
  simp only [gatherBytes_range']

theorem PlainData.storeData (h : PlainData s .store va n) (ha : va.toNat % n = 0) (v : Word) :
    storeData va v n s = .done () { s with mem := Memory.writeLE s.mem (s.cfg.physical va) v n } := by
  rw [Machine.storeData, h.dataPath ha]
  simp only [scatterBytes_range']

/-- A misaligned access that the hardware does not perform raises its code before any translation (20_memory.md R223). -/
theorem dataPath_misaligned (ha : va.toNat % n ≠ 0) (hno : s.cfg.misalignedDataOk = false) :
    dataPath acc va n s = .trap acc.misalignedCode va s := by
  simp [dataPath, ha, hno]

end

/-- Settles O47: neither path changes anything, so that the load reads the memory the store wrote. -/
theorem storeThenLoad : Obligations.StoreThenLoad := by
  unfold Obligations.StoreThenLoad
  intro s va v n _ ha hw hstore hload
  have hload' : PlainData { s with mem := Memory.writeLE s.mem (s.cfg.physical va) v n } .load va n := hload
  exact ⟨_, _, hstore.storeData ha v, hload'.loadData ha, rfl, Memory.readLE_writeLE_toNat _ n v hw,
    fun _ hb => Memory.read_writeLE_outside hb⟩

/-- Settles O6: a fetch in machine mode is a plain access of four bytes. -/
theorem machineFetch : Obligations.MachineFetch := by
  unfold Obligations.MachineFetch
  intro s hm halign hpc hpma hdev
  have hplain : PlainData s .fetch s.pc 4 := ⟨by simp [State.effPriv, hm], hpma, hdev⟩
  have hbytes : s.cfg.ialignBytes = 4 := by simp [Config.ialignBytes, halign]
  rw [fetchPath, if_neg (by simp [hbytes, hpc]), halign, hplain.accessPath]
  rfl

/-- Settles O48: the alignment check comes first in both paths. -/
theorem misalignedData : Obligations.MisalignedData := by
  unfold Obligations.MisalignedData
  intro s va v n ha hno
  constructor
  · rw [loadData, dataPath_misaligned ha hno, Acc.misalignedCode]
  · rw [storeData, dataPath_misaligned ha hno, Acc.misalignedCode]

/-- Settles O49: the translation answers the address itself, and the physical checks decide. -/
theorem untranslated : Obligations.Untranslated := by
  unfold Obligations.Untranslated
  intro s acc va n h pa kind allowed
  have ht := translateAddress_untranslated va acc h
  have hallowed : physOk s.cfg acc.phys (s.cfg.physical va) n (s.effPriv acc) = true ↔ allowed := by
    rw [physOk_iff, permissionKind_phys]
    rfl
  exact ⟨fun hno => accessPath_refused ht (mt hallowed.mp hno),
    fun hyes hdev => accessPath_reached ht (hallowed.mpr hyes) hdev⟩

end Sys2Proof.Machine
end

section
/-!
Translation below machine mode (21_translation.md R270 to R302): one segment's bound and base for Mbb and both halves of
Mbbid, the non-canonical addresses, the rights of the leaf types, and what a paged translation writes.
-/

namespace Sys2Proof.Machine

/-! ### Base and bound -/

theorem trunc_add_toNat (c : Config) (v w : Word) :
    (c.trunc (v + w)).toNat = (v.toNat + w.toNat) % 2 ^ c.xlen := by
  have hdvd : 2 ^ c.xlen ∣ 2 ^ 64 := Nat.pow_dvd_pow 2 (by rcases width_cases c with ⟨_, h⟩ | ⟨_, h⟩ <;> omega)
  rw [trunc_toNat, BitVec.toNat_add, Nat.mod_mod_of_dvd _ hdvd]

/-- One segment (R270): an address error from the bound on, below it the base added modulo `2^XLEN`. -/
def segmentMove (c : Config) (base bound a : Word) : Option Word :=
  if bound ≤ a then none else some (c.trunc (a + base))

/-- What a translation that is one segment's move answers, in numbers. -/
theorem segmentMove_spec {s : State} {base bound a : Word} {r : Option Word × State}
    (hr : r = (segmentMove s.cfg base bound a, s)) :
    (bound.toNat ≤ a.toNat → r = (none, s))
      ∧ (a.toNat < bound.toNat → ∃ b, r = (some b, s) ∧ b.toNat = (a.toNat + base.toNat) % 2 ^ s.cfg.xlen) := by
  subst hr
  constructor
  · intro hge
    rw [segmentMove, if_pos (BitVec.le_def.mpr hge)]
  · intro hlt
    rw [segmentMove, if_neg (by rw [BitVec.le_def]; omega)]
    exact ⟨_, rfl, trunc_add_toNat s.cfg a base⟩

theorem translateAddress_mbb {s : State} {p : Priv} (hvm : s.mstatus.vm = 1) (hp : p ≠ .m) (va : Word) (acc : Acc) :
    translateAddress va acc p s =
      (segmentMove s.cfg (mbbSegment s acc).1 (mbbSegment s acc).2 va, s) := by
  simp [translateAddress, hvm, hp, translateMbb, segmentMove]

/-- Settles O50: the three sources of base and bound are those of the segment the access moves by. -/
theorem baseAndBound : Obligations.BaseAndBound := by
  unfold Obligations.BaseAndBound
  intro s acc va base bound hvm hp hsource
  have hsegment : mbbSegment s acc = (base, bound) := by
    rcases hsource with ⟨hsplit, rfl, rfl⟩ | ⟨hsplit, hacc, rfl, rfl⟩ | ⟨hsplit, hacc, rfl, rfl⟩
    · simp [mbbSegment, hsplit]
    · simp [mbbSegment, hsplit, hacc]
    · simp [mbbSegment, hsplit, hacc]
  apply segmentMove_spec
  rw [translateAddress_mbb hvm hp, hsegment]

/-! ### Mbbid -/

section
variable {s : State} {p : Priv} (hvm : s.mstatus.vm = 2) (hp : p ≠ .m) (va : Word)
include hvm hp

theorem translateAddress_mbbid_data {acc : Acc} (hacc : acc ≠ .fetch) :
    translateAddress va acc p s = (segmentMove s.cfg s.seg.mdbase s.seg.mdbound va, s) := by
  simp [translateAddress, hvm, hp, translateMbbid, segmentMove, hacc]

theorem translateAddress_mbbid_low (htop : s.cfg.topBit va = false) : translateAddress va .fetch p s = (none, s) := by
  simp [translateAddress, hvm, hp, translateMbbid, htop]

theorem translateAddress_mbbid_high (htop : s.cfg.topBit va = true) : translateAddress va .fetch p s =
    (segmentMove s.cfg s.seg.mibase s.seg.mibound (va &&& ~~~s.cfg.signBit), s) := by
  simp [translateAddress, hvm, hp, translateMbbid, segmentMove, htop]

end

theorem lt_of_fits {c : Config} {v : Word} (hv : c.trunc v = v) : v.toNat < 2 ^ c.xlen := by
  rw [← hv, trunc_toNat]
  exact Nat.mod_lt _ (Nat.two_pow_pos _)

/-- The upper half of the address space is where the top bit is set. -/
theorem topBit_eq_decide {c : Config} {v : Word} (hv : c.trunc v = v) :
    c.topBit v = decide (2 ^ (c.xlen - 1) ≤ v.toNat) := by
  have hlt := lt_of_fits hv
  rw [Config.topBit, ← BitVec.testBit_toNat, Nat.testBit_eq_decide_div_mod_eq, decide_eq_decide]
  rcases width_cases c with ⟨_, hx⟩ | ⟨_, hx⟩ <;> rw [hx] at hlt ⊢ <;> omega

/-- The address without its top bit is its number modulo `2^(XLEN-1)`. -/
theorem and_not_signBit_toNat_mod {c : Config} {v : Word} (hv : c.trunc v = v) :
    (v &&& ~~~c.signBit).toNat = v.toNat % 2 ^ (c.xlen - 1) := by
  apply Nat.eq_of_testBit_eq
  intro k
  have hfits : v.getLsbD k = true → k < c.xlen := by
    intro hk
    have hbit := trunc_getLsbD c v k
    rw [hv, hk] at hbit
    simpa using hbit
  rw [Nat.testBit_mod_two_pow, BitVec.testBit_toNat, BitVec.testBit_toNat, BitVec.getLsbD_and, BitVec.getLsbD_not,
    signBit_getLsbD, Bool.eq_iff_iff]
  simp only [Bool.and_eq_true, Bool.not_eq_true', decide_eq_true_eq, decide_eq_false_iff_not]
  constructor
  · rintro ⟨hk, _, hne⟩
    have hx := hfits hk
    exact ⟨by omega, hk⟩
  · rintro ⟨hlt, hk⟩
    exact ⟨hk, BitVec.lt_of_getLsbD hk, by omega⟩

/-- In the upper half, clearing the top bit subtracts it. -/
theorem and_not_signBit_toNat {c : Config} {v : Word} (hv : c.trunc v = v) (hhigh : 2 ^ (c.xlen - 1) ≤ v.toNat) :
    (v &&& ~~~c.signBit).toNat = v.toNat - 2 ^ (c.xlen - 1) := by
  have hlt := lt_of_fits hv
  rw [and_not_signBit_toNat_mod hv]
  rcases width_cases c with ⟨_, hx⟩ | ⟨_, hx⟩ <;> rw [hx] at hlt hhigh ⊢ <;> omega

/-- Settles O51: a fetch in the upper half is a move by the instruction segment, data by the data segment. -/
theorem splitBaseAndBound : Obligations.SplitBaseAndBound := by
  unfold Obligations.SplitBaseAndBound
  intro s va p hvm hp hv
  have htop := topBit_eq_decide hv
  refine ⟨fun hlow => translateAddress_mbbid_low hvm hp va ?_, fun hhigh => ?_,
    fun acc hacc => segmentMove_spec (translateAddress_mbbid_data hvm hp va hacc)⟩
  · rw [htop, decide_eq_false (by omega)]
  · have hset : s.cfg.topBit va = true := by rw [htop, decide_eq_true hhigh]
    rw [← and_not_signBit_toNat hv hhigh]
    exact segmentMove_spec (translateAddress_mbbid_high hvm hp va hset)

/-! ### Non-canonical addresses -/

theorem getLsbD_of_canonical {va : Word} {n k : Nat} (h : canonical va n = true) (hpos : 0 < n) (hn : n ≤ k)
    (hk : k < 64) : va.getLsbD k = va.getLsbD (n - 1) := by
  have hext : va = (va.setWidth n).signExtend 64 := of_decide_eq_true h
  have hnk : ¬ k < n := by omega
  have hbit : (va.setWidth n).getLsbD (n - 1) = va.getLsbD (n - 1) := by
    rw [BitVec.getLsbD_setWidth, decide_eq_true (by omega : n - 1 < n), Bool.true_and]
  calc va.getLsbD k = ((va.setWidth n).signExtend 64).getLsbD k := congrArg (·.getLsbD k) hext
    _ = (va.setWidth n).msb := by rw [BitVec.getLsbD_signExtend, decide_eq_true hk, Bool.true_and, if_neg hnk]
    _ = va.getLsbD (n - 1) := by rw [BitVec.msb_eq_getLsbD_last, hbit]

/-- An address error of the translation is an access fault with the virtual address (20_memory.md R247 step 2). -/
theorem accessPath_untranslatable {s s1 : State} {acc : Acc} {va : Word}
    (ht : translateAddress va acc (s.effPriv acc) s = (none, s1)) (n : Nat) :
    accessPath acc va n s = .trap acc.faultCode va s1 := by
  simp [accessPath, ht]

/-- Settles O54: such an address is not canonical, and the check stands before the walk. -/
theorem nonCanonicalFaults : Obligations.NonCanonicalFaults := by
  unfold Obligations.NonCanonicalFaults
  intro s acc va n hp hbits
  apply accessPath_untranslatable
  rcases hbits with ⟨hvm, k, hk, hlt, hne⟩ | ⟨hvm, k, hk, hlt, hne⟩
  · have hnot : canonical va 39 ≠ true := fun h => hne (getLsbD_of_canonical h (by decide) hk hlt)
    simp [translateAddress, hp, hvm, hnot]
  · have hnot : canonical va 48 ≠ true := fun h => hne (getLsbD_of_canonical h (by decide) hk hlt)
    simp [translateAddress, hp, hvm, hnot]

/-! ### Rights of the leaf types -/

/-- Every privilege but U has the supervisor's rights (R284, R305). -/
theorem pteAllowed_of_ne_u {p : Priv} (hp : p ≠ .u) (type : Nat) (acc : Acc) :
    pteAllowed type acc p = pteAllowed type acc .s := by
  simp [pteAllowed, hp]

/-- The supervisor's column of the leaf types. -/
theorem pteAllowed_supervisor : ∀ type : BitVec 4, 2 ≤ type.toNat →
    pteAllowed type.toNat .load .s = true ∧ pteAllowed type.toNat .store .s = type.getLsbD 0
      ∧ pteAllowed type.toNat .fetch .s = (decide (6 ≤ type.toNat) && type.getLsbD 1) := by
  decide

/-- The user's column of the leaf types. -/
theorem pteAllowed_user : ∀ type : BitVec 4, 2 ≤ type.toNat →
    pteAllowed type.toNat .load .u = decide (type.toNat < 8)
      ∧ pteAllowed type.toNat .store .u = (decide (type.toNat < 8) && type.getLsbD 0)
      ∧ pteAllowed type.toNat .fetch .u = decide (type.toNat ∈ [2, 3, 6, 7]) := by
  decide

/-- Settles O52: the table's two columns; an AMO needs what a store needs. -/
theorem pagePermissions : Obligations.PagePermissions := by
  unfold Obligations.PagePermissions
  intro type p htype _
  refine ⟨fun hp => ?_, fun hp => ?_, rfl⟩
  · simp only [pteAllowed_of_ne_u hp]
    exact pteAllowed_supervisor type htype
  · rw [hp]
    exact pteAllowed_user type htype

/-! ### What a paged translation writes -/

theorem Memory.readLE_lt (m : Memory) (a n : Nat) : (Memory.readLE m a n).toNat < 2 ^ (8 * n) := by
  apply Nat.lt_pow_two_of_testBit
  intro i hi
  simp [BitVec.testBit_toNat, Memory.readLE_getLsbD, Nat.not_lt.mpr hi]

theorem Memory.readLE_writeLE {m : Memory} {n : Nat} {v : Word} (a : Nat) (hw : Memory.wf m = true)
    (hv : v.toNat < 2 ^ (8 * n)) : Memory.readLE (Memory.writeLE m a v n) a n = v :=
  BitVec.eq_of_toNat_eq (by rw [Memory.readLE_writeLE_toNat a n v hw, Nat.mod_eq_of_lt hv])

theorem pteUsedBits_lt (acc : Acc) : (pteUsedBits acc).toNat < 2 ^ 8 := by
  cases acc <;> decide

/-- R and D stand in the first byte of a PTE, so that setting them adds no byte. -/
theorem readLE_or_pteUsedBits_lt (m : Memory) (a : Nat) {n : Nat} (hn : 1 ≤ n) (acc : Acc) :
    (Memory.readLE m a n ||| pteUsedBits acc).toNat < 2 ^ (8 * n) := by
  rw [BitVec.toNat_or]
  exact Nat.or_lt_two_pow (Memory.readLE_lt m a n)
    ((pteUsedBits_lt acc).trans_le (Nat.pow_le_pow_right (by decide) (by omega)))

theorem findLeaf_mem (req : WalkReq) (s : State) : (findLeaf req s).2.mem = s.mem := by
  rw [findLeaf_frame]

theorem translatePaged_noLeaf {req : WalkReq} {s : State} (h : (findLeaf req s).1 = none) :
    (translatePaged req s).1 = none ∧ (translatePaged req s).2.mem = s.mem := by
  have hmem := findLeaf_mem req s
  unfold translatePaged
  generalize findLeaf req s = r at h hmem ⊢
  obtain ⟨_, s1⟩ := r
  subst h
  exact ⟨rfl, hmem⟩

/-- What a paged translation with a leaf does to memory: nothing and an address error, nothing and an address where the
leaf has the bits, or the bits set in the leaf's place. -/
theorem translatePaged_leaf_cases {req : WalkReq} {s : State} {e : TcEntry} (h : (findLeaf req s).1 = some e) :
    ((translatePaged req s).1 = none ∧ (translatePaged req s).2.mem = s.mem)
      ∨ (e.pte &&& pteUsedBits req.acc = pteUsedBits req.acc ∧ (translatePaged req s).2.mem = s.mem)
      ∨ (e.pte &&& pteUsedBits req.acc ≠ pteUsedBits req.acc ∧ (translatePaged req s).1 ≠ none
        ∧ (translatePaged req s).2.mem = Memory.writeLE s.mem e.pteAddr
            (Memory.readLE s.mem e.pteAddr e.pteBytes ||| pteUsedBits req.acc) e.pteBytes) := by
  have hmem := findLeaf_mem req s
  unfold translatePaged
  generalize findLeaf req s = r at h hmem ⊢
  obtain ⟨_, s1⟩ := r
  subst h
  dsimp only at hmem ⊢
  rw [← hmem]
  rcases useLeaf_cases req e s1 with hu | ⟨pa, hu, hset⟩ | ⟨pa, hu, hclear⟩ <;> rw [hu]
  · exact .inl ⟨rfl, rfl⟩
  · exact .inr (.inl ⟨hset, rfl⟩)
  · exact .inr (.inr ⟨hclear, Option.some_ne_none pa, rfl⟩)

/-- Settles O53, by what the translation does to memory. -/
theorem pageTableUpdate : Obligations.PageTableUpdate := by
  unfold Obligations.PageTableUpdate
  intro s req hw
  constructor
  · intro hnone
    cases hleaf : (findLeaf req s).1 with
    | none => exact (translatePaged_noLeaf hleaf).2
    | some e =>
      rcases translatePaged_leaf_cases hleaf with ⟨_, hmem⟩ | ⟨_, hmem⟩ | ⟨_, hsome, _⟩
      · exact hmem
      · exact hmem
      · exact absurd hnone hsome
  · intro e hleaf
    rcases translatePaged_leaf_cases hleaf with ⟨hnone, hmem⟩ | ⟨hset, hmem⟩ | ⟨hclear, _, hmem⟩
    · rw [hnone, hmem]
      exact ⟨fun _ _ => rfl, fun _ => rfl, fun _ h => nomatch h⟩
    · rw [hmem]
      exact ⟨fun _ _ => rfl, fun _ => rfl, fun _ _ hclear => absurd hset hclear⟩
    · rw [hmem]
      exact ⟨fun _ ha => Memory.read_writeLE_outside ha, fun hset => absurd hset hclear,
        fun _ _ _ hn _ => Memory.readLE_writeLE _ hw (readLE_or_pteUsedBits_lt _ _ hn _)⟩

end Sys2Proof.Machine
end

section
/-!
Decoding and encoding as inverse maps (30_encoding.md R324, R333): a word decodes to an instruction exactly where it is
the instruction's word.
-/

namespace Sys2Proof

/-! ### From the instruction to its word -/

/-- Every instruction is read back from its word: the fields of an I-type word are the ones it was made of. -/
theorem decode_encode (i : Instr) : decode (encode i) = .ok i := by
  cases i with
  | csrrw | csrrs | csrrc | csrrwi | csrrsi | csrrci =>
    simp only [decode, encode, iType_opcode, iType_funct3, iType_csr, iType_rd, iType_rs1, iType_zimm]
    rfl
  | sfenceVm =>
    simp only [decode, decodePriv, encode, iType_opcode, iType_funct3, iType_csr, iType_rd, iType_rs1]
    rfl
  | ecall | ebreak | eret | mrts | mrth | hrts | wfi => decide

/-- Settles O1, through the word of the instruction and then through that word's bytes. -/
theorem decodeEncode : Obligations.DecodeEncode := by
  unfold Obligations.DecodeEncode
  intro i rest
  refine ⟨decode_encode i, ?_⟩
  rw [decodeBytes_bytesOfWord, decode_encode]
  rfl

/-! ### From the word to its instruction -/

/-- A SYSTEM word is made of its fields, the minor opcode being given. -/
theorem iType_of_funct3 {w : BitVec 32} {f : BitVec 3} (hop : opcodeOf w = opcodeSystem) (hf : funct3Of w = f) :
    iType (csrOf w) (zimmOf w) f (BitVec.ofFin (w := 5) (rdOf w)) = w := by
  rw [← hf]
  exact iType_of_fields hop

/-- A word of the PRIV minor opcode whose `rd` is 0 is made of its `csr` and `rs1` fields. -/
theorem iType_of_priv {w : BitVec 32} {c : CsrAddr} (hop : opcodeOf w = opcodeSystem) (hf : funct3Of w = 0)
    (hrd : rdOf w = 0) (hc : csrOf w = c) : iType c (BitVec.ofFin (w := 5) (rs1Of w)) 0 0 = w := by
  have hw := iType_of_funct3 hop hf
  rw [hrd, hc] at hw
  exact hw

/-- A word of the PRIV minor opcode whose operand fields are all 0 is made of its `csr` field. -/
theorem iType_of_privNullary {w : BitVec 32} {c : CsrAddr} (hop : opcodeOf w = opcodeSystem) (hf : funct3Of w = 0)
    (hrd : rdOf w = 0) (hrs : rs1Of w = 0) (hc : csrOf w = c) : iType c 0 0 0 = w := by
  have hw := iType_of_priv hop hf hrd hc
  rw [hrs] at hw
  exact hw

/-- A PRIV word that decodes is its instruction's word: one case per branch of the decoder that answers an
instruction. -/
theorem encode_of_decodePriv {w : BitVec 32} {i : Instr} (hop : opcodeOf w = opcodeSystem) (hf : funct3Of w = 0)
    (h : decodePriv w = .ok i) : encode i = w := by
  simp only [decodePriv, ite_eq_iff, Except.ok.injEq, reduceCtorEq, and_false, false_or, or_false, ne_eq, not_not] at h
  obtain ⟨hrd, ⟨hfence, rfl⟩ | ⟨-, hrs, ⟨hecall, rfl⟩ | ⟨-, ⟨hebreak, rfl⟩ | ⟨-, ⟨heret, rfl⟩ | ⟨-, ⟨hwfi, rfl⟩ |
    ⟨-, ⟨hmrts, rfl⟩ | ⟨-, ⟨hmrth, rfl⟩ | ⟨-, hhrts, rfl⟩⟩⟩⟩⟩⟩⟩⟩ := h
  · exact iType_of_priv hop hf hrd hfence
  · exact iType_of_privNullary hop hf hrd hrs hecall
  · exact iType_of_privNullary hop hf hrd hrs hebreak
  · exact iType_of_privNullary hop hf hrd hrs heret
  · exact iType_of_privNullary hop hf hrd hrs hwfi
  · exact iType_of_privNullary hop hf hrd hrs hmrts
  · exact iType_of_privNullary hop hf hrd hrs hmrth
  · exact iType_of_privNullary hop hf hrd hrs hhrts

/-- A word that decodes is its instruction's word, by the branches of the minor opcode. -/
theorem encode_of_decode {w : BitVec 32} {i : Instr} (h : decode w = .ok i) : encode i = w := by
  simp only [decode, ite_eq_iff, Except.ok.injEq, reduceCtorEq, and_false, false_or, or_false, ne_eq, not_not] at h
  obtain ⟨hop, ⟨hpriv, h⟩ | ⟨-, ⟨hrw, rfl⟩ | ⟨-, ⟨hrs, rfl⟩ | ⟨-, ⟨hrc, rfl⟩ | ⟨-, ⟨hrwi, rfl⟩ | ⟨-, ⟨hrsi, rfl⟩ |
    ⟨-, hrci, rfl⟩⟩⟩⟩⟩⟩⟩ := h
  · exact encode_of_decodePriv hop hpriv h
  · exact iType_of_funct3 hop hrw
  · exact iType_of_funct3 hop hrs
  · exact iType_of_funct3 hop hrc
  · exact iType_of_funct3 hop hrwi
  · exact iType_of_funct3 hop hrsi
  · exact iType_of_funct3 hop hrci

/-- A word decodes to an instruction exactly where it is the instruction's word. -/
theorem decode_eq_ok_iff {w : BitVec 32} {i : Instr} : decode w = .ok i ↔ encode i = w :=
  ⟨encode_of_decode, fun h => h ▸ decode_encode i⟩

/-- The word of an instruction carries the bits that its row fixes. -/
theorem encode_and_row (i : Instr) : encode i &&& i.row.2 = i.row.1 := by
  cases i with
  | csrrw rd csr rs1 => exact Laws.Encoding.csrrw rd csr rs1
  | csrrs rd csr rs1 => exact Laws.Encoding.csrrs rd csr rs1
  | csrrc rd csr rs1 => exact Laws.Encoding.csrrc rd csr rs1
  | csrrwi rd csr zimm => exact Laws.Encoding.csrrwi rd csr zimm
  | csrrsi rd csr zimm => exact Laws.Encoding.csrrsi rd csr zimm
  | csrrci rd csr zimm => exact Laws.Encoding.csrrci rd csr zimm
  | ecall => exact Laws.Encoding.ecall
  | ebreak => exact Laws.Encoding.ebreak
  | eret => exact Laws.Encoding.eret
  | mrts => exact Laws.Encoding.mrts
  | mrth => exact Laws.Encoding.mrth
  | hrts => exact Laws.Encoding.hrts
  | wfi => exact Laws.Encoding.wfi
  | sfenceVm rs1 => exact Laws.Encoding.sfenceVm rs1

/-- Settles O2: the word that decodes is the instruction's word, and that carries the row's bits. -/
theorem encodeDecode : Obligations.EncodeDecode := by
  unfold Obligations.EncodeDecode
  intro w i h
  obtain rfl := encode_of_decode h
  exact ⟨encode_and_row i, rfl⟩

/-- Settles O3: each word written out is the word of its instruction. -/
theorem decodeWords : Obligations.DecodeWords := by
  unfold Obligations.DecodeWords
  simp only [decode_eq_ok_iff]
  decide

/-! ### The words of no instruction (R327) -/

/-- What R327 lists decodes to no instruction: by minor opcode, and under PRIV by the first field that no row allows. -/
theorem decode_unallocated {w : BitVec 32} (hop : opcodeOf w = opcodeSystem) (hw : Machine.Unallocated w) :
    decode w = .error .unallocatedSystem := by
  rcases hw with hf | ⟨hf, hpriv⟩
  · simp [decode, hop, hf]
  · have hdecode : decode w = decodePriv w := by simp [decode, hop, hf]
    rw [hdecode]
    rcases hpriv with hrd | hcsr | ⟨hfence, hrs⟩
    · simp [decodePriv, hrd]
    · simp only [List.mem_cons, List.not_mem_nil, or_false, not_or] at hcsr
      simp [decodePriv, hcsr]
    · simp [decodePriv, hfence, hrs]

end Sys2Proof

namespace Sys2Proof.Machine

/-- The bytes of a SYSTEM word without an instruction are read as such a word. -/
theorem decodeFetched_unallocated {w : BitVec 32} (h : decode w = .error .unallocatedSystem) :
    decodeFetched (bytesOfWord w) = .error .unallocatedSystem := by
  have hbytes : decodeBytes (bytesOfWord w) = .error .unallocatedSystem := by
    simpa [h, Except.map] using decodeBytes_bytesOfWord w []
  simp only [decodeFetched, hbytes]

/-- Settles O4: the word fetched decodes to no instruction, so what runs is the illegal-instruction trap. -/
theorem unallocatedSystemTraps : Obligations.UnallocatedSystemTraps := by
  unfold Obligations.UnallocatedSystemTraps
  intro s s1 w hfetch hop hw
  have hdec := decodeFetched_unallocated (decode_unallocated hop hw)
  rw [step_of_fetchesWord hfetch, hdec]
  rfl

end Sys2Proof.Machine
end

section
/-!
The CSR instructions where the access check passes: the forms that only read, and those that write
(40_csr_instructions.md R350 to R357).
-/

namespace Sys2Proof.Machine

/-- The refusal of 92_eei_decisions.md D16 is the status registers' alone: every other register has a write for every
value. -/
theorem csrWrite_completes {r : Csr} (hm : r ≠ .mstatus) (hs : r ≠ .sstatus) (hh : r ≠ .hstatus) (s : State) (v : Word) :
    ∃ t, csrWrite s r v = .ok t := by
  cases r with
  | mstatus => exact absurd rfl hm
  | sstatus => exact absurd rfl hs
  | hstatus => exact absurd rfl hh
  | _ => exact ⟨_, rfl⟩

/-- Settles O11: the common operation at the instruction's operands, by what the register's write answers. -/
theorem csrWriteForms : Obligations.CsrWriteForms := by
  unfold Obligations.CsrWriteForms
  intro i s rd a r huse hacc v
  rw [exec_csrUse huse]
  refine ⟨fun t ht => csrInstr_write hacc ht, fun e he => csrInstr_refused hacc he, fun hm hs hh => ?_⟩
  obtain ⟨t, ht⟩ := csrWrite_completes hm hs hh s v
  exact ⟨t, ht, csrInstr_write hacc ht⟩

/-- Settles O10: the common operation at the instruction's operands, in its form that only reads the CSR. -/
theorem csrReadOnlyForms : Obligations.CsrReadOnlyForms := by
  unfold Obligations.CsrReadOnlyForms
  intro i s rd a r huse hacc
  rw [exec_csrUse huse, csrInstr_read hacc]

end Sys2Proof.Machine
end

section
/-!
The instructions that change the privilege level (41_privilege_change.md R370 to R373): what a trap records, what ERET,
MRTS, MRTH and the instructions beside them answer, and which of them change the mode.
-/

namespace Sys2Proof.Machine

/-! ### The record of a trap (60_exceptions.md R440) -/

/-- U has no trap registers, so a trap into it would record nothing. -/
theorem enterTrap_recorded {p : Priv} (hp : p ≠ .u) (handler : Word) (cause : Cause) (epc : Word) (bad : Option Word)
    (s : State) : TrapRecorded s (enterTrap p handler cause epc bad s) p cause epc bad := by
  cases p with
  | u => exact absurd rfl hp
  | m | h | s =>
    refine ⟨rfl, rfl, rfl, ?_⟩
    rintro a rfl
    rfl

theorem takeTrap_recorded (b : Nat) (cause : Cause) (epc : Word) (bad : Option Word) (s : State) :
    TrapRecorded s (takeTrap b cause epc bad s) (trapTarget s b) cause epc bad :=
  enterTrap_recorded (trapTarget_ne_u s b) _ cause epc bad s

@[simp] theorem takeTrap_pc (b : Nat) (cause : Cause) (epc : Word) (bad : Option Word) (s : State) :
    (takeTrap b cause epc bad s).pc = handlerAddress s cause (trapTarget s b) :=
  enterTrap_pc _ _ cause epc bad s

/-- The code of an environment call is the number R370 gives; it fits the 4-bit field at every level. -/
theorem ecallCode_toNat (p : Priv) : (ecallCode p).toNat = 8 + p.level := by
  cases p <;> rfl

theorem ecallCode_eq (p : Priv) : ecallCode p = BitVec.ofNat 4 (8 + p.level) := by
  cases p <;> rfl

/-- ECALL is the trap whose delegation bit and code are 8 plus the mode (R370, R443). -/
theorem exec_ecall (s : State) : exec .ecall s = .next (takeTrap (8 + s.priv.level)
    { interrupt := false, code := BitVec.ofNat 4 (8 + s.priv.level) } s.pc none s) := by
  rw [← ecallCode_eq, ← ecallCode_toNat]
  rfl

/-- EBREAK is the trap whose delegation bit and code are 3 (R371, R443). -/
theorem exec_ebreak (s : State) :
    exec .ebreak s = .next (takeTrap 3 { interrupt := false, code := 3 } s.pc none s) := rfl

/-- Settles O26: both instructions are traps, and every trap goes to its handler and is recorded at its target. -/
theorem environmentCalls : Obligations.EnvironmentCalls := by
  unfold Obligations.EnvironmentCalls
  intro s call break_
  exact ⟨⟨_, exec_ecall s, takeTrap_pc _ call _ _ s, takeTrap_recorded _ call _ _ s⟩,
    ⟨_, exec_ebreak s, takeTrap_pc _ break_ _ _ s, takeTrap_recorded _ break_ _ _ s⟩⟩

/-! ### ERET (41_privilege_change.md R372) -/

/-- A pop enters the mode below, on an M-only machine always M (11_state_machine_csrs.md R103). -/
theorem pop_prv (s : State) : (Mstatus.pop s.cfg s.mstatus).e0.prv = modeBelow s := by
  simp only [Mstatus.pop, Mstatus.hardwireStack, StackEntry.hardwire, modeBelow]
  split <;> rfl

/-- A pop restores the interrupt enable below; hard-wiring touches modes alone. -/
theorem pop_ie (c : Config) (m : Mstatus) : (Mstatus.pop c m).e0.ie = m.e1.ie := by
  simp only [Mstatus.pop, Mstatus.hardwireStack, StackEntry.hardwire]
  split <;> rfl

section
variable {s : State} (hp : s.priv ≠ .u)
include hp

theorem execEret_unsupportedMode (hmode : s.cfg.has (modeBelow s) = false) :
    execEret s = .refused .unsupportedMode := by
  simp [execEret, hp, pop_prv, hmode]

theorem execEret_escalation (hmode : s.cfg.has (modeBelow s) = true) (href : s.cfg.eretEscalation = .refuse)
    (hrise : s.priv.level < (modeBelow s).level) : execEret s = .refused .eretEscalation := by
  simp [execEret, hp, pop_prv, hmode, href, hrise]

theorem execEret_return (hmode : s.cfg.has (modeBelow s) = true)
    (hallow : s.cfg.eretEscalation = .literal ∨ (modeBelow s).level ≤ s.priv.level) :
    execEret s = .next (trapReturn (s.trapRegs s.priv).epc s) := by
  have hnot : ¬ (s.cfg.eretEscalation = .refuse ∧ s.priv.level < (modeBelow s).level) := by
    rintro ⟨href, hrise⟩
    rcases hallow with hlit | hle
    · rw [hlit] at href
      cases href
    · omega
  simp [execEret, hp, pop_prv, hmode, hnot]

/-- Above U the epc of the current mode is that of its own trap registers. -/
theorem trapRegs_priv_epc :
    (s.trapRegs s.priv).epc = if s.priv = .m then s.tm.epc else if s.priv = .h then s.th.epc else s.ts.epc := by
  cases h : s.priv with
  | u => exact absurd h hp
  | m | h | s => rfl

end

/-- Settles O32, by what ERET answers above U: refused for the mode below, refused for the rise, or the return. -/
theorem eretReturns : Obligations.EretReturns := by
  unfold Obligations.EretReturns
  intro s hp
  refine ⟨execEret_unsupportedMode hp, execEret_escalation hp, fun hmode hallow => ?_⟩
  exact ⟨_, execEret_return hp hmode hallow, rfl, trapRegs_priv_epc hp, rfl, pop_prv s, pop_ie _ _, rfl, rfl, rfl, rfl⟩

/-! ### What the other instructions answer as a next state -/

/-- MRTS redirects to S, in M with S, or is illegal (42_trap_redirect.md R380). -/
theorem execMrts_next {s t : State} (h : execMrts s = .next t) :
    t = raiseException 2 none s ∨ (s.priv = .m ∧ s.cfg.has .s = true ∧ t = redirectTrap .s s.stvec s) := by
  unfold execMrts at h
  split at h
  · rename_i hc
    cases h
    obtain ⟨hp, hhas⟩ := (Bool.and_eq_true _ _).mp hc
    exact .inr ⟨of_decide_eq_true hp, hhas, rfl⟩
  · cases h
    exact .inl rfl

/-- MRTH redirects to H, in M with H, or is illegal (R381). -/
theorem execMrth_next {s t : State} (h : execMrth s = .next t) :
    t = raiseException 2 none s ∨ (s.priv = .m ∧ s.cfg.has .h = true ∧ t = redirectTrap .h s.htvec s) := by
  unfold execMrth at h
  split at h
  · rename_i hc
    cases h
    obtain ⟨hp, hhas⟩ := (Bool.and_eq_true _ _).mp hc
    exact .inr ⟨of_decide_eq_true hp, hhas, rfl⟩
  · cases h
    exact .inl rfl

/-- WFI is illegal, or changes `pc`, the stall and the counter of free values (43_wfi.md R390). -/
theorem execWfi_next {s t : State} (h : execWfi s = .next t) :
    t = raiseException 2 none s ∨ t = { s with pc := t.pc, stalled := t.stalled, draws := t.draws } := by
  unfold execWfi at h
  split at h
  · cases h
    exact .inl rfl
  · cases h
    exact .inr rfl

/-- SFENCE.VM is illegal, or changes `pc` and the translation cache (44_sfence_vm.md R400). -/
theorem execSfenceVm_next {rs1 : Reg} {s t : State} (h : execSfenceVm rs1 s = .next t) :
    t = raiseException 2 none s ∨ t = { s with pc := t.pc, tc := t.tc } := by
  unfold execSfenceVm at h
  split at h
  · cases h
    exact .inl rfl
  · cases h
    exact .inr rfl

/-! ### What leaves the mode as it is -/

@[simp] theorem advance_priv (s : State) : s.advance.priv = s.priv := rfl

@[simp] theorem writeReg_priv (s : State) (r : Reg) (v : Word) : (s.writeReg r v).priv = s.priv := by
  simp [State.priv]

@[simp] theorem redirectTrap_priv (p : Priv) (handler : Word) (s : State) : (redirectTrap p handler s).priv = p := by
  simp [State.priv]

/-- Only M reaches the highest level. -/
theorem eq_m_of_three_le_level {p : Priv} (h : 3 ≤ p.level) : p = .m := by
  cases p with
  | m => rfl
  | u | s | h => exact absurd h (by decide)

theorem csrTable_mstatus : ∀ row ∈ csrTable, row.2.1 = .mstatus → row.1 = 0x300 := by decide

/-- `mstatus` stands at one address, which only M may access (10_state.md R41, R50). -/
theorem csrAccess_mstatus_iff {s : State} {a : CsrAddr} {w : Bool} :
    csrAccess s a w = some .mstatus ↔ a = 0x300 ∧ s.priv = .m := by
  constructor
  · intro h
    obtain ⟨hat, hlevel, -, -⟩ := csrAccess_some.1 h
    obtain ⟨need, hrow, -⟩ := (csrAt_listed_iff rfl).1 hat
    obtain rfl : a = 0x300 := csrTable_mstatus _ hrow rfl
    exact ⟨rfl, eq_m_of_three_le_level hlevel⟩
  · rintro ⟨rfl, hp⟩
    exact csrAccess_mstatus w hp

/-- A CSR instruction that completes keeps the mode unless it writes `mstatus`. -/
theorem csrInstr_priv {rd : Reg} {a : CsrAddr} {w : Bool} {new : Word → Word} {s t : State}
    (hm : mstatusOk s.cfg s.mstatus = true) (h : csrInstr rd a w new s = .next t) :
    t = raiseException 2 none s ∨ t.priv = s.priv ∨ (s.priv = .m ∧ a = 0x300 ∧ w = true) := by
  rcases csrInstr_next h with ⟨-, rfl⟩ | ⟨r, hacc, ⟨-, rfl⟩ | ⟨rfl, u, hwrite, rfl⟩⟩
  · exact .inl rfl
  · exact .inr (.inl (by simp))
  · obtain ⟨-, -, -, -, -, -, -, -, -, -, -, hkeep, -⟩ := csrWriteFrame s u r _ hm hwrite
    by_cases hr : r = .mstatus
    · subst hr
      obtain ⟨ha, hp⟩ := csrAccess_mstatus_iff.1 hacc
      exact .inr (.inr ⟨hp, ha, rfl⟩)
    · exact .inr (.inl (by simpa using (hkeep hr).1))

/-- Settles O58, instruction by instruction: each takes a trap, keeps the mode, or is one of those R373 names. -/
theorem privilegeChanges : Obligations.PrivilegeChanges := by
  unfold Obligations.PrivilegeChanges
  intro i s t hm h hne
  cases i
  case csrrw | csrrs | csrrc | csrrwi | csrrsi | csrrci =>
    rw [exec_csrUse rfl] at h
    rcases csrInstr_priv hm h with htrap | hkeep | ⟨hp, rfl, hw⟩
    · exact .inl ⟨2, htrap⟩
    · exact absurd hkeep hne
    · exact .inr (.inr ⟨hp, .inr (.inr ⟨_, congrArg (fun b => some (_, _, b)) hw⟩)⟩)
  case ecall | ebreak | hrts =>
    cases h
    exact .inl ⟨_, rfl⟩
  case eret => exact .inr (.inl rfl)
  case mrts =>
    rcases execMrts_next h with htrap | ⟨hp, -, rfl⟩
    · exact .inl ⟨2, htrap⟩
    · exact .inr (.inr ⟨hp, .inl ⟨rfl, redirectTrap_priv _ _ s⟩⟩)
  case mrth =>
    rcases execMrth_next h with htrap | ⟨hp, -, rfl⟩
    · exact .inl ⟨2, htrap⟩
    · exact .inr (.inr ⟨hp, .inr (.inl ⟨rfl, redirectTrap_priv _ _ s⟩)⟩)
  case wfi =>
    rcases execWfi_next h with htrap | hsame
    · exact .inl ⟨2, htrap⟩
    · exact absurd (congrArg State.priv hsame) hne
  case sfenceVm =>
    rcases execSfenceVm_next h with htrap | hsame
    · exact .inl ⟨2, htrap⟩
    · exact absurd (congrArg State.priv hsame) hne

end Sys2Proof.Machine
end

section
/-!
Trap redirection (42_trap_redirect.md R380 to R383): what HRTS, MRTS and MRTH answer, and that a trap taken by M and
redirected leaves what the delegated trap leaves.
-/

namespace Sys2Proof.Machine

/-! ### The instructions -/

/-- HRTS is the trap whose delegation bit and code are 2 (R382). -/
theorem exec_hrts (s : State) :
    exec .hrts s = .next (takeTrap 2 { interrupt := false, code := 2 } s.pc none s) := rfl

/-- Settles O34: HRTS is a trap, and every trap goes to its handler and is recorded at its target. -/
theorem hrtsIllegal : Obligations.HrtsIllegal := by
  unfold Obligations.HrtsIllegal
  intro s illegal
  exact ⟨_, exec_hrts s, takeTrap_pc _ illegal _ _ s, takeTrap_recorded _ illegal _ _ s⟩

theorem exec_mrts_redirects {s : State} (hp : s.priv = .m) (hs : s.cfg.has .s = true) :
    exec .mrts s = .next (redirectTrap .s s.stvec s) :=
  if_pos (by simp [hp, hs])

theorem exec_mrth_redirects {s : State} (hp : s.priv = .m) (hh : s.cfg.has .h = true) :
    exec .mrth s = .next (redirectTrap .h s.htvec s) :=
  if_pos (by simp [hp, hh])

/-- Settles O36: in M, with the level, each instruction is the redirection to that level. -/
theorem redirectInstructions : Obligations.RedirectInstructions := by
  unfold Obligations.RedirectInstructions
  intro s hp
  exact ⟨exec_mrts_redirects hp, exec_mrth_redirects hp⟩

/-! ### A trap redirected -/

/-- A trap whose bit is clear in `mtdeleg` is handled by M, whatever level it came from (60_exceptions.md R445). -/
theorem trapTarget_undelegated {s : State} {b : Nat} (h : s.mtdeleg.getLsbD b = false) : trapTarget s b = .m := by
  simp [trapTarget, h]

/-- With the bit cleared in `mtdeleg` the trap enters M; its handler is the one M has in the state as it was. -/
theorem takeTrap_undelegated (s : State) {b : Nat} {m : Word} (h : m.getLsbD b = false) (cause : Cause) (epc : Word)
    (bad : Option Word) : takeTrap b cause epc bad { s with mtdeleg := m }
      = enterTrap .m (handlerAddress s cause .m) cause epc bad { s with mtdeleg := m } := by
  unfold takeTrap
  rw [trapTarget_undelegated (s := { s with mtdeleg := m }) h]
  rfl

/-- After an entry into M the mode is M: where the mode field is hard-wired, it is hard-wired to M
(11_state_machine_csrs.md R103). -/
theorem enterTrap_m_priv (handler : Word) (cause : Cause) (epc : Word) (bad : Option Word) (s : State) :
    (enterTrap .m handler cause epc bad s).priv = .m := by
  simp only [State.priv, enterTrap_mstatus, Mstatus.push, Mstatus.hardwireStack, StackEntry.hardwire, ite_self]

/-- Where modes are not hard-wired, pushing one mode and then replacing it in entry 0 is pushing the other. -/
theorem push_setPrv {c : Config} (hlive : c.modes ≠ .m) (p q : Priv) (m : Mstatus) :
    { Mstatus.push c q m with e0 := { (Mstatus.push c q m).e0 with prv := p } } = Mstatus.push c p m := by
  simp only [Mstatus.push, Mstatus.hardwireStack, StackEntry.hardwire, if_neg hlive]

/-- Redirecting a trap that entered M gives entry into the level: the copied registers are those the entry would have
written, and the entry pushed for M takes the level's mode. The machine's own registers are the difference (R383). -/
theorem redirectTrap_enterTrap {s : State} {p : Priv} (hpm : p ≠ .m) (hp : s.cfg.has p = true) (m h h' : Word)
    (cause : Cause) (epc : Word) (bad : Option Word) :
    { redirectTrap p h (enterTrap .m h' cause epc bad { s with mtdeleg := m }) with
      mtdeleg := s.mtdeleg, tm := s.tm } = enterTrap p h cause epc bad s := by
  have hstack := congrArg (fun q => { enterTrap p h cause epc bad s with mstatus := { q with mprv := false } })
    (push_setPrv (modes_ne_m_of_has hp hpm) p .m s.mstatus)
  cases p with
  | m => exact absurd rfl hpm
  | u | s | h => exact hstack

/-- The delegated trap is the one that enters its target without passing through M. -/
theorem redirectTrap_eq_takeTrap {s : State} {b : Nat} {p : Priv} (hpm : p ≠ .m) (htarget : trapTarget s b = p)
    (m h' : Word) (cause : Cause) (epc : Word) (bad : Option Word) :
    { redirectTrap p (handlerAddress s cause p) (enterTrap .m h' cause epc bad { s with mtdeleg := m }) with
      mtdeleg := s.mtdeleg, tm := s.tm } = takeTrap b cause epc bad s := by
  subst htarget
  exact redirectTrap_enterTrap hpm (trapTarget_has s b) m _ h' cause epc bad

/-- Settles O37: with the bit clear the trap enters M, and its redirection to the level that the delegated trap targets
is the entry into that level. -/
theorem delegationAsRedirect : Obligations.DelegationAsRedirect := by
  unfold Obligations.DelegationAsRedirect
  intro s b cause epc bad m _ hclear
  rw [takeTrap_undelegated s hclear]
  intro d
  have hd : d.priv = .m := enterTrap_m_priv _ cause epc bad _
  have hhas : s.cfg.has (trapTarget s b) = true := trapTarget_has s b
  refine ⟨fun htarget => ?_, fun htarget => ?_⟩ <;> rw [htarget] at hhas
  · exact ⟨_, exec_mrts_redirects hd hhas,
      redirectTrap_eq_takeTrap (by decide) htarget m _ cause epc bad, rfl, rfl, rfl⟩
  · exact ⟨_, exec_mrth_redirects hd hhas,
      redirectTrap_eq_takeTrap (by decide) htarget m _ cause epc bad, rfl, rfl, rfl⟩

end Sys2Proof.Machine
end

section
/-!
WFI (43_wfi.md R390): what is pending, as the word of `mip` shows it, what WFI answers above U, and what a boundary does
to a stalled hart.
-/

namespace Sys2Proof.Machine

/-! ### What is pending -/

theorem flagAt_eq_zero_iff {b : Bool} {n : Nat} (hn : n < 64) : flagAt b n = 0#64 ↔ b = false := by
  cases b with
  | false => simp [flagAt]
  | true =>
    have hbit : (flagAt true n).getLsbD n = true := by simp [flagAt_getLsbD, hn]
    refine iff_of_false (fun hzero => ?_) Bool.noConfusion
    simp [hzero] at hbit

/-- Every source has its place in the word: no source is pending exactly where the word is zero. -/
theorem IntBits.word_eq_zero_iff (b : IntBits) : b.word = 0 ↔ b.any = false := by
  simp [IntBits.word, IntBits.any, BitVec.or_eq_zero_iff, flagAt_eq_zero_iff]

theorem pendingAny_iff (s : State) : pendingAny s = true ↔ (csrRead s .mip ≠ 0 ∨ s.nmiPending = true) := by
  have hmip : s.mip.any = true ↔ csrRead s .mip ≠ 0 := by
    rw [csrRead, Ne, IntBits.word_eq_zero_iff, Bool.not_eq_false]
  rw [pendingAny, Bool.or_eq_true, hmip]

/-! ### The instruction -/

/-- Above U, WFI moves `pc` and makes one free choice, whether to stall; something pending takes the choice away. -/
theorem exec_wfi_completes {s : State} (hp : s.priv ≠ .u) :
    exec .wfi s
      = .next { s.advance with stalled := !pendingAny s && Config.wfiStalls s.draws, draws := s.draws + 1 } :=
  if_neg hp

/-! ### A stalled hart -/

theorem idleStep_wakes {s : State} (h : pendingAny s = true) : (idleStep s).stalled = false := by
  simp [idleStep, h]

/-- Where a stalled hart takes no interrupt, the boundary is an idle step: nothing is fetched or counted. -/
theorem step_stalled {s : State} (hs : s.stalled = true) (hn : interruptAtBoundary s = none) :
    step s = .next (environment (idleStep s)) := by
  simp only [step, cycle, hn, hs, if_true, andThen]

/-- The outside moves `cycle` and the time, and retires nothing (10_state.md R57). -/
@[simp] theorem environment_instret (s : State) : (environment s).clock.instret = s.clock.instret := by
  rw [environment_clock]
  rfl

/-- Settles O38: the word of `mip` shows every source, WFI above U has one form, and a stalled hart's boundary is an idle
step. -/
theorem wfiCompletes : Obligations.WfiCompletes := by
  unfold Obligations.WfiCompletes
  intro s
  refine ⟨pendingAny_iff s, fun hp => ?_, fun hs hn => ?_⟩
  · exact ⟨_, exec_wfi_completes hp, rfl, fun hpend => by simp [hpend]⟩
  · refine ⟨idleStep s, step_stalled hs hn, rfl, ?_, fun hpend => ?_⟩
    · rw [environment_instret, idleStep_clock]
    · rw [environment_stalled, idleStep_wakes hpend]

end Sys2Proof.Machine
end

section
/-!
SFENCE.VM (44_sfence_vm.md R400, R401): which translations leave the cache; with none cached, a paged translation is the
walk of the page tables in memory (21_translation.md R291, R292), whatever the free choices are.
-/

namespace Sys2Proof.Machine

/-! ### The fence -/

theorem fenceRemoves_iff {sasid : Word} {rs1 : Reg} {v : Word} {e : TcEntry} : fenceRemoves sasid rs1 v e = true ↔
    (sasid = 0 ∨ (e.global = false ∧ e.asid = sasid)) ∧ (rs1 = 0 ∨ v >>> e.vaBits = e.vaBase >>> e.vaBits) := by
  simp [fenceRemoves]

/-- Above U, the fence moves `pc` and filters the translation cache. -/
theorem exec_sfenceVm_completes {s : State} (hp : s.priv ≠ .u) (rs1 : Reg) : exec (.sfenceVm rs1) s
    = .next { s.advance with tc := s.tc.filter fun e => !fenceRemoves s.sasid rs1 (s.readReg rs1) e } :=
  if_neg hp

/-- Settles O39: what the filter keeps. -/
theorem sfenceRemoves : Obligations.SfenceRemoves := by
  unfold Obligations.SfenceRemoves
  intro s rs1 hp
  refine ⟨_, exec_sfenceVm_completes hp rs1, rfl, fun e => ?_⟩
  rw [List.mem_filter, Bool.not_eq_true', ← Bool.not_eq_true, fenceRemoves_iff]

/-- A fence of address space 0 and register x0 covers every entry (R401). -/
theorem exec_sfenceVm_full {s : State} (hp : s.priv ≠ .u) (hasid : s.sasid = 0) :
    exec (.sfenceVm 0) s = .next { s.advance with tc := [] } := by
  rw [exec_sfenceVm_completes hp, List.filter_eq_nil_iff.mpr]
  intro e _
  simp [fenceRemoves, hasid]

/-! ### Page-table entries in numbers -/

theorem pteValid_iff (pte : Word) : pteValid pte = true ↔ pte.toNat % 2 ≠ 0 := by
  rw [pteValid, BitVec.getLsbD, Nat.testBit_zero, decide_eq_true_iff]
  omega

theorem pteType_eq (pte : Word) : pteType pte = pte.toNat / 2 % 16 := by
  simp [pteType, Nat.shiftRight_eq_div_pow]

theorem pteBase_toNat (pte : Word) : (pteBase pte).toNat = pte.toNat / 2 ^ 10 % 2 ^ 38 * 4096 := by
  have hppn : pte.toNat / 2 ^ 10 % 2 ^ 38 < 2 ^ 38 := Nat.mod_lt _ (by decide)
  simp only [pteBase, BitVec.toNat_shiftLeft, BitVec.toNat_setWidth, BitVec.extractLsb'_toNat,
    Nat.shiftRight_eq_div_pow, Nat.shiftLeft_eq]
  omega

/-- Keeping the low bits of a word is its number modulo a power of two. -/
theorem and_low_toNat (v : Word) (n : Nat) : (v &&& BitVec.ofNat 64 (2 ^ n - 1)).toNat = v.toNat % 2 ^ n := by
  apply Nat.eq_of_testBit_eq
  intro k
  rw [Nat.testBit_mod_two_pow, BitVec.testBit_toNat, BitVec.testBit_toNat, BitVec.getLsbD_and, BitVec.getLsbD_ofNat,
    Nat.testBit_two_pow_sub_one]
  by_cases hk : k < 64
  · simp [hk, Bool.and_comm]
  · simp [BitVec.getLsbD_of_ge v k (Nat.not_lt.mp hk)]

/-- The address of a leaf's page with the untranslated bits below it (R291 step 5). -/
theorem pageAddress_toNat (base va : Word) (n : Nat) :
    ((base &&& ~~~(BitVec.ofNat 64 (2 ^ n - 1))) ||| (va &&& BitVec.ofNat 64 (2 ^ n - 1))).toNat
      = base.toNat / 2 ^ n * 2 ^ n + va.toNat % 2 ^ n := by
  rw [BitVec.toNat_or, and_not_low_toNat, and_low_toNat, Nat.mul_comm,
    Nat.two_pow_add_eq_or_of_lt (Nat.mod_lt _ (Nat.two_pow_pos n))]

/-- The address of a level's PTE, modulo `2^PALEN` (21_translation.md R265, R291 step 2): the sum wraps at 64 bits,
which that modulus does not see. -/
theorem physical_pte {c : Config} (hpalen : c.palen ≤ 64) (sch : Scheme) (va base : Word) (level : Nat) :
    c.physical (base + BitVec.ofNat 64 (sch.vpn va level * sch.pteBytes))
      = (base.toNat + va.toNat / 2 ^ (12 + level * sch.vpnBits) % 2 ^ sch.vpnBits * sch.pteBytes) % 2 ^ c.palen := by
  have hdvd : 2 ^ c.palen ∣ 2 ^ 64 := Nat.pow_dvd_pow 2 hpalen
  rw [Config.physical, BitVec.toNat_add, Nat.mod_mod_of_dvd _ hdvd, BitVec.toNat_ofNat, Nat.add_mod,
    Nat.mod_mod_of_dvd _ hdvd, ← Nat.add_mod, Scheme.vpn, BitVec.toNat_ushiftRight, Nat.shiftRight_eq_div_pow,
    Scheme.pageBits]

/-! ### The walk with nothing cached -/

/-- The entry stands for a leaf that the walk of memory gives by address, level and value, and the value is memory's. -/
def TcEntry.IsLeaf (req : WalkReq) (m : Memory) (e : TcEntry) : Nat × Nat × Word → Prop
  | (addr, level, pte) =>
    e.pteAddr = addr ∧ e.vaBits = req.sch.pageBits level ∧ e.pte = pte ∧ e.pteBytes = req.sch.pteBytes
      ∧ Memory.readLE m addr req.sch.pteBytes = pte

/-- The walk of memory sees the parameters and memory only: neither the cache nor the free choices. -/
theorem memoryLeaf_congr {s t : State} (hcfg : t.cfg = s.cfg) (hmem : t.mem = s.mem) (req : WalkReq) (level a : Nat) :
    memoryLeaf t req level a = memoryLeaf s req level a := by
  induction level generalizing a with
  | zero => simp only [memoryLeaf, hcfg, hmem]
  | succ below ih => simp only [memoryLeaf, hcfg, hmem, ih]

theorem chooseCached_cachedAt_of_nil {s : State} (h : s.tc = []) (draw level : Nat) (va : Word) :
    chooseCached draw level (cachedAt s va level) = none := by
  simp [cachedAt, h, chooseCached]

theorem chooseCached_cachedLeaves_of_nil {s : State} (h : s.tc = []) (draw place : Nat) (va : Word) :
    chooseCached draw place (cachedLeaves s va) = none := by
  simp [cachedLeaves, h, chooseCached]

/-- Steps 2 to 4 of the walk find what the page tables in memory say, whatever is added to the cache on the way. -/
theorem walk_isLeaf {req : WalkReq} {s0 : State} (hempty : s0.tc = []) (level : Nat) (base : Word) (global : Bool)
    (s : State) (hpalen : s.cfg.palen ≤ 64) :
    Option.Rel (TcEntry.IsLeaf req s.mem) (walk req s0 level base global s).1
      (memoryLeaf s req level base.toNat) := by
  induction level using Nat.strongRecOn generalizing base global s with
  | ind level ih =>
    unfold walk memoryLeaf
    simp only [chooseCached_cachedAt_of_nil hempty, readPte, ← physical_pte hpalen]
    generalize s.cfg.physical (base + BitVec.ofNat 64 (req.sch.vpn req.va level * req.sch.pteBytes)) = addr
    generalize hpte : Memory.readLE s.mem addr req.sch.pteBytes = pte
    simp only [← pteType_eq, ← pteBase_toNat]
    by_cases hread : physOk s.cfg .pteRead addr req.sch.pteBytes req.priv = true
    case neg => simp [hread]
    by_cases hvalid : pteValid pte = true
    case neg =>
      have heven : pte.toNat % 2 = 0 := by simpa [pteValid_iff] using hvalid
      simp [hread, hvalid, heven]
    have hodd := (pteValid_iff pte).mp hvalid
    by_cases hleaf : 2 ≤ pteType pte
    case pos =>
      simpa [hread, hvalid, hodd, hleaf] using Option.Rel.some ⟨rfl, rfl, rfl, rfl, hpte⟩
    cases level with
    | zero => simp [hread, hvalid, hodd, hleaf]
    | succ below =>
      have hbelow := ih below (Nat.lt_succ_self below) (pteBase pte)
      simpa [hread, hvalid, hodd, hleaf, memoryLeaf_congr (mayCache_cfg _ s) (mayCache_mem _ s)]
        using hbelow _ (mayCache _ s) hpalen

theorem findLeaf_isLeaf {s : State} (hempty : s.tc = []) (hpalen : s.cfg.palen ≤ 64) (req : WalkReq) :
    Option.Rel (TcEntry.IsLeaf req s.mem) (findLeaf req s).1
      (memoryLeaf s req (req.sch.levels - 1) s.sptbr.toNat) := by
  rw [findLeaf, chooseCached_cachedLeaves_of_nil hempty]
  exact walk_isLeaf hempty _ _ _ s hpalen

/-! ### The leaf's answer (R291 step 5) -/

/-- The leaf `pte` at `addr` does not allow the access, or a physical check refuses to set R and D in it. -/
def LeafRefuses (c : Config) (req : WalkReq) (addr : Nat) (pte : Word) : Prop :=
  pteAllowed (pte.toNat / 2 % 16) req.acc req.priv = false
    ∨ (pte &&& pteUsedBits req.acc ≠ pteUsedBits req.acc
      ∧ physOk c .pteWrite addr req.sch.pteBytes req.priv = false)

/-- The leaf `pte` at `addr` gives the address `r` in its page, and leaves memory `before` as `after`, R and D set in
the leaf where they were clear. -/
def LeafGrants (req : WalkReq) (before : Memory) (addr level : Nat) (pte : Word) (r : Option Word) (after : Memory) :
    Prop :=
  (∃ pa, r = some pa ∧ pa.toNat = pte.toNat / 2 ^ 10 % 2 ^ 38 * 4096 / 2 ^ req.sch.pageBits level
      * 2 ^ req.sch.pageBits level + req.va.toNat % 2 ^ req.sch.pageBits level)
    ∧ after = if pte &&& pteUsedBits req.acc = pteUsedBits req.acc then before
      else Memory.writeLE before addr (pte ||| pteUsedBits req.acc) req.sch.pteBytes

section
variable {s : State} {req : WalkReq} {e : TcEntry} {addr level : Nat} {pte : Word}

theorem useLeaf_refused (he : e.IsLeaf req s.mem (addr, level, pte)) (h : LeafRefuses s.cfg req addr pte) :
    useLeaf req e s = (none, s) := by
  obtain ⟨rfl, -, rfl, hbytes, -⟩ := he
  rw [LeafRefuses, ← pteType_eq, ← hbytes] at h
  rcases h with hdenied | ⟨hclear, hwrite⟩
  · simp [useLeaf, hdenied]
  · simp [useLeaf, hclear, hwrite]

theorem useLeaf_granted (he : e.IsLeaf req s.mem (addr, level, pte)) (h : ¬ LeafRefuses s.cfg req addr pte) :
    LeafGrants req s.mem addr level pte (useLeaf req e s).1 (useLeaf req e s).2.mem := by
  obtain ⟨rfl, hbits, rfl, hbytes, hread⟩ := he
  rw [LeafRefuses, ← pteType_eq, ← hbytes, not_or, not_and, Bool.not_eq_false, Bool.not_eq_false] at h
  obtain ⟨hallowed, hwrite⟩ := h
  rw [LeafGrants, ← hbits, ← pteBase_toNat, ← hbytes]
  rw [← hbytes] at hread
  have hpage := pageAddress_toNat (pteBase e.pte) req.va e.vaBits
  by_cases hset : e.pte &&& pteUsedBits req.acc = pteUsedBits req.acc
  · simp only [useLeaf, hallowed, hset, Bool.not_true, Bool.false_eq_true, if_false, if_true]
    exact ⟨⟨_, rfl, hpage⟩, trivial⟩
  · simp only [useLeaf, hallowed, hset, hwrite hset, Bool.not_true, Bool.false_eq_true, if_false, setUsedBits, hread]
    exact ⟨⟨_, rfl, hpage⟩, trivial⟩

/-! ### The translation memory gives, case by case -/

variable {r : Option Word} {m : Memory}

theorem translatesByMemory_noLeaf (h : memoryLeaf s req (req.sch.levels - 1) s.sptbr.toNat = none) :
    TranslatesByMemory s req r m ↔ r = none ∧ m = s.mem := by
  rw [TranslatesByMemory, h]

theorem translatesByMemory_refused
    (h : memoryLeaf s req (req.sch.levels - 1) s.sptbr.toNat = some (addr, level, pte))
    (hrefuses : LeafRefuses s.cfg req addr pte) : TranslatesByMemory s req r m ↔ r = none ∧ m = s.mem := by
  rw [TranslatesByMemory, h]
  exact iff_of_eq (if_pos hrefuses)

theorem translatesByMemory_granted
    (h : memoryLeaf s req (req.sch.levels - 1) s.sptbr.toNat = some (addr, level, pte))
    (hgrants : ¬ LeafRefuses s.cfg req addr pte) :
    TranslatesByMemory s req r m ↔ LeafGrants req s.mem addr level pte r m := by
  rw [TranslatesByMemory, h]
  exact iff_of_eq (if_neg hgrants)

/-- The page tables in memory determine the translation. -/
theorem TranslatesByMemory.unique {r' : Option Word} {m' : Memory} (h : TranslatesByMemory s req r m)
    (h' : TranslatesByMemory s req r' m') : r = r' ∧ m = m' := by
  cases hleaf : memoryLeaf s req (req.sch.levels - 1) s.sptbr.toNat with
  | none =>
    obtain ⟨rfl, rfl⟩ := (translatesByMemory_noLeaf hleaf).mp h
    obtain ⟨rfl, rfl⟩ := (translatesByMemory_noLeaf hleaf).mp h'
    exact ⟨rfl, rfl⟩
  | some l =>
    obtain ⟨addr, level, pte⟩ := l
    by_cases hrefuses : LeafRefuses s.cfg req addr pte
    · obtain ⟨rfl, rfl⟩ := (translatesByMemory_refused hleaf hrefuses).mp h
      obtain ⟨rfl, rfl⟩ := (translatesByMemory_refused hleaf hrefuses).mp h'
      exact ⟨rfl, rfl⟩
    · obtain ⟨⟨pa, rfl, hpa⟩, rfl⟩ := (translatesByMemory_granted hleaf hrefuses).mp h
      obtain ⟨⟨pa', rfl, hpa'⟩, rfl⟩ := (translatesByMemory_granted hleaf hrefuses).mp h'
      exact ⟨congrArg some (BitVec.eq_of_toNat_eq (hpa.trans hpa'.symm)), rfl⟩

/-! ### The translation with nothing cached -/

theorem translatePaged_of_leaf (h : (findLeaf req s).1 = some e) :
    (translatePaged req s).1 = (useLeaf req e (findLeaf req s).2).1
      ∧ (translatePaged req s).2.mem = (useLeaf req e (findLeaf req s).2).2.mem := by
  unfold translatePaged
  generalize findLeaf req s = found at h ⊢
  obtain ⟨_, s1⟩ := found
  subst h
  exact ⟨rfl, rfl⟩

/-- A paged translation that begins with no cached PTE is the one the page tables in memory give (R290 to R292). -/
theorem translatePaged_byMemory (hempty : s.tc = []) (hpalen : s.cfg.palen ≤ 64) (req : WalkReq) :
    TranslatesByMemory s req (translatePaged req s).1 (translatePaged req s).2.mem := by
  have hrel := findLeaf_isLeaf hempty hpalen req
  generalize hfound : (findLeaf req s).1 = found at hrel
  generalize hleaf : memoryLeaf s req (req.sch.levels - 1) s.sptbr.toNat = leaf at hrel
  cases hrel with
  | none => exact (translatesByMemory_noLeaf hleaf).mpr (translatePaged_noLeaf hfound)
  | @some e l he =>
    obtain ⟨addr, level, pte⟩ := l
    obtain ⟨haddr, hmem⟩ := translatePaged_of_leaf hfound
    rw [haddr, hmem]
    have hframe := findLeaf_frame req s
    generalize (findLeaf req s).2 = s1 at hframe ⊢
    have hmem1 : s1.mem = s.mem := by rw [hframe]
    have hcfg1 : s1.cfg = s.cfg := by rw [hframe]
    rw [← hmem1] at he
    by_cases hrefuses : LeafRefuses s.cfg req addr pte
    · rw [translatesByMemory_refused hleaf hrefuses, useLeaf_refused he (hcfg1 ▸ hrefuses)]
      exact ⟨rfl, hmem1⟩
    · rw [translatesByMemory_granted hleaf hrefuses, ← hmem1]
      exact useLeaf_granted he (hcfg1 ▸ hrefuses)

theorem translatesByMemory_congr {t : State} (hcfg : t.cfg = s.cfg) (hmem : t.mem = s.mem) (hroot : t.sptbr = s.sptbr) :
    TranslatesByMemory t req r m ↔ TranslatesByMemory s req r m := by
  simp only [TranslatesByMemory, memoryLeaf_congr hcfg hmem, hcfg, hmem, hroot]

/-- With nothing cached, the free choices show in no answer and in no memory. -/
theorem translatePaged_draws (hempty : s.tc = []) (hpalen : s.cfg.palen ≤ 64) (req : WalkReq) (d : Nat) :
    (translatePaged req { s with draws := d }).1 = (translatePaged req s).1
      ∧ (translatePaged req { s with draws := d }).2.mem = (translatePaged req s).2.mem := by
  have hsame (r : Option Word) (m : Memory) : TranslatesByMemory { s with draws := d } req r m
      ↔ TranslatesByMemory s req r m := translatesByMemory_congr rfl rfl rfl
  have hdrawn := translatePaged_byMemory (s := { s with draws := d }) hempty hpalen req
  exact ((hsame _ _).mp hdrawn).unique (translatePaged_byMemory hempty hpalen req)

/-- The schemes without pages make no free choice, and the paged ones show none. -/
theorem translateAddress_draws (hempty : s.tc = []) (hpalen : s.cfg.palen ≤ 64) (va : Word) (acc : Acc) (p : Priv)
    (d : Nat) : (translateAddress va acc p { s with draws := d }).1 = (translateAddress va acc p s).1
      ∧ (translateAddress va acc p { s with draws := d }).2.mem = (translateAddress va acc p s).2.mem := by
  unfold translateAddress
  dsimp only
  split_ifs
  any_goals exact ⟨rfl, rfl⟩
  all_goals exact translatePaged_draws hempty hpalen _ d

end

/-! ### Translation after a full fence -/

section
variable {s : State} {p : Priv} {va : Word}

theorem translateAddress_sv32 (hp : p ≠ .m) (hvm : s.mstatus.vm = 8) (acc : Acc) :
    translateAddress va acc p s = translatePaged { sch := sv32, va := va, acc := acc, priv := p } s := by
  simp [translateAddress, hp, hvm]

theorem translateAddress_sv39 (hp : p ≠ .m) (hvm : s.mstatus.vm = 9) (hva : canonical va 39 = true) (acc : Acc) :
    translateAddress va acc p s = translatePaged { sch := sv39, va := va, acc := acc, priv := p } s := by
  simp [translateAddress, hp, hvm, hva]

theorem translateAddress_sv48 (hp : p ≠ .m) (hvm : s.mstatus.vm = 10) (hva : canonical va 48 = true) (acc : Acc) :
    translateAddress va acc p s = translatePaged { sch := sv48, va := va, acc := acc, priv := p } s := by
  simp [translateAddress, hp, hvm, hva]

end

theorem palen_le_of_valid {c : Config} (h : c.valid = true) : c.palen ≤ 64 := by
  simp only [Config.valid, Bool.and_eq_true, decide_eq_true_eq] at h
  omega

/-- Settles O40: the fence leaves nothing cached, and with nothing cached a translation is the walk of memory. -/
theorem fencedTranslation : Obligations.FencedTranslation := by
  unfold Obligations.FencedTranslation
  intro s t va acc p d hvalid hpriv hasid hfence u r
  rw [exec_sfenceVm_full hpriv hasid] at hfence
  obtain ⟨htc, hcfg, hmstatus⟩ : t.tc = [] ∧ t.cfg = s.cfg ∧ t.mstatus = s.mstatus := by
    cases hfence
    exact ⟨rfl, rfl, rfl⟩
  have hpalen : t.cfg.palen ≤ 64 := hcfg ▸ palen_le_of_valid hvalid
  have hwalk (req : WalkReq) (hpaged : translateAddress va acc p u = translatePaged req u) :
      TranslatesByMemory u req r.1 r.2.mem := by
    dsimp only [r]
    rw [hpaged]
    exact translatePaged_byMemory (s := u) htc hpalen req
  obtain ⟨haddr, hmem⟩ := translateAddress_draws htc hpalen va acc p d
  refine ⟨htc, haddr, hmem, fun hp => ?_⟩
  rw [← hmstatus]
  exact ⟨fun hvm => hwalk _ (translateAddress_sv32 (s := u) hp hvm acc),
    fun hvm hva => hwalk _ (translateAddress_sv39 (s := u) hp hvm hva acc),
    fun hvm hva => hwalk _ (translateAddress_sv48 (s := u) hp hvm hva acc)⟩

end Sys2Proof.Machine
end

section
/-!
What an instruction run in U or in S without a trap can change (60_exceptions.md R456; 10_state.md R41, R42): the CSRs
each level may write, what such a write touches, and what the privileged instructions answer there.
-/

namespace Sys2Proof.Machine

/-! ### Privileged instructions that are illegal -/

section
variable {s : State}

theorem exec_eret_user (hp : s.priv = .u) : exec .eret s = .next (raiseException 2 none s) :=
  if_pos hp

theorem exec_wfi_user (hp : s.priv = .u) : exec .wfi s = .next (raiseException 2 none s) :=
  if_pos hp

theorem exec_sfenceVm_user (hp : s.priv = .u) (rs1 : Reg) :
    exec (.sfenceVm rs1) s = .next (raiseException 2 none s) :=
  if_pos hp

theorem exec_mrts_illegal (h : s.priv ≠ .m ∨ s.cfg.has .s = false) :
    exec .mrts s = .next (raiseException 2 none s) :=
  if_neg (by rcases h with h | h <;> simp [h])

theorem exec_mrth_illegal (h : s.priv ≠ .m ∨ s.cfg.has .h = false) :
    exec .mrth s = .next (raiseException 2 none s) :=
  if_neg (by rcases h with h | h <;> simp [h])

end

/-- Settles O33: each instruction's guard. -/
theorem privilegedIllegal : Obligations.PrivilegedIllegal := by
  unfold Obligations.PrivilegedIllegal
  intro s rs1
  exact ⟨fun hp => ⟨exec_eret_user hp, exec_wfi_user hp, exec_sfenceVm_user hp rs1⟩, exec_mrts_illegal,
    exec_mrth_illegal⟩

/-! ### CSR instructions -/

/-- What a CSR instruction that does not trap leaves: `rd` and `pc` after no write, or after a write that the access
check let through. -/
theorem csrInstr_completes {rd : Reg} {a : CsrAddr} {w : Bool} {new : Word → Word} {s t : State}
    (h : csrInstr rd a w new s = .next t) : t = raiseException 2 none s ∨ ∃ u v, t = (u.writeReg rd v).advance
      ∧ (u = s ∨ ∃ r value, csrAccess s a true = some r ∧ csrWrite s r value = .ok u) := by
  rcases csrInstr_next h with ⟨-, htrap⟩ | ⟨r, hacc, ⟨-, rfl⟩ | ⟨rfl, u, hwrite, rfl⟩⟩
  · exact .inl htrap
  · exact .inr ⟨s, _, rfl, .inl rfl⟩
  · exact .inr ⟨u, _, rfl, .inr ⟨r, _, hacc, hwrite⟩⟩

/-- The register an instruction may write is a listed one at an address that the mode may write, or an added one. -/
theorem csrAccess_write {s : State} {a : CsrAddr} {r : Csr} (h : csrAccess s a true = some r) :
    (∃ need, (a, r, need) ∈ csrTable ∧ csrLevel a ≤ s.priv.level ∧ csrReadOnly a = false)
      ∨ ∃ k, r = .extra k := by
  obtain ⟨hat, hlevel, hwrite, -⟩ := csrAccess_some.1 h
  rcases csrAt_some hat with ⟨need, hrow, -⟩ | ⟨-, k, -, rfl, -⟩
  · exact .inl ⟨need, hrow, hlevel, hwrite rfl⟩
  · exact .inr ⟨k, rfl⟩

/-- No instruction in the mode can write the added register `k`: each of its addresses is of a higher level or read-only
(10_state.md R41, R42). -/
def ExtraProtected (s : State) (k : Nat) : Prop :=
  ∃ e, s.cfg.extraCsrs[k]? = some e ∧ ∀ a ∈ e.addrs, s.priv.level < csrLevel a ∨ csrReadOnly a = true

theorem csrAccess_extraProtected {s : State} {a : CsrAddr} {k : Nat} (h : ExtraProtected s k) :
    csrAccess s a true ≠ some (.extra k) := by
  intro hacc
  obtain ⟨e, he, hprotected⟩ := h
  obtain ⟨hat, hlevel, hwrite, -⟩ := csrAccess_some.1 hacc
  obtain ⟨d, hd, ha, -⟩ := findExtra_iff.1 (csrAt_extra_iff.1 hat).2
  obtain rfl : e = d := Option.some.inj (he.symm.trans hd)
  rcases hprotected a ha with hhigh | hro
  · omega
  · rw [hwrite rfl] at hro
    cases hro

theorem writeExtra_getElem?_ne {s : State} {j k : Nat} (h : j ≠ k) (v : Word) :
    (writeExtra s j v).extra[k]? = s.extra[k]? := by
  unfold writeExtra
  split
  · rfl
  · exact List.getElem?_set_ne h

/-- A write that the access check let through keeps the protected added registers. -/
theorem csrWrite_extraProtected {s t : State} {a : CsrAddr} {r : Csr} {v : Word} {k : Nat}
    (hacc : csrAccess s a true = some r) (hwrite : csrWrite s r v = .ok t) (h : ExtraProtected s k) :
    t.extra[k]? = s.extra[k]? := by
  rcases csrWrite_ok hwrite with ⟨-, hm⟩ | hm | ⟨mask, bits, rfl⟩ | ⟨j, rfl, rfl⟩ | hplain
  · rw [(writeMstatus_ok.1 hm).1]
  · rw [(writeMstatus_ok.1 hm).1]
  · rfl
  · exact writeExtra_getElem?_ne (fun hj => csrAccess_extraProtected h (hj ▸ hacc)) v
  · rw [hplain]

/-! ### In U -/

/-- The states differ at most in integer registers, `pc`, the floating-point control state, the added CSRs, and the
status fields FS and XS. -/
def SameButUser (s t : State) : Prop :=
  t = { s with x := t.x, pc := t.pc, fp := { s.fp with fcsr := t.fp.fcsr }, extra := t.extra,
               mstatus := { s.mstatus with fs := t.mstatus.fs, xs := t.mstatus.xs } }

/-- The listed registers that U may write are the floating-point ones (R47 to R50). -/
theorem csrTable_userWritable : ∀ row ∈ csrTable, csrLevel row.1 ≤ 0 → csrReadOnly row.1 = false →
    row.2.1 ∈ [Csr.fflags, Csr.frm, Csr.fcsr] := by decide

theorem SameButUser.refl (s : State) : SameButUser s s := rfl

theorem SameButUser.writeReg_advance {s t : State} (h : SameButUser s t) (rd : Reg) (v : Word) :
    SameButUser s (t.writeReg rd v).advance := by
  rw [writeReg_advance_frame, h]
  rfl

theorem sameButUser_writeExtra (s : State) (k : Nat) (v : Word) : SameButUser s (writeExtra s k v) := by
  rw [writeExtra_frame]
  rfl

theorem sameButUser_csrWrite {s t : State} {a : CsrAddr} {r : Csr} {v : Word} (hp : s.priv = .u)
    (hacc : csrAccess s a true = some r) (hwrite : csrWrite s r v = .ok t) : SameButUser s t := by
  rcases csrAccess_write hacc with ⟨need, hrow, hlevel, hro⟩ | ⟨k, rfl⟩
  · rw [hp] at hlevel
    have hr := csrTable_userWritable _ hrow hlevel hro
    simp only [List.mem_cons, List.not_mem_nil, or_false] at hr
    rcases hr with rfl | rfl | rfl <;> cases hwrite <;> rfl
  · cases hwrite
    exact sameButUser_writeExtra s k v

/-- What an instruction run in U without a trap leaves: the user's part changed, the protected added registers kept. -/
def UserStep (s t : State) : Prop :=
  SameButUser s t ∧ ∀ k, ExtraProtected s k → t.extra[k]? = s.extra[k]?

theorem userStep_csrInstr {rd : Reg} {a : CsrAddr} {w : Bool} {new : Word → Word} {s t : State} (hp : s.priv = .u)
    (h : csrInstr rd a w new s = .next t) : t = raiseException 2 none s ∨ UserStep s t := by
  rcases csrInstr_completes h with htrap | ⟨u, v, rfl, rfl | ⟨r, value, hacc, hwrite⟩⟩
  · exact .inl htrap
  · exact .inr ⟨(SameButUser.refl _).writeReg_advance rd v, fun k _ => by simp⟩
  · refine .inr ⟨(sameButUser_csrWrite hp hacc hwrite).writeReg_advance rd v, fun k hk => ?_⟩
    simpa using csrWrite_extraProtected hacc hwrite hk

theorem exec_user {i : Instr} {s t : State} (hp : s.priv = .u) (h : exec i s = .next t) :
    (∃ code, t = raiseException code none s) ∨ UserStep s t := by
  have hillegal (hr : exec i s = .next (raiseException 2 none s)) : ∃ code, t = raiseException code none s :=
    ⟨2, Host.Outcome.next.inj (h.symm.trans hr)⟩
  have hbelow : s.priv ≠ .m := by simp [hp]
  cases i
  case csrrw | csrrs | csrrc | csrrwi | csrrsi | csrrci =>
    rw [exec_csrUse rfl] at h
    exact (userStep_csrInstr hp h).imp_left fun htrap => ⟨2, htrap⟩
  case ecall | ebreak | hrts =>
    cases h
    exact .inl ⟨_, rfl⟩
  case eret => exact .inl (hillegal (exec_eret_user hp))
  case mrts => exact .inl (hillegal (exec_mrts_illegal (.inl hbelow)))
  case mrth => exact .inl (hillegal (exec_mrth_illegal (.inl hbelow)))
  case wfi => exact .inl (hillegal (exec_wfi_user hp))
  case sfenceVm rs1 => exact .inl (hillegal (exec_sfenceVm_user hp rs1))

/-- Settles O59: an added CSR that U may not write at any of its addresses is protected in U. -/
theorem userIsolation : Obligations.UserIsolation := by
  unfold Obligations.UserIsolation
  intro i s t hp h
  refine (exec_user hp h).imp_right fun ⟨hframe, hkept⟩ => ⟨hframe, fun k e he haddrs => ?_⟩
  refine hkept k ⟨e, he, fun a ha => (haddrs a ha).imp (fun hne => ?_) fun hro => csrReadOnly_iff.2 (.inl hro)⟩
  rw [hp]
  exact Nat.pos_of_ne_zero fun hzero => hne (BitVec.eq_of_toNat_eq hzero)

/-! ### In S -/

/-- The listed registers that S may write (R47 to R50; `scause` and `sbadaddr` are read-only). -/
def supervisorWritable : List Csr :=
  [.fflags, .frm, .fcsr, .cycle, .time, .instret, .cycleh, .timeh, .instreth, .sstatus, .stvec, .sie, .stimecmp,
    .sscratch, .sepc, .sip, .sptbr, .sasid]

theorem csrTable_supervisorWritable : ∀ row ∈ csrTable, csrLevel row.1 ≤ 1 → csrReadOnly row.1 = false →
    row.2.1 ∈ supervisorWritable := by decide

/-- The states differ at most in what belongs to U and S, in `mstatus`, in the added CSRs and in hidden state. -/
def SameButSupervisor (s t : State) : Prop :=
  t = { s with
    x := t.x, pc := t.pc, fp := t.fp, mstatus := t.mstatus, extra := t.extra
    mip := { s.mip with ssi := t.mip.ssi, sti := t.mip.sti }
    mie := { s.mie with ssi := t.mie.ssi, sti := t.mie.sti }
    stvec := t.stvec, ts := t.ts, sptbr := t.sptbr, sasid := t.sasid
    clock := { s.clock with
      uDelta := t.clock.uDelta, stimecmp := t.clock.stimecmp, sArmed := t.clock.sArmed, cycle := t.clock.cycle
      instret := t.clock.instret }
    stalled := t.stalled, tc := t.tc, draws := t.draws }

/-- Of the scheme and the stack, the two `mstatus` words differ at most in the interrupt enables of the first two
entries and the low bit of `PRV1` (12_state_supervisor_csrs.md R171, R191). -/
def SameButView (m n : Mstatus) : Prop :=
  n.vm = m.vm ∧ n.e0.prv = m.e0.prv ∧ n.e2 = m.e2 ∧ n.e3 = m.e3
    ∧ n.e1.prv.bits.getLsbD 1 = m.e1.prv.bits.getLsbD 1

theorem SameButView.refl (m : Mstatus) : SameButView m m := ⟨rfl, rfl, rfl, rfl, rfl⟩

theorem SameButSupervisor.refl (s : State) : SameButSupervisor s s := rfl

theorem SameButSupervisor.writeReg_advance {s t : State} (h : SameButSupervisor s t) (rd : Reg) (v : Word) :
    SameButSupervisor s (t.writeReg rd v).advance := by
  rw [writeReg_advance_frame, h]
  rfl

/-- The time registers above U stand where they did: S may write only the user's. -/
theorem SameButSupervisor.time {s t : State} (h : SameButSupervisor s t) {p : Priv} (hp : p ≠ .u) :
    t.clock.time p = s.clock.time p := by
  rw [h]
  cases p with
  | u => exact absurd rfl hp
  | s | h | m => rfl

theorem sameButView_withView (c : Config) (m : Mstatus) (v : Word) :
    SameButView m (Mstatus.hardwireUnits c (m.withView v)) := by
  refine ⟨rfl, rfl, rfl, rfl, ?_⟩
  simp only [Mstatus.hardwireUnits, Mstatus.withView, prv_bits_ofBits]
  cases m.e1.prv.bits.getLsbD 1 <;> cases v.getLsbD 4 <;> rfl

/-- A write through the view that completes is one of a supported mode in `PRV1`. -/
theorem writeSstatus_withView {s t : State} {v : Word} (hm : mstatusOk s.cfg s.mstatus = true)
    (hlive : s.cfg.modes ≠ .m) (h : writeSstatus s v = .ok t) :
    t = { s with mstatus := Mstatus.hardwireUnits s.cfg (s.mstatus.withView v) } := by
  by_cases hp : s.cfg.has (s.mstatus.withView v).e1.prv = true
  · rw [writeSstatus_supported hm hlive hp] at h
    cases h
    rfl
  · rw [writeSstatus_unsupportedMode hm hlive (by simpa using hp)] at h
    cases h

/-- The user's timer has no compare register, so that a write of `time` sets no pending bit (60_exceptions.md R471). -/
theorem writeTimeLow_user_mip (v : Word) (s : State) : (writeTimeLow .u v s).mip = s.mip := by
  simp [writeTimeLow, timeMatches]

theorem sameButSupervisor_writeTimeLow (v : Word) (s : State) : SameButSupervisor s (writeTimeLow .u v s) := by
  have h : writeTimeLow .u v s = { s with clock := (writeTimeLow .u v s).clock } := by
    simp [writeTimeLow, timeMatches]
  rw [h]
  rfl

section
variable {s t : State} (hp : s.priv = .s) (hm : mstatusOk s.cfg s.mstatus = true)
include hp hm

theorem modes_ne_m_of_supervisor : s.cfg.modes ≠ .m := by
  obtain ⟨-, -, -, -, hmodes⟩ := mstatusOk_iff.1 hm
  refine modes_ne_m_of_has (modesOk_iff.1 hmodes).1 ?_
  rw [← State.priv, hp]
  decide

/-- A write of a listed register that S may write. -/
theorem supervisor_listedWrite {r : Csr} {v : Word} (hr : r ∈ supervisorWritable) (h : csrWrite s r v = .ok t) :
    SameButSupervisor s t ∧ SameButView s.mstatus t.mstatus := by
  cases r
  case time =>
    cases h
    exact ⟨sameButSupervisor_writeTimeLow v s, .refl _⟩
  case sstatus =>
    rw [writeSstatus_withView hm (modes_ne_m_of_supervisor hp hm) h]
    exact ⟨rfl, sameButView_withView _ _ v⟩
  case fflags | frm | fcsr | cycle | instret | cycleh | timeh | instreth | stvec | sie | stimecmp | sscratch | sepc
      | sip | sptbr | sasid =>
    cases h
    exact ⟨rfl, .refl _⟩
  all_goals simp [supervisorWritable] at hr

theorem supervisor_csrWrite {a : CsrAddr} {r : Csr} {v : Word} (hacc : csrAccess s a true = some r)
    (h : csrWrite s r v = .ok t) : SameButSupervisor s t ∧ SameButView s.mstatus t.mstatus := by
  rcases csrAccess_write hacc with ⟨need, hrow, hlevel, hro⟩ | ⟨k, rfl⟩
  · rw [hp] at hlevel
    exact supervisor_listedWrite hp hm (csrTable_supervisorWritable _ hrow hlevel hro) h
  · cases h
    rw [writeExtra_frame]
    exact ⟨rfl, .refl _⟩

end

/-- What an instruction run in S without a trap leaves: nothing of a higher level changed, the protected added registers
kept, and the stack popped by ERET and else changed through `sstatus` alone. -/
def SupervisorStep (i : Instr) (s t : State) : Prop :=
  SameButSupervisor s t ∧ (∀ k, ExtraProtected s k → t.extra[k]? = s.extra[k]?)
    ∧ (i = .eret → t.mstatus = Mstatus.pop s.cfg s.mstatus) ∧ (i ≠ .eret → SameButView s.mstatus t.mstatus)

/-- An instruction that changes `pc` and hidden state alone. -/
theorem supervisorStep_of_hidden {i : Instr} {s t : State} (hi : i ≠ .eret)
    (h : t = { s with pc := t.pc, stalled := t.stalled, tc := t.tc, draws := t.draws }) : SupervisorStep i s t := by
  rw [h]
  exact ⟨rfl, fun _ _ => rfl, fun he => absurd he hi, fun _ => .refl _⟩

theorem supervisorStep_csrInstr {i : Instr} {rd : Reg} {a : CsrAddr} {w : Bool} {new : Word → Word} {s t : State}
    (hp : s.priv = .s) (hm : mstatusOk s.cfg s.mstatus = true) (hi : i ≠ .eret)
    (h : csrInstr rd a w new s = .next t) : t = raiseException 2 none s ∨ SupervisorStep i s t := by
  rcases csrInstr_completes h with htrap | ⟨u, v, rfl, rfl | ⟨r, value, hacc, hwrite⟩⟩
  · exact .inl htrap
  · exact .inr ⟨(SameButSupervisor.refl _).writeReg_advance rd v, fun k _ => by simp, fun he => absurd he hi,
      fun _ => by simpa using SameButView.refl _⟩
  · obtain ⟨hframe, hview⟩ := supervisor_csrWrite hp hm hacc hwrite
    exact .inr ⟨hframe.writeReg_advance rd v,
      fun k hk => by simpa using csrWrite_extraProtected hacc hwrite hk, fun he => absurd he hi,
      fun _ => by simpa using hview⟩

theorem supervisorStep_trapReturn (s : State) (a : Word) : SupervisorStep .eret s (trapReturn a s) :=
  ⟨rfl, fun _ _ => rfl, fun _ => rfl, fun hne => absurd rfl hne⟩

theorem exec_supervisor {i : Instr} {s t : State} (hp : s.priv = .s) (hm : mstatusOk s.cfg s.mstatus = true)
    (h : exec i s = .next t) : (∃ code, t = raiseException code none s) ∨ SupervisorStep i s t := by
  have hbelow : s.priv ≠ .m := by simp [hp]
  cases i
  case csrrw | csrrs | csrrc | csrrwi | csrrsi | csrrci =>
    rw [exec_csrUse rfl] at h
    exact (supervisorStep_csrInstr hp hm (by simp) h).imp_left fun htrap => ⟨2, htrap⟩
  case ecall | ebreak | hrts =>
    cases h
    exact .inl ⟨_, rfl⟩
  case eret =>
    rcases execEret_next h with ⟨-, htrap⟩ | ⟨-, -, rfl⟩
    · exact .inl ⟨2, htrap⟩
    · exact .inr (supervisorStep_trapReturn s _)
  case mrts => exact .inl ⟨2, Host.Outcome.next.inj (h.symm.trans (exec_mrts_illegal (.inl hbelow)))⟩
  case mrth => exact .inl ⟨2, Host.Outcome.next.inj (h.symm.trans (exec_mrth_illegal (.inl hbelow)))⟩
  case wfi =>
    rcases execWfi_next h with htrap | hsame
    · exact .inl ⟨2, htrap⟩
    · exact .inr (supervisorStep_of_hidden nofun (by rw [hsame]))
  case sfenceVm =>
    rcases execSfenceVm_next h with htrap | hsame
    · exact .inl ⟨2, htrap⟩
    · exact .inr (supervisorStep_of_hidden nofun (by rw [hsame]))

/-- Settles O60: what S may not write is outside the supervisor's part, and an added CSR of a higher level is
protected. -/
theorem supervisorIsolation : Obligations.SupervisorIsolation := by
  unfold Obligations.SupervisorIsolation
  intro i s t hp hm h
  refine (exec_supervisor hp hm h).imp_right fun ⟨hframe, hkept, hpop, hview⟩ => ?_
  have hextra : ∀ (k : Nat) (e : ExtraCsr), s.cfg.extraCsrs[k]? = some e →
      (∀ a ∈ e.addrs, 2 ≤ (a.extractLsb' 8 2).toNat ∨ a.extractLsb' 10 2 = 0b11#2) → t.extra[k]? = s.extra[k]? := by
    intro k e he haddrs
    refine hkept k ⟨e, he, fun a ha => (haddrs a ha).imp (fun hlevel => ?_) fun hro => csrReadOnly_iff.2 (.inl hro)⟩
    rw [hp]
    exact hlevel
  have hvm : t.mstatus.vm = s.mstatus.vm := by
    by_cases hi : i = .eret
    · rw [hpop hi]
      rfl
    · exact (hview hi).1
  have htime : ∀ p, p ≠ .u → t.clock.time p = s.clock.time p := fun p => hframe.time
  refine ⟨?_, ?_, ?_, ?_, ?_, ?_, ?_, ?_, ?_, ?_, ?_, htime .m nofun, htime .h nofun, htime .s nofun, ?_, ?_, ?_, ?_,
    ?_, ?_, ?_, ?_, ?_, ?_, hextra, hvm, ?_, ?_, hpop, fun hi => (hview hi).2⟩
  all_goals rw [hframe]

end Sys2Proof.Machine
end

section
/-!
A fetch that fails (60_exceptions.md R412): which parcel's access failed, the state its translations leave, and the
memory that they may change, which is the leaf page-table entry they use (21_translation.md R285, R291, R292).
-/

namespace Sys2Proof.Machine

/-! ### What an access leaves -/

section
variable {s t : State} {acc : Acc} {va : Word} {n : Nat}

/-- An access that fails does so with its own code and address, in the state its translation leaves. -/
theorem accessPath_trap {code : BitVec 4} {bad : Word} (h : accessPath acc va n s = .trap code bad t) :
    code = acc.faultCode ∧ bad = va ∧ t = (translateAddress va acc (s.effPriv acc) s).2 := by
  unfold accessPath at h
  generalize translateAddress va acc (s.effPriv acc) s = r at h ⊢
  obtain ⟨o, s1⟩ := r
  cases o with
  | none =>
    cases h
    exact ⟨rfl, rfl, rfl⟩
  | some a =>
    dsimp only at h
    split_ifs at h
    cases h
    exact ⟨rfl, rfl, rfl⟩

/-- An access that succeeds leaves the state its translation leaves. -/
theorem accessPath_done {pa : Nat} (h : accessPath acc va n s = .done pa t) :
    t = (translateAddress va acc (s.effPriv acc) s).2 := by
  unfold accessPath at h
  generalize translateAddress va acc (s.effPriv acc) s = r at h ⊢
  obtain ⟨o, s1⟩ := r
  cases o with
  | none => cases h
  | some a =>
    dsimp only at h
    split_ifs at h
    cases h
    rfl

/-- A fetch is made with the current mode, whatever MPRV says (21_translation.md R262). -/
@[simp] theorem effPriv_fetch (s : State) : s.effPriv .fetch = s.priv := by
  simp [State.effPriv]

theorem translateAddress_priv (va : Word) (acc : Acc) (p : Priv) (s : State) :
    (translateAddress va acc p s).2.priv = s.priv := by
  rw [(translateAddress_spec va acc p s).1]
  rfl

end

/-! ### What a translation changes in memory -/

/-- A translation changes nothing, or is a paged one below M. -/
theorem translateAddress_cases (va : Word) (acc : Acc) (p : Priv) (s : State) :
    (translateAddress va acc p s).2 = s
      ∨ (p ≠ .m ∧ ∃ sch, pagedScheme s.mstatus.vm = some sch
        ∧ translateAddress va acc p s = translatePaged { sch := sch, va := va, acc := acc, priv := p } s) := by
  by_cases hp : p = .m
  · exact .inl (by simp [translateAddress, hp])
  unfold translateAddress
  split_ifs with h0 h1 h2 h8 h9 h39 h10 h48
  · exact .inl rfl
  · exact .inl rfl
  · exact .inl rfl
  · exact .inr ⟨hp, sv32, by simp [pagedScheme, h8], rfl⟩
  · exact .inr ⟨hp, sv39, by simp [pagedScheme, h9], rfl⟩
  · exact .inl rfl
  · exact .inr ⟨hp, sv48, by simp [pagedScheme, h10], rfl⟩
  · exact .inl rfl
  · exact .inl rfl

/-- A byte outside the leaf PTE that a paged translation uses keeps its value, and so does every byte where the
translation fails. -/
theorem translatePaged_read {req : WalkReq} {s : State} {a : Nat} (h : (translatePaged req s).1 ≠ none →
    ∀ e, (findLeaf req s).1 = some e → ¬(e.pteAddr ≤ a ∧ a < e.pteAddr + e.pteBytes)) :
    Memory.read (translatePaged req s).2.mem a = Memory.read s.mem a := by
  cases hleaf : (findLeaf req s).1 with
  | none => rw [(translatePaged_noLeaf hleaf).2]
  | some e =>
    rcases translatePaged_leaf_cases hleaf with ⟨-, hmem⟩ | ⟨-, hmem⟩ | ⟨-, hsome, hmem⟩
    · rw [hmem]
    · rw [hmem]
    · have hout := h hsome e hleaf
      rw [hmem, Memory.read_writeLE_outside (by omega)]

/-- A translation keeps every byte but those of the leaf PTE it uses. -/
theorem translateAddress_read {va : Word} {acc : Acc} {p : Priv} {s : State} {a : Nat}
    (h : ¬InLeafPte s va acc p a) : Memory.read (translateAddress va acc p s).2.mem a = Memory.read s.mem a := by
  rcases translateAddress_cases va acc p s with hsame | ⟨hp, sch, hsch, hpaged⟩
  · rw [hsame]
  · rw [InLeafPte, hpaged] at h
    rw [hpaged]
    exact translatePaged_read fun hsome e he hin => h ⟨hp, hsome, sch, e, hsch, he, hin⟩

/-! ### The fetch -/

/-- Where a fetch fails: at a misaligned `pc`, at the first access, or with IALIGN = 16 at the second parcel. -/
theorem fetchPath_trap_cases {s t : State} {code : BitVec 4} {bad : Word} (h : fetchPath s = .trap code bad t) :
    (s.pc.toNat % s.cfg.ialignBytes ≠ 0 ∧ code = 0 ∧ bad = s.pc ∧ t = s)
      ∨ (s.pc.toNat % s.cfg.ialignBytes = 0 ∧ ∃ n, accessPath .fetch s.pc n s = .trap code bad t)
      ∨ (s.pc.toNat % s.cfg.ialignBytes = 0 ∧ s.cfg.ialign = .i16 ∧ ∃ pa s1, accessPath .fetch s.pc 2 s = .done pa s1
        ∧ accessPath .fetch (s.cfg.trunc (s.pc + 2)) 2 s1 = .trap code bad t) := by
  unfold fetchPath at h
  split at h
  · rename_i hodd
    cases h
    exact .inl ⟨hodd, rfl, rfl, rfl⟩
  · rename_i haligned
    rw [not_not] at haligned
    split at h
    · split at h
      · rename_i hfirst
        cases h
        exact .inr (.inl ⟨haligned, 4, hfirst⟩)
      · cases h
      · cases h
    · rename_i hialign
      split at h
      · rename_i hfirst
        cases h
        exact .inr (.inl ⟨haligned, 2, hfirst⟩)
      · cases h
      · rename_i pa s1 hfirst
        split at h
        · cases h
        · split at h
          · rename_i hsecond
            cases h
            exact .inr (.inr ⟨haligned, hialign, pa, s1, hfirst, hsecond⟩)
          · cases h
          · cases h

/-- The second parcel stands at another address. -/
theorem trunc_add_two_ne (c : Config) (v : Word) : c.trunc (v + 2) ≠ v := by
  intro h
  have hnat := congrArg BitVec.toNat h
  rw [trunc_add_toNat] at hnat
  have htwo : (2 : Word).toNat = 2 := rfl
  rcases width_cases c with ⟨_, hx⟩ | ⟨_, hx⟩ <;> rw [hx, htwo] at hnat <;> omega

theorem step_fetchFault {s t : State} {code : BitVec 4} {bad : Word} (hint : interruptAtBoundary s = none)
    (hstall : s.stalled = false) (h : fetchPath s = .trap code bad t) :
    step s = .next (environment (retire (raiseException code (some bad) t))) := by
  simp [step, cycle, hint, hstall, runInstruction, h, andThen]

/-- Settles O7, by where the fetch fails. -/
theorem fetchFaultTraps : Obligations.FetchFaultTraps := by
  unfold Obligations.FetchFaultTraps
  intro s t code bad hint hstall hfetch second one two
  have hframe := (fetchPath_trap hfetch).1
  refine ⟨step_fetchFault hint hstall hfetch, ?_⟩
  rcases fetchPath_trap_cases hfetch with ⟨hodd, rfl, rfl, rfl⟩ | ⟨haligned, n, hfirst⟩
    | ⟨haligned, hialign, pa, s1, hfirst, hsecond⟩
  · exact ⟨fun _ => ⟨rfl, rfl, rfl⟩, fun h => absurd h hodd, hframe, fun _ _ _ => rfl⟩
  · obtain ⟨rfl, rfl, ht⟩ := accessPath_trap hfirst
    rw [effPriv_fetch] at ht
    refine ⟨fun h => absurd haligned h, fun _ => ⟨rfl, .inl ⟨rfl, ht⟩⟩, hframe, fun a hout _ => ?_⟩
    rw [ht]
    exact translateAddress_read hout
  · have hone : s1 = one := by simpa using accessPath_done hfirst
    obtain ⟨rfl, rfl, ht⟩ := accessPath_trap hsecond
    have htwo : t = two := by
      rw [ht, hone, effPriv_fetch, translateAddress_priv]
    refine ⟨fun h => absurd haligned h, fun _ => ⟨rfl, .inr ⟨hialign, rfl, htwo, pa, hone ▸ hfirst⟩⟩, hframe,
      fun a hout hout2 => ?_⟩
    have hsecondOut := hout2.resolve_left (trunc_add_two_ne s.cfg s.pc)
    rw [htwo, translateAddress_read hsecondOut, translateAddress_read hout]

end Sys2Proof.Machine
end

section
/-!
The privilege stack as bits of `mstatus` (60_exceptions.md R442, R450): the word of the stack entry by entry, and push
and pop as its shifts by one entry.
-/

namespace Sys2Proof.Machine

/-! ### The entries of the stack -/

/-- Entry `k` of the stack; there are four. -/
def Mstatus.entry (m : Mstatus) : Nat → StackEntry
  | 0 => m.e0
  | 1 => m.e1
  | 2 => m.e2
  | 3 => m.e3
  | _ => StackEntry.zero

theorem entry_bits_of_ge (e : StackEntry) {k : Nat} (h : 3 ≤ k) : e.bits.getLsbD k = false := by
  rw [entry_getLsbD]
  simp only [Bool.or_eq_false_iff, Bool.and_eq_false_iff, decide_eq_false_iff_not]
  omega

/-- Bits 3j+2:3j of `mstatus` are entry `j` of the stack (11_state_machine_csrs.md R100). -/
theorem fields_entry (m : Mstatus) {j k : Nat} (hj : j < 4) (hk : k < 3) :
    m.fields.getLsbD (3 * j + k) = (m.entry j).bits.getLsbD k := by
  rw [fields_getLsbD]
  simp only [entry_getLsbD]
  interval_cases j <;> interval_cases k <;> simp [Mstatus.entry]

/-- Above the stack stand the other fields. -/
theorem fields_high {m n : Mstatus} (hvm : n.vm = m.vm) (hmprv : n.mprv = m.mprv) (hxs : n.xs = m.xs)
    (hfs : n.fs = m.fs) {k : Nat} (hk : 12 ≤ k) : n.fields.getLsbD k = m.fields.getLsbD k := by
  have hstack (e : StackEntry) {b : Nat} (hb : b ≤ 9) : e.bits.getLsbD (k - b) = false := entry_bits_of_ge e (by omega)
  have hlast (e : StackEntry) : e.bits.getLsbD k = false := entry_bits_of_ge e (by omega)
  simp [fields_getLsbD, hvm, hmprv, hxs, hfs, hstack, hlast]

theorem lowMask_getLsbD (w k : Nat) :
    (BitVec.ofNat 64 (2 ^ w - 1)).getLsbD k = (decide (k < 64) && decide (k < w)) := by
  rw [BitVec.getLsbD_ofNat, Nat.testBit_two_pow_sub_one]

theorem depth_le_four (c : Config) : c.depth ≤ 4 := by
  have := depth_cases c
  omega

/-- Entries at or above DEPTH are zero (R103). -/
theorem entry_zero_of_depth {c : Config} {m : Mstatus} (hstack : Mstatus.hardwireStack c m = m) {j : Nat}
    (hj : c.depth ≤ j) : m.entry j = StackEntry.zero := by
  have hd := depth_cases c
  rw [← hstack]
  match j with
  | 0 | 1 => omega
  | 2 => exact if_pos hj
  | 3 => exact if_pos hj
  | j + 4 => rfl

section
variable {c : Config} {m : Mstatus} (hstack : Mstatus.hardwireStack c m = m) (hlive : c.modes ≠ .m)
include hstack hlive

/-- A push moves the entries up, the last one out, and puts the target with interrupts disabled below them. -/
theorem push_entry (t : Priv) (j : Nat) : (Mstatus.push c t m).entry j =
    if j = 0 then { prv := t, ie := false } else if j < c.depth then m.entry (j - 1) else m.entry j := by
  have hd := depth_cases c
  have hwire : ∀ e : StackEntry, e.hardwire c = e := fun e => if_neg hlive
  match j with
  | 0 => exact hwire _
  | 1 =>
    rw [if_neg (by omega), if_pos (by omega)]
    exact hwire _
  | 2 | 3 =>
    rw [if_neg (by omega)]
    split
    · exact if_neg (by omega)
    · rw [entry_zero_of_depth hstack (by omega)]
      exact if_pos (by omega)
  | j + 4 =>
    rw [if_neg (by omega), if_neg (by omega)]
    rfl

/-- A pop moves the entries down, and the filler into the place of the last (R104). -/
theorem pop_entry (j : Nat) : (Mstatus.pop c m).entry j =
    if j + 1 < c.depth then m.entry (j + 1) else if j + 1 = c.depth then popFiller c else m.entry j := by
  have hd := depth_cases c
  have hwire : ∀ e : StackEntry, e.hardwire c = e := fun e => if_neg hlive
  by_cases hj : c.depth ≤ j
  · rw [if_neg (by omega), if_neg (by omega), entry_zero_of_depth hstack hj]
    match j with
    | 0 | 1 => omega
    | 2 => exact if_pos hj
    | 3 => exact if_pos hj
    | j + 4 => rfl
  · match j with
    | 0 =>
      rw [if_pos (by omega)]
      exact hwire _
    | 1 | 2 | 3 =>
      simp only [Mstatus.pop, Mstatus.hardwireStack, Mstatus.entry, hwire]
      split_ifs <;> first | rfl | omega
    | j + 4 => omega

/-! ### Push and pop as shifts -/

/-- Each bit of a pushed stack: the target's below, and the bits of the live entries moved up by one entry. -/
theorem push_getLsbD (t : Priv) (k : Nat) : (Mstatus.push c t m).fields.getLsbD k =
    if k < 3 then (StackEntry.mk t false).bits.getLsbD k
    else if k < 3 * c.depth then m.fields.getLsbD (k - 3) else m.fields.getLsbD k := by
  have hd := depth_le_four c
  by_cases hk : 12 ≤ k
  · rw [if_neg (by omega), if_neg (by omega)]
    exact fields_high (m := m) (n := Mstatus.push c t m) rfl rfl rfl rfl hk
  obtain ⟨j, i, rfl, hi⟩ : ∃ j i, k = 3 * j + i ∧ i < 3 := ⟨k / 3, k % 3, by omega, by omega⟩
  have hfirst : 3 * j + i < 3 ↔ j = 0 := by omega
  have hlast : 3 * j + i < 3 * c.depth ↔ j < c.depth := by omega
  rw [fields_entry _ (by omega) hi, push_entry hstack hlive]
  simp only [hfirst, hlast]
  split_ifs with h0 hlt
  · simp [h0]
  · rw [show 3 * j + i - 3 = 3 * (j - 1) + i by omega, fields_entry _ (by omega) hi]
  · rw [fields_entry _ (by omega) hi]

/-- Each bit of a popped stack: the bits of the live entries moved down by one entry, the filler's above them. -/
theorem pop_getLsbD (k : Nat) : (Mstatus.pop c m).fields.getLsbD k =
    if k + 3 < 3 * c.depth then m.fields.getLsbD (k + 3)
    else if k < 3 * c.depth then (popFiller c).bits.getLsbD (k - (3 * c.depth - 3)) else m.fields.getLsbD k := by
  have hd := depth_le_four c
  by_cases hk : 12 ≤ k
  · rw [if_neg (by omega), if_neg (by omega)]
    exact fields_high (m := m) (n := Mstatus.pop c m) rfl rfl rfl rfl hk
  obtain ⟨j, i, rfl, hi⟩ : ∃ j i, k = 3 * j + i ∧ i < 3 := ⟨k / 3, k % 3, by omega, by omega⟩
  have hlower : 3 * j + i + 3 < 3 * c.depth ↔ j + 1 < c.depth := by omega
  have hlast : 3 * j + i < 3 * c.depth ↔ j < c.depth := by omega
  rw [fields_entry _ (by omega) hi, pop_entry hstack hlive]
  simp only [hlower, hlast]
  split_ifs with hlt heq hin
  · rw [show 3 * j + i + 3 = 3 * (j + 1) + i by omega, fields_entry _ (by omega) hi]
  · rw [← heq, show 3 * j + i - (3 * (j + 1) - 3) = i by omega]
  · omega
  · omega
  · rw [fields_entry _ (by omega) hi]

end

/-! ### The words -/

theorem bits_of_disabled (t : Priv) : (StackEntry.mk t false).bits = t.bits.setWidth 64 <<< 1 := by
  simp [StackEntry.bits, flagAt]

/-- Where some mode beside M is supported the lowest one is U, so that the filler is the enable alone (R104). -/
theorem popFiller_bits {c : Config} (hlive : c.modes ≠ .m) : (popFiller c).bits = 1 := by
  have hlow : c.lowest = .u := by
    unfold Config.lowest
    cases h : c.modes with
    | m => exact absurd h hlive
    | mu | msu | mhsu => rfl
  rw [popFiller, hlow]
  decide

/-- On an M-only machine DEPTH is 2 and every mode field is M (R103). -/
theorem entries_of_m_only {c : Config} {m : Mstatus} (hstack : Mstatus.hardwireStack c m = m) (hm : c.modes = .m) :
    m.e3 = StackEntry.zero ∧ m.e2 = StackEntry.zero ∧ m.e1.prv = .m ∧ m.e0.prv = .m := by
  rw [← hstack]
  simp [Mstatus.hardwireStack, StackEntry.hardwire, Config.depth, hm]

/-- Words that agree from bit `w` on agree outside the low `w` bits. -/
theorem and_not_lowMask_congr {v u : Word} {w : Nat} (h : ∀ k, w ≤ k → v.getLsbD k = u.getLsbD k) :
    v &&& ~~~(BitVec.ofNat 64 (2 ^ w - 1)) = u &&& ~~~(BitVec.ofNat 64 (2 ^ w - 1)) := by
  apply BitVec.eq_of_getLsbD_eq
  intro k hk
  rw [BitVec.getLsbD_and, BitVec.getLsbD_and, BitVec.getLsbD_not, lowMask_getLsbD]
  by_cases hw : k < w
  · simp [hk, hw]
  · rw [h k (by omega)]

/-- Settles O30: bit by bit where modes are live, entry by entry on an M-only machine. -/
theorem pushBits : Obligations.PushBits := by
  unfold Obligations.PushBits
  intro c m t hstack _
  refine ⟨fun hlive => ?live, fun hm => ?machineOnly⟩
  case live =>
    have hpush := push_getLsbD hstack hlive t
    have hd := depth_cases c
    refine ⟨?_, and_not_lowMask_congr fun k hk => by rw [hpush, if_neg (by omega), if_neg (by omega)]⟩
    rw [← bits_of_disabled]
    apply BitVec.eq_of_getLsbD_eq
    intro k hk
    rw [BitVec.getLsbD_or, BitVec.getLsbD_and, BitVec.getLsbD_and, BitVec.getLsbD_shiftLeft, lowMask_getLsbD, hpush]
    by_cases h3 : k < 3
    · have hw : k < 3 * c.depth := by omega
      simp [h3, hk, hw]
    · have hhigh := entry_bits_of_ge ⟨t, false⟩ (Nat.not_lt.mp h3)
      simp only [hhigh, h3, hk, if_false, decide_true, decide_false, Bool.not_false, Bool.true_and, Bool.or_false]
      by_cases hw : k < 3 * c.depth <;> simp [hw]
  case machineOnly =>
    obtain ⟨h3, h2, -, hprv⟩ := entries_of_m_only hstack hm
    simp [Mstatus.push, Mstatus.hardwireStack, StackEntry.hardwire, Config.depth, hm, h2, h3]

/-- Settles O31: bit by bit where modes are live, entry by entry on an M-only machine. -/
theorem popBits : Obligations.PopBits := by
  unfold Obligations.PopBits
  intro c m hstack
  refine ⟨fun hlive => ?live, fun hm => ?machineOnly⟩
  case live =>
    have hpop := pop_getLsbD hstack hlive
    have hd := depth_cases c
    refine ⟨?_, and_not_lowMask_congr fun k hk => by rw [hpop, if_neg (by omega), if_neg (by omega)]⟩
    rw [popFiller_bits hlive] at hpop
    apply BitVec.eq_of_getLsbD_eq
    intro k hk
    rw [BitVec.getLsbD_or, BitVec.getLsbD_and, BitVec.getLsbD_ushiftRight, BitVec.getLsbD_and,
      BitVec.getLsbD_shiftLeft, lowMask_getLsbD, lowMask_getLsbD, hpop, Nat.add_comm 3 k]
    by_cases hlower : k + 3 < 3 * c.depth
    · have hw : k < 3 * c.depth := by omega
      have hfill : k < 3 * c.depth - 3 := by omega
      simpa [hlower, hw, hfill, hk] using BitVec.lt_of_getLsbD
    · have hfill : ¬k < 3 * c.depth - 3 := by omega
      by_cases hw : k < 3 * c.depth
      · simp [hlower, hw, hfill, hk]
      · have hone : (1#64).getLsbD (k - (3 * c.depth - 3)) = false := by
          rw [BitVec.getLsbD_one]
          simp only [Nat.reduceLT, decide_true, Bool.true_and, decide_eq_false_iff_not]
          omega
        rw [hone]
        simp [hlower, hw]
  case machineOnly =>
    obtain ⟨h3, h2, -, -⟩ := entries_of_m_only hstack hm
    simp [Mstatus.pop, Mstatus.hardwireStack, StackEntry.hardwire, Config.depth, popFiller, Config.lowest, hm, h2, h3]

end Sys2Proof.Machine
end

section
/-!
Trap entry and the level that handles a trap (60_exceptions.md R440 to R446, R457); the way from U through a trap into M
and back (R453).
-/

namespace Sys2Proof.Machine

/-! ### The level that handles a trap -/

section
variable {s : State} {b : Nat}

theorem trapTarget_of_m (hp : s.priv = .m) : trapTarget s b = .m :=
  if_pos hp

theorem trapTarget_of_h (hp : s.priv = .h) (hh : s.cfg.has .h = true) (hd : s.mtdeleg.getLsbD b = true) :
    trapTarget s b = .h := by
  simp [trapTarget, hp, hh, hd]

/-- A trap from below H that M delegates goes to H, which may delegate it further. -/
theorem trapTarget_below_h (hp : s.priv = .s ∨ s.priv = .u) (hh : s.cfg.has .h = true)
    (hd : s.mtdeleg.getLsbD b = true) : trapTarget s b = if s.htdeleg.getLsbD b then .s else .h := by
  rcases hp with hp | hp <;> simp [trapTarget, hp, hh, hd]

theorem trapTarget_without_h (hp : s.priv ≠ .m) (hh : s.cfg.has .h = false) (hs : s.cfg.has .s = true) :
    trapTarget s b = if s.mtdeleg.getLsbD b then .s else .m := by
  simp [trapTarget, hp, hh, hs]

theorem trapTarget_without_s (hh : s.cfg.has .h = false) (hs : s.cfg.has .s = false) : trapTarget s b = .m := by
  simp [trapTarget, hh, hs]

end

/-- Settles O28, row by row. -/
theorem trapTargetTable : Obligations.TrapTargetTable := by
  unfold Obligations.TrapTargetTable
  intro s b
  exact ⟨trapTarget_of_m, fun _ _ hd => trapTarget_undelegated hd, trapTarget_of_h, trapTarget_below_h,
    trapTarget_without_h, trapTarget_without_s⟩

/-- A trap from H is handled in H or M. -/
theorem trapTarget_ne_s_of_h {s : State} {b : Nat} (hp : s.priv = .h) (hh : s.cfg.has .h = true) :
    trapTarget s b ≠ .s := by
  cases hd : s.mtdeleg.getLsbD b with
  | true => simp [trapTarget_of_h hp hh hd]
  | false => simp [trapTarget_undelegated hd]

theorem one_le_level {p : Priv} (hu : p ≠ .u) : 1 ≤ p.level := by
  cases p with
  | u => exact absurd rfl hu
  | s | h | m => decide

theorem two_le_level {p : Priv} (hu : p ≠ .u) (hs : p ≠ .s) : 2 ≤ p.level := by
  cases p with
  | u => exact absurd rfl hu
  | s => exact absurd rfl hs
  | h | m => decide

theorem level_le_trapTarget {s : State} (b : Nat) (hp : s.cfg.has s.priv = true) :
    s.priv.level ≤ (trapTarget s b).level := by
  have hu := trapTarget_ne_u s b
  cases hpriv : s.priv with
  | u => exact Nat.zero_le _
  | s => exact one_le_level hu
  | h => exact two_le_level hu (trapTarget_ne_s_of_h hpriv (hpriv ▸ hp))
  | m => rw [trapTarget_of_m hpriv]

/-- Settles O29: of a trap from H, the target is not S. -/
theorem trapNeverLowers : Obligations.TrapNeverLowers := by
  unfold Obligations.TrapNeverLowers
  intro s b hp
  exact ⟨level_le_trapTarget b hp, trapTarget_has s b, trapTarget_ne_u s b⟩

/-! ### The entry point in M (R441) -/

/-- The entry point `e` is one that the implementation adds for the cause and the level the trap came from. -/
def Config.AddedEntry (c : Config) (cause : Cause) (p : Priv) (e : ExtraVector) : Prop :=
  e ∈ c.extraVectors ∧ e.interrupt = cause.interrupt ∧ e.code = cause.code ∧ p ∈ e.levels

/-- The entry point is an added one where there is one, else the level's of the four. -/
theorem entryOffset_cases (c : Config) (cause : Cause) (p : Priv) :
    (∃ e, Config.AddedEntry c cause p e ∧ c.entryOffset cause.interrupt cause.code p = e.offset)
      ∨ ((∀ e, ¬Config.AddedEntry c cause p e)
        ∧ c.entryOffset cause.interrupt cause.code p = BitVec.ofNat 64 (p.level * 64)) := by
  unfold Config.entryOffset
  split
  case h_1 e he =>
    have hserves := List.find?_some he
    simp only [Bool.and_eq_true, decide_eq_true_eq, List.contains_iff_mem, and_assoc] at hserves
    exact .inl ⟨e, ⟨List.mem_of_find?_eq_some he, hserves⟩, rfl⟩
  case h_2 hnone =>
    refine .inr ⟨fun e ⟨hmem, hserves⟩ => ?_, rfl⟩
    have hnot := List.find?_eq_none.1 hnone e hmem
    simp only [Bool.and_eq_true, decide_eq_true_eq, List.contains_iff_mem, and_assoc] at hnot
    exact hnot hserves

/-! ### What a trap leaves -/

section
variable (p : Priv) (handler : Word) (cause : Cause) (epc : Word) (bad : Option Word) (s : State)

/-- A trap writes the registers of its target alone (R446). -/
theorem enterTrap_trapRegs_ne {q : Priv} (h : q ≠ p) :
    (enterTrap p handler cause epc bad s).trapRegs q = s.trapRegs q := by
  cases p <;> cases q <;> first | rfl | exact absurd rfl h

theorem enterTrap_frame :
    let t := enterTrap p handler cause epc bad s
    t = { s with tm := t.tm, th := t.th, ts := t.ts, mstatus := t.mstatus, pc := t.pc, stalled := false,
                 draws := t.draws } := by
  cases p <;> rfl

end

/-- A push of a supported mode makes it the current one. -/
theorem push_prv {c : Config} {p : Priv} (hp : c.has p = true) (m : Mstatus) : (Mstatus.push c p m).e0.prv = p := by
  by_cases hm : c.modes = .m
  · have hpm : p = .m := by_contra fun hne => modes_ne_m_of_has hp hne hm
    simp [Mstatus.push, Mstatus.hardwireStack, StackEntry.hardwire, hpm]
  · simp [Mstatus.push, Mstatus.hardwireStack, StackEntry.hardwire, hm]

/-- A push disables interrupts. -/
theorem push_ie (c : Config) (p : Priv) (m : Mstatus) : (Mstatus.push c p m).e0.ie = false := by
  simp only [Mstatus.push, Mstatus.hardwireStack, StackEntry.hardwire]
  split <;> rfl

/-- A push saves the enable, on an M-only machine too. -/
theorem push_e1_ie (c : Config) (p : Priv) (m : Mstatus) : (Mstatus.push c p m).e1.ie = m.e0.ie := by
  simp only [Mstatus.push, Mstatus.hardwireStack, StackEntry.hardwire]
  split <;> rfl

/-- A push saves the mode and the enable where modes are live. -/
theorem push_e1 {c : Config} (hlive : c.modes ≠ .m) (p : Priv) (m : Mstatus) : (Mstatus.push c p m).e1 = m.e0 :=
  if_neg hlive

/-- Settles O27: the target's registers, the pushed stack, and the entry point, an added one or the level's. -/
theorem trapEntry : Obligations.TrapEntry := by
  unfold Obligations.TrapEntry
  intro s b cause epc bad p t added
  have hstack : t.mstatus = { Mstatus.push s.cfg p s.mstatus with mprv := false } := enterTrap_mstatus _ _ _ _ _ _
  have hpc : t.pc = handlerAddress s cause p := takeTrap_pc _ _ _ _ _
  refine ⟨takeTrap_recorded b cause epc bad s, fun q hq => enterTrap_trapRegs_ne p _ cause epc bad s hq, ?_, ?_, ?_,
    fun hlive => ?_, hstack, ?_, ?_, ?_, fun hp => ?_, fun hp => ?_, fun hp hnone => ?_, fun hp hsome => ?_,
    enterTrap_frame _ _ _ _ _ _⟩
  · rw [State.priv, hstack]
    exact push_prv (trapTarget_has s b) s.mstatus
  · rw [hstack]
    exact push_ie s.cfg p s.mstatus
  · rw [hstack]
    exact push_e1_ie s.cfg p s.mstatus
  · rw [hstack]
    exact congrArg StackEntry.prv (push_e1 hlive p s.mstatus)
  · rw [hstack]
    rfl
  · rw [hstack]
    rfl
  · rw [hstack]
    rfl
  · rw [hpc, hp]
    rfl
  · rw [hpc, hp]
    rfl
  · rw [hpc, hp]
    rcases entryOffset_cases s.cfg cause s.priv with ⟨e, he, -⟩ | ⟨-, hoffset⟩
    · exact absurd he (hnone e)
    · rw [handlerAddress, hoffset]
  · rw [hpc, hp]
    rcases entryOffset_cases s.cfg cause s.priv with ⟨e, he, hoffset⟩ | ⟨hnone, -⟩
    · exact ⟨e, he, by rw [handlerAddress, hoffset]⟩
    · obtain ⟨e, he⟩ := hsome
      exact absurd he (hnone e)

/-! ### From U into M and back -/

theorem has_u_of_live {c : Config} (hlive : c.modes ≠ .m) : c.has .u = true := by
  unfold Config.has
  cases h : c.modes with
  | m => exact absurd h hlive
  | mu | msu | mhsu => rfl

/-- A pop restores the mode and the enable where modes are live. -/
theorem pop_e0 {c : Config} (hlive : c.modes ≠ .m) (m : Mstatus) : (Mstatus.pop c m).e0 = m.e1 :=
  if_neg hlive

theorem exec_ecall_undelegated {s : State} (hp : s.priv = .u) (hdeleg : s.mtdeleg.getLsbD 8 = false) :
    ∃ handler cause, exec .ecall s = .next (enterTrap .m handler cause s.pc none s) := by
  have htarget : trapTarget s (8 + s.priv.level) = .m := trapTarget_undelegated (by rw [hp]; exact hdeleg)
  exact ⟨_, _, by rw [exec_ecall, takeTrap, htarget]⟩

/-- ERET in M over an entry of U returns to U at `mepc`. -/
theorem exec_eret_to_user {s : State} (hlive : s.cfg.modes ≠ .m) (hm : s.priv = .m) (hu : s.mstatus.e1.prv = .u) :
    exec .eret s = .next (trapReturn s.tm.epc s) := by
  have hbelow : modeBelow s = .u := by rw [modeBelow, if_neg hlive, hu]
  have hreturn := execEret_return (s := s) (by simp [hm]) (hbelow ▸ has_u_of_live hlive)
    (.inr (hbelow ▸ Nat.zero_le _))
  rw [hm] at hreturn
  exact hreturn

/-- Settles O35: the call pushes U's entry, and ERET in M pops it. -/
theorem ecallEretRoundTrip : Obligations.EcallEretRoundTrip := by
  unfold Obligations.EcallEretRoundTrip
  intro s a hp hlive hdeleg
  obtain ⟨handler, cause, hcall⟩ := exec_ecall_undelegated hp hdeleg
  have hm := enterTrap_m_priv handler cause s.pc none s
  have hsaved : (enterTrap .m handler cause s.pc none s).mstatus.e1 = s.mstatus.e0 := push_e1 hlive .m s.mstatus
  obtain ⟨hcfg, hx, hmem⟩ : (enterTrap .m handler cause s.pc none s).cfg = s.cfg
      ∧ (enterTrap .m handler cause s.pc none s).x = s.x
      ∧ (enterTrap .m handler cause s.pc none s).mem = s.mem := by simp
  generalize enterTrap .m handler cause s.pc none s = t at hcall hm hsaved hcfg hx hmem
  have hlive' : t.cfg.modes ≠ .m := hcfg ▸ hlive
  have hpopped : (Mstatus.pop t.cfg t.mstatus).e0 = s.mstatus.e0 := (pop_e0 hlive' _).trans hsaved
  exact ⟨t, _, hcall, hm, exec_eret_to_user (s := { t with tm := { t.tm with epc := a } }) hlive' hm
    ((congrArg StackEntry.prv hsaved).trans hp), (congrArg StackEntry.prv hpopped).trans hp, hpopped, rfl, hx, hmem⟩

end Sys2Proof.Machine
end

section
/-!
Interrupts (60_exceptions.md R430 to R437): each source's bit of `mip` and `mie`, and what a boundary takes.
-/

namespace Sys2Proof.Machine

/-! ### The bit of a source -/

/-- The bits of added sources leave the eight standard places free (11_state_machine_csrs.md R135). -/
theorem extra_getLsbD_low {c : Config} {b : IntBits} (h : intBitsOk c b = true) {k : Nat} (hk : k < 8) :
    b.extra.getLsbD k = false := by
  obtain ⟨-, -, hextra⟩ := intBitsOk_iff.1 h
  have hbit : c.extraIntBits.getLsbD k = false := by
    rw [← Bool.not_eq_true, extraIntBits_getLsbD]
    omega
  rw [← hextra, BitVec.getLsbD_and, hbit, Bool.and_false]

theorem IntBits.word_getLsbD (b : IntBits) {k : Nat} (hk : k < 64) : b.word.getLsbD k =
    (decide (k = 1) && b.ssi || decide (k = 2) && b.hsi || decide (k = 3) && b.msi || decide (k = 5) && b.sti
      || decide (k = 6) && b.hti || decide (k = 7) && b.mti || b.extra.getLsbD k) := by
  simp only [IntBits.word, BitVec.getLsbD_or, flagAt_getLsbD, hk, decide_true, Bool.true_and]

/-- The bit of a source of the configuration: a standard one has one of the eight low places, an added one a place above
them. -/
theorem extraSource_bit {c : Config} (hc : c.valid = true) {bit : Nat} {code : BitVec 4}
    (h : IntSource.extra bit code ∈ intSources c) : 8 ≤ bit ∧ bit < 64 := by
  simp only [intSources, List.mem_append, List.mem_cons, List.not_mem_nil, or_false, reduceCtorEq, false_or,
    List.mem_map, IntSource.extra.injEq] at h
  obtain ⟨e, he, rfl, -⟩ := h
  simp only [Config.valid, Config.extrasValid, Bool.and_eq_true, List.all_eq_true, decide_eq_true_eq] at hc
  obtain ⟨⟨-, ⟨⟨-, hsources⟩, -⟩, -⟩, -⟩ := hc
  obtain ⟨⟨hlow, hhigh⟩, -⟩ := hsources e he
  have := width_cases c
  omega

/-- A source's bit stands in its place of the word. -/
theorem IntBits.word_getLsbD_bit {c : Config} (hc : c.valid = true) {b : IntBits} (hb : intBitsOk c b = true)
    {i : IntSource} (hi : i ∈ intSources c) : b.word.getLsbD i.bit = b.get i := by
  cases i with
  | ssi | hsi | msi | sti | hti | mti =>
    rw [IntBits.word_getLsbD b (by decide), extra_getLsbD_low hb (by decide)]
    simp [IntSource.bit, IntBits.get]
  | extra bit code =>
    obtain ⟨hlow, hhigh⟩ := extraSource_bit hc hi
    have hne : ∀ k < 8, bit ≠ k := fun k hk => by omega
    simp [IntSource.bit, IntBits.get, IntBits.word_getLsbD b hhigh, hne]

/-- Settles O41: a source's bits in the two words are its fields. -/
theorem interruptEnabled : Obligations.InterruptEnabled := by
  unfold Obligations.InterruptEnabled
  intro s i hc hmip hmie hi
  simp only [csrRead, IntBits.word_getLsbD_bit hc hmip hi, IntBits.word_getLsbD_bit hc hmie hi, intEnabled,
    Bool.and_eq_true, Bool.or_eq_true, decide_eq_true_eq]
  tauto

/-! ### What a boundary takes -/

/-- Of several enabled sources one is taken; the choice is free (R437). -/
theorem pickSource_mem (draw : Nat) {l : List IntSource} (h : l ≠ []) : ∃ i ∈ l, pickSource draw l = some i := by
  match l with
  | [] => exact absurd rfl h
  | [i] => exact ⟨i, List.mem_singleton_self i, rfl⟩
  | i :: j :: rest =>
    have hlt : Config.interruptPick draw % (rest.length + 2) < (i :: j :: rest).length := Nat.mod_lt _ (by omega)
    exact ⟨_, List.getElem_mem hlt, List.getElem?_eq_getElem hlt⟩

theorem step_interrupt {s t : State} (h : interruptAtBoundary s = some t) : step s = .next (environment t) := by
  simp [step, cycle, h, andThen]

/-- Where some source is enabled and no non-maskable interrupt is pending, one of the enabled ones is taken. -/
theorem interruptAtBoundary_enabled {s : State} (hnmi : s.nmiPending = false)
    (h : ∃ i ∈ intSources s.cfg, intEnabled s i = true) :
    ∃ i ∈ intSources s.cfg, intEnabled s i = true ∧ interruptAtBoundary s = some (takeInterrupt i s) := by
  obtain ⟨j, hj, hej⟩ := h
  have hsome : enabledSources s ≠ [] := List.ne_nil_of_mem (List.mem_filter.2 ⟨hj, hej⟩)
  obtain ⟨i, hi, hpick⟩ := pickSource_mem s.draws hsome
  obtain ⟨hmem, henabled⟩ := List.mem_filter.1 hi
  exact ⟨i, hmem, henabled, by simp [interruptAtBoundary, hnmi, hpick]⟩

/-- Settles O42: the source the choice gives, taken as a trap. -/
theorem interruptTaken : Obligations.InterruptTaken := by
  unfold Obligations.InterruptTaken
  intro s hnmi h
  obtain ⟨i, hi, henabled, htaken⟩ := interruptAtBoundary_enabled hnmi h
  refine ⟨i, takeInterrupt i s, hi, henabled, step_interrupt htaken, rfl, enterTrap_mip _ _ _ _ _ s,
    enterTrap_clock _ _ _ _ _ s, ?_, ?_, ?_, ?_⟩
  · rintro (rfl | rfl | rfl) <;> rfl
  · rintro (rfl | rfl | rfl) <;> rfl
  · rintro bit code rfl
    rfl
  · cases i <;> rfl

/-- Settles O43: a pending non-maskable interrupt comes first at the boundary, and enters M. -/
theorem nmiTaken : Obligations.NmiTaken := by
  unfold Obligations.NmiTaken
  intro s hnmi hpending
  have htaken : interruptAtBoundary s = some (takeNmi s) := by simp [interruptAtBoundary, hnmi, hpending]
  exact ⟨takeNmi s, step_interrupt htaken, rfl, rfl, rfl, rfl⟩

end Sys2Proof.Machine
end

section
/-!
Time (60_exceptions.md R470 to R472; 10_state.md R55 to R58): the time registers and counters under a write, the advance
that makes a timer interrupt pending, and what the outside does at a boundary.
-/

namespace Sys2Proof.Machine

/-! ### Counters by halves (R55, R58) -/

section
variable {c : Config} {v : Word}

theorem lt_xlen_of_getLsbD (hv : c.trunc v = v) {k : Nat} (h : v.getLsbD k = true) : k < c.xlen := by
  rw [← hv, trunc_getLsbD, Bool.and_eq_true, decide_eq_true_eq] at h
  exact h.1

theorem counterLow_getLsbD (c : Config) (v : Word) (k : Nat) :
    (counterLow c v).getLsbD k = (decide (k < c.xlen) && v.getLsbD k) :=
  trunc_getLsbD c v k

theorem counterHigh_getLsbD (v : Word) (k : Nat) : (counterHigh v).getLsbD k = v.getLsbD (32 + k) := by
  rw [counterHigh, BitVec.getLsbD_ushiftRight]

theorem lowHalf_getLsbD (k : Nat) : (0xFFFFFFFF : Word).getLsbD k = decide (k < 32) :=
  Nat.testBit_two_pow_sub_one 32 k

/-- On RV32 a write of the low half keeps the high one. -/
theorem setCounterLow_getLsbD (hc : c.isRv32 = true) (old v : Word) (k : Nat) :
    (setCounterLow c old v).getLsbD k = if k < 32 then v.getLsbD k else old.getLsbD k := by
  rw [setCounterLow, if_pos hc, BitVec.getLsbD_or, BitVec.getLsbD_and, BitVec.getLsbD_and, BitVec.getLsbD_not,
    lowHalf_getLsbD]
  split
  case isTrue hk => simp [hk]
  case isFalse hk => simpa [hk] using BitVec.lt_of_getLsbD

/-- On RV32 a write of the high half keeps the low one. -/
theorem setCounterHigh_getLsbD (old v : Word) (k : Nat) : (setCounterHigh old v).getLsbD k =
    if k < 32 then old.getLsbD k else decide (k < 64) && v.getLsbD (k - 32) := by
  have hlow : ((0xFFFFFFFF : Nat) : Word).getLsbD k = decide (k < 32) := lowHalf_getLsbD k
  rw [setCounterHigh, BitVec.getLsbD_or, BitVec.getLsbD_and, BitVec.getLsbD_shiftLeft, hlow]
  split
  case isTrue hk => simp [hk]
  case isFalse hk => simp [hk]

/-- A counter's CSR reads back what was written to it, at either width. -/
theorem counterLow_setCounterLow (hv : c.trunc v = v) (old : Word) : counterLow c (setCounterLow c old v) = v := by
  cases hc : c.isRv32 with
  | false =>
    rw [setCounterLow, if_neg (by simp [hc])]
    exact hv
  | true =>
    rcases width_cases c with ⟨-, hx⟩ | ⟨h64, -⟩
    · apply BitVec.eq_of_getLsbD_eq
      intro k hk
      rw [counterLow_getLsbD, setCounterLow_getLsbD hc]
      by_cases h : k < 32
      · simp [h, hx]
      · have hzero : v.getLsbD k = false := by
          rw [← Bool.not_eq_true]
          exact fun hbit => h (hx ▸ lt_xlen_of_getLsbD hv hbit)
        simp [h, hx, hzero]
    · rw [hc] at h64
      cases h64

section
variable (hc : c.isRv32 = true)
include hc

theorem xlen_of_isRv32 : c.xlen = 32 := by
  rcases width_cases c with ⟨-, hx⟩ | ⟨h64, -⟩
  · exact hx
  · rw [hc] at h64
    cases h64

theorem counterHigh_setCounterLow (old v : Word) : counterHigh (setCounterLow c old v) = counterHigh old := by
  apply BitVec.eq_of_getLsbD_eq
  intro k hk
  rw [counterHigh_getLsbD, counterHigh_getLsbD, setCounterLow_getLsbD hc, if_neg (by omega)]

theorem counterLow_setCounterHigh (old v : Word) : counterLow c (setCounterHigh old v) = counterLow c old := by
  have hx := xlen_of_isRv32 hc
  apply BitVec.eq_of_getLsbD_eq
  intro k hk
  rw [counterLow_getLsbD, counterLow_getLsbD, setCounterHigh_getLsbD, hx]
  by_cases h : k < 32 <;> simp [h]

theorem counterHigh_setCounterHigh (hv : c.trunc v = v) (old : Word) : counterHigh (setCounterHigh old v) = v := by
  have hx := xlen_of_isRv32 hc
  apply BitVec.eq_of_getLsbD_eq
  intro k hk
  rw [counterHigh_getLsbD, setCounterHigh_getLsbD, if_neg (by omega), Nat.add_sub_cancel_left]
  have hlow : v.getLsbD k = true → 32 + k < 64 := fun hbit => by
    have := lt_xlen_of_getLsbD hv hbit
    omega
  simpa using hlow

end
end

/-! ### Time registers (R470) -/

theorem time_setTime (k : Clock) (p q : Priv) (v : Word) :
    (k.setTime p v).time q = if q = p then v else k.time q := by
  have hback : k.rtc + (v - k.rtc) = v := add_sub_cancel k.rtc v
  cases p <;> cases q <;> simp [Clock.time, Clock.setTime, Clock.delta, hback]

@[simp] theorem rtc_setTime (k : Clock) (p : Priv) (v : Word) : (k.setTime p v).rtc = k.rtc := by
  cases p <;> rfl

@[simp] theorem timecmp_setTime (k : Clock) (p q : Priv) (v : Word) : (k.setTime p v).timecmp q = k.timecmp q := by
  cases p <;> rfl

theorem time_advanceClock (n : Nat) (s : State) (p : Priv) :
    (advanceClock n s).clock.time p = s.clock.time p + BitVec.ofNat 64 n := by
  cases p <;> exact add_right_comm _ _ _

/-- Equality that a write of a time register makes with the level's compare register sets the pending bit at once
(R471). -/
theorem writeTimeLow_mip (p : Priv) (v : Word) (s : State) : (writeTimeLow p v s).mip =
    if (s.cfg.has p && decide (p ≠ .u)
        && decide (((writeTimeLow p v s).clock.time p).setWidth 32 = s.clock.timecmp p)) = true
      then s.mip.setTimer p true else s.mip := by
  simp only [writeTimeLow, timeMatches, timecmp_setTime]

theorem time_writeTimeLow (p q : Priv) (v : Word) (s : State) : (writeTimeLow p v s).clock.time q =
    if q = p then setCounterLow s.cfg (s.clock.time p) v else s.clock.time q := by
  rw [writeTimeLow_clock, time_setTime]

theorem time_writeTimeHigh (p q : Priv) (v : Word) (s : State) : (writeTimeHigh p v s).clock.time q =
    if q = p then setCounterHigh (s.clock.time p) v else s.clock.time q := by
  rw [writeTimeHigh_clock, time_setTime]

/-- On RV64 the register reads back what was written, plus the ticks since. -/
theorem time_advanceClock_writeTimeLow {s : State} (hc : s.cfg.isRv32 = false) (p : Priv) (v : Word) (n : Nat) :
    (advanceClock n (writeTimeLow p v s)).clock.time p = v + BitVec.ofNat 64 n := by
  rw [time_advanceClock, time_writeTimeLow, if_pos rfl, setCounterLow, if_neg (by simp [hc])]

/-! The pending bits after a condition may have set a level's timer bit. -/

theorem ite_setTimer_m (b : IntBits) (g : Bool) :
    (if g = true then b.setTimer .m true else b) = { b with mti := b.mti || g } := by
  cases g <;> simp [IntBits.setTimer]

theorem ite_setTimer_h (b : IntBits) (g : Bool) :
    (if g = true then b.setTimer .h true else b) = { b with hti := b.hti || g } := by
  cases g <;> simp [IntBits.setTimer]

theorem ite_setTimer_s (b : IntBits) (g : Bool) :
    (if g = true then b.setTimer .s true else b) = { b with sti := b.sti || g } := by
  cases g <;> simp [IntBits.setTimer]

/-- The levels' forms of `writeTimeLow_mip`: the own timer-pending bit alone is set, and U has none. -/
theorem writeTimeLow_mip_levels (v : Word) (s : State) :
    (writeTimeLow .m v s).mip = { s.mip with
        mti := s.mip.mti || decide (((writeTimeLow .m v s).clock.time .m).setWidth 32 = s.clock.timecmp .m) }
      ∧ (writeTimeLow .h v s).mip = { s.mip with
        hti := s.mip.hti || (s.cfg.has .h
          && decide (((writeTimeLow .h v s).clock.time .h).setWidth 32 = s.clock.timecmp .h)) }
      ∧ (writeTimeLow .s v s).mip = { s.mip with
        sti := s.mip.sti || (s.cfg.has .s
          && decide (((writeTimeLow .s v s).clock.time .s).setWidth 32 = s.clock.timecmp .s)) }
      ∧ (writeTimeLow .u v s).mip = s.mip := by
  refine ⟨?_, ?_, ?_, writeTimeLow_user_mip v s⟩ <;> rw [writeTimeLow_mip]
  case refine_1 => simp [ite_setTimer_m]
  case refine_2 => rw [ite_setTimer_h]; simp
  case refine_3 => rw [ite_setTimer_s]; simp

/-- Settles O25: the clock's other fields are untouched by definition; what is read back is a fact of the halves. -/
theorem timeRegisters : Obligations.TimeRegisters := by
  unfold Obligations.TimeRegisters
  intro s p v n
  obtain ⟨hm, hh, hs, hu⟩ := writeTimeLow_mip_levels v s
  refine ⟨⟨?_, ?_, ?_, ?_⟩, fun hc => time_advanceClock_writeTimeLow hc p v n, fun hc hv => ?_, rfl, rfl,
    rtc_setTime _ _ _, rtc_setTime _ _ _, fun q hq => ?_, fun q => ⟨timecmp_setTime _ _ _ _, timecmp_setTime _ _ _ _⟩,
    ⟨?_, ?_, ?_, ?_⟩, fun hv => ?_, fun hc hv => ?_⟩
  case refine_1 | refine_2 | refine_3 | refine_4 =>
    rintro rfl
    exact ⟨rfl, rfl⟩
  case refine_5 =>
    rw [time_writeTimeLow, time_writeTimeHigh, if_pos rfl, if_pos rfl]
    exact ⟨counterLow_setCounterLow hv _, counterHigh_setCounterLow hc _ _, counterHigh_setCounterHigh hc hv _,
      counterLow_setCounterHigh hc _ _⟩
  case refine_6 =>
    rw [time_writeTimeLow, time_writeTimeHigh, if_neg hq, if_neg hq]
    exact ⟨rfl, rfl⟩
  case refine_7 | refine_8 | refine_9 | refine_10 =>
    rintro rfl
    assumption
  case refine_11 =>
    exact ⟨_, _, rfl, rfl, rfl, counterLow_setCounterLow hv _, rfl, counterLow_setCounterLow hv _,
      fun hc => ⟨counterHigh_setCounterLow hc _ _, counterHigh_setCounterLow hc _ _⟩⟩
  case refine_12 =>
    exact ⟨_, _, rfl, rfl, rfl, counterHigh_setCounterHigh hc hv _, rfl, counterHigh_setCounterHigh hc hv _,
      counterLow_setCounterHigh hc _ _, counterLow_setCounterHigh hc _ _⟩

/-! ### The timers (R471) -/

/-- The low 32 bits of a counter pass a value when they equal it at some tick, the one before the advance counted. -/
theorem passes_iff {now : Word} {cmp : BitVec 32} {n : Nat} :
    passes now cmp n = true ↔ 1 ≤ n ∧ ∃ k ≤ n, (now + BitVec.ofNat 64 k).setWidth 32 = cmp := by
  have hlow : ∀ k, (now + BitVec.ofNat 64 k).setWidth 32 = now.setWidth 32 + BitVec.ofNat 32 k := fun k => by
    rw [BitVec.setWidth_add _ _ (by decide), BitVec.setWidth_ofNat_of_le (by decide)]
  simp only [passes, Bool.and_eq_true, decide_eq_true_eq, hlow]
  refine and_congr_right fun _ => ⟨fun h => ⟨_, h, ?_⟩, ?_⟩
  · rw [BitVec.ofNat_toNat, BitVec.setWidth_eq, add_sub_cancel]
  · rintro ⟨k, hk, rfl⟩
    rw [add_sub_cancel_left, BitVec.toNat_ofNat]
    exact (Nat.mod_le _ _).trans hk

/-- Settles O44: the tick before the advance set apart from the others. -/
theorem timerPasses : Obligations.TimerPasses := by
  unfold Obligations.TimerPasses
  intro armed now cmp n
  have hzero : (∃ k ≤ n, (now + BitVec.ofNat 64 k).setWidth 32 = cmp) ↔ now.setWidth 32 = cmp
      ∨ ∃ k, 1 ≤ k ∧ k ≤ n ∧ (now + BitVec.ofNat 64 k).setWidth 32 = cmp := by
    constructor
    · rintro ⟨k, hk, heq⟩
      obtain rfl | hpos := Nat.eq_zero_or_pos k
      · exact .inl (by simpa using heq)
      · exact .inr ⟨k, hpos, hk, heq⟩
    · rintro (heq | ⟨k, -, hk, heq⟩)
      · exact ⟨0, Nat.zero_le n, by simpa using heq⟩
      · exact ⟨k, hk, heq⟩
  rw [fires, Bool.or_eq_true, passes_iff, hzero, Bool.and_eq_true, decide_eq_true_eq,
    and_comm (a := armed = true), ← and_or_left, or_comm]

/-! ### The outside (10_state.md R30) -/

theorem updatedExtras_length (c : Config) (draw k : Nat) (es : List ExtraCsr) (vs : List Word) :
    (updatedExtras c draw k es vs).length = vs.length := by
  induction es generalizing k vs with
  | nil => rfl
  | cons e es ih =>
    cases vs with
    | nil => rfl
    | cons v vs => exact congrArg (· + 1) (ih (k + 1) vs)

/-- Other agents leave an added register that is not theirs to write. -/
theorem updatedExtras_getElem? {c : Config} {draw : Nat} {j : Nat} {e : ExtraCsr} (hext : e.external = false)
    (k : Nat) (es : List ExtraCsr) (vs : List Word) (he : es[j]? = some e) :
    (updatedExtras c draw k es vs)[j]? = vs[j]? := by
  induction es generalizing j k vs with
  | nil => cases he
  | cons d es ih =>
    cases vs with
    | nil => rfl
    | cons v vs =>
      cases j with
      | zero =>
        obtain rfl : d = e := Option.some.inj he
        simp [updatedExtras, hext]
      | succ j => exact ih (k + 1) vs he

theorem keptEntries_sublist (draw k : Nat) (l : List TcEntry) : (keptEntries draw k l).Sublist l := by
  induction l generalizing k with
  | nil => exact .slnil
  | cons e l ih =>
    unfold keptEntries
    split
    · exact (ih (k + 1)).cons_cons e
    · exact (ih (k + 1)).cons e

/-- The real-time value and the count of boundaries it stands still for, which only the outside moves (R470). -/
def realTime (s : State) : Word × Nat :=
  (s.clock.rtc, s.clock.hold)

theorem realTime_eq_of_clock {s t : State} (h : t.clock = s.clock) : realTime t = realTime s := by
  rw [realTime, h, realTime]

theorem realTime_sameButPaging {s t : State} (h : SameButPaging s t) : realTime t = realTime s := by
  rw [h]
  rfl

theorem realTime_raiseException (code : BitVec 4) (bad : Option Word) (s : State) :
    realTime (raiseException code bad s) = realTime s :=
  realTime_eq_of_clock (enterTrap_clock _ _ _ _ _ s)

theorem realTime_csrWrite {s t : State} {r : Csr} {v : Word} (h : csrWrite s r v = .ok t) :
    realTime t = realTime s := by
  rcases csrWrite_ok h with ⟨-, hw⟩ | hw | ⟨mask, bits, rfl⟩ | ⟨k, -, rfl⟩ | hsame
  · obtain ⟨rfl, -⟩ := writeMstatus_ok.1 hw
    rfl
  · obtain ⟨rfl, -⟩ := writeMstatus_ok.1 hw
    rfl
  · rfl
  · exact realTime_eq_of_clock (writeExtra_clock s k v)
  · rw [hsame]
    rfl

theorem realTime_csrInstr {rd : Reg} {a : CsrAddr} {w : Bool} {new : Word → Word} {s t : State}
    (h : csrInstr rd a w new s = .next t) : realTime t = realTime s := by
  have hrest (u : State) (v : Word) : realTime (u.writeReg rd v).advance = realTime u :=
    realTime_eq_of_clock (writeReg_clock u rd v)
  rcases csrInstr_completes h with rfl | ⟨u, v, rfl, rfl | ⟨r, value, -, hwrite⟩⟩
  · exact realTime_raiseException 2 none s
  · exact hrest u v
  · exact (hrest u v).trans (realTime_csrWrite hwrite)

/-- No instruction moves the real-time value. -/
theorem realTime_exec {i : Instr} {s t : State} (h : exec i s = .next t) : realTime t = realTime s := by
  have htrap := realTime_raiseException 2 none s
  cases i
  case csrrw | csrrs | csrrc | csrrwi | csrrsi | csrrci =>
    rw [exec_csrUse rfl] at h
    exact realTime_csrInstr h
  case ecall | ebreak | hrts =>
    cases h
    exact realTime_raiseException _ _ s
  case eret =>
    rcases execEret_next h with ⟨-, rfl⟩ | ⟨-, -, rfl⟩
    · exact htrap
    · rfl
  case mrts =>
    rcases execMrts_next h with rfl | ⟨-, -, rfl⟩
    · exact htrap
    · exact realTime_eq_of_clock (redirectTrap_clock _ _ s)
  case mrth =>
    rcases execMrth_next h with rfl | ⟨-, -, rfl⟩
    · exact htrap
    · exact realTime_eq_of_clock (redirectTrap_clock _ _ s)
  case wfi =>
    rcases execWfi_next h with rfl | hsame
    · exact htrap
    · exact realTime_eq_of_clock (by rw [hsame])
  case sfenceVm =>
    rcases execSfenceVm_next h with rfl | hsame
    · exact htrap
    · exact realTime_eq_of_clock (by rw [hsame])

theorem realTime_interruptAtBoundary {s t : State} (h : interruptAtBoundary s = some t) : realTime t = realTime s := by
  unfold interruptAtBoundary at h
  split at h
  · cases h
    exact realTime_eq_of_clock (s := s) rfl
  · obtain ⟨i, -, rfl⟩ := Option.map_eq_some_iff.1 h
    exact realTime_eq_of_clock (enterTrap_clock _ _ _ _ _ s)

/-- Only the outside moves the real-time value in a step. -/
theorem realTime_of_step {s t : State} (h : step s = .next t) : ∃ u, t = environment u ∧ realTime u = realTime s := by
  obtain ⟨u, rfl, hint | ⟨-, -, rfl⟩ | ⟨-, -, v, rfl, hrun⟩⟩ := cycle_next h
  · exact ⟨u, rfl, realTime_interruptAtBoundary hint⟩
  · exact ⟨_, rfl, rfl⟩
  · refine ⟨_, rfl, ?_⟩
    change realTime v = realTime s
    rcases hrun with ⟨code, bad, s1, hfetch, rfl⟩ | ⟨addrs, s1, hfetch, hdecoded⟩
    · rw [realTime_raiseException]
      exact realTime_sameButPaging (fetchPath_trap hfetch).1
    · have hpaging : realTime s1 = realTime s := realTime_sameButPaging (fetchPath_done hfetch).1
      rcases runDecoded_next hdecoded with ⟨i, -, -, hexec⟩ | rfl
      · exact (realTime_exec hexec).trans hpaging
      · exact (realTime_raiseException 2 none s1).trans hpaging

theorem ticks_eq_zero {s : State} (h : s.clock.hold ≠ 0) : ticks s = 0 := if_neg h

theorem one_le_ticks {s : State} (h : s.clock.hold = 0) : 1 ≤ ticks s := by
  rw [ticks, if_pos h]
  omega

theorem environment_rtc (s : State) : (environment s).clock.rtc = s.clock.rtc + BitVec.ofNat 64 (ticks s) := by
  rw [environment_clock]
  rfl

/-- While the real-time value stands still, the count of boundaries goes down. -/
theorem environment_hold {s : State} (h : s.clock.hold ≠ 0) : (environment s).clock.hold + 1 = s.clock.hold := by
  rw [environment_clock]
  simp only [h, if_false]
  omega

/-- Settles O45: the outside's parts, and a step that leaves the real-time value to them. -/
theorem environmentFrame : Obligations.EnvironmentFrame := by
  unfold Obligations.EnvironmentFrame
  refine ⟨fun s => ⟨ticks s, ?_⟩, fun s t h => ?_⟩
  · refine ⟨environment_frame s, ?_, one_le_ticks, fun h => ⟨ticks_eq_zero h, environment_hold h⟩, ?_, ?_, ?_, ?_, ?_,
      ?_, ?_, ?_, ?_, ?_, ?_, ?_, ?_, ?_⟩
    case refine_1 =>
      rw [environment_clock]
      rfl
    case refine_2 | refine_7 | refine_8 =>
      rw [environment_mip]
      rfl
    case refine_3 | refine_4 | refine_5 | refine_6 =>
      intro hlevel
      rw [environment_mip]
      simp [advanceClock, hlevel]
    case refine_9 =>
      intro hremote
      rw [environment_mip]
      simp [hremote]
    case refine_10 =>
      rw [environment_mip]
      exact maskedWrite_xor_old _ _ _
    case refine_11 =>
      rw [environment_extra]
      exact updatedExtras_length _ _ _ _ _
    case refine_12 =>
      intro k e he hext
      rw [environment_extra]
      exact updatedExtras_getElem? hext 0 _ _ he
    case refine_13 | refine_14 =>
      intro hn
      simp [environment_nmiPending, hn]
    case refine_15 =>
      rw [environment_tc]
      exact keptEntries_sublist _ _ _
  · obtain ⟨u, rfl, hu⟩ := realTime_of_step h
    obtain ⟨hrtc, hhold⟩ := Prod.mk.inj hu
    rw [environment_rtc, ← hrtc, ← hhold]
    refine ⟨fun hne => ⟨?_, environment_hold hne⟩, fun hzero => ⟨ticks u, one_le_ticks hzero, rfl⟩⟩
    rw [ticks_eq_zero hne]
    exact BitVec.add_zero _

end Sys2Proof.Machine
end

section
/-!
The register file (10_state.md R32) and the reset event (70_reset_and_hazards.md R490): what reset fixes, and that the
state after reset is legal.
-/

namespace Sys2Proof.Machine

/-! ### The register file -/

@[simp] theorem readReg_zero (s : State) : s.readReg 0 = 0 := if_pos rfl

theorem readReg_of_ne_zero {r : Reg} (h : r ≠ 0) (s : State) : s.readReg r = s.x.get r := if_neg h

theorem writeReg_zero (s : State) (v : Word) : s.writeReg 0 v = s := if_pos rfl

theorem writeReg_get {r : Reg} (h : r ≠ 0) (s : State) (v : Word) (q : Reg) :
    (s.writeReg r v).x.get q = if r.val = q.val then s.cfg.trunc v else s.x.get q := by
  rw [State.writeReg, if_neg h]
  exact Vector.getElem_set r.isLt q.isLt

theorem readReg_writeReg (s : State) (r q : Reg) (v : Word) :
    (s.writeReg r v).readReg q = if q = r ∧ r ≠ 0 then s.cfg.trunc v else s.readReg q := by
  by_cases hr : r = 0
  · rw [hr, writeReg_zero, if_neg (by simp)]
  · by_cases hq : q = 0
    · rw [hq, readReg_zero, readReg_zero, if_neg fun h => hr h.1.symm]
    · rw [readReg_of_ne_zero hq, readReg_of_ne_zero hq, writeReg_get hr]
      simp [hr, Fin.ext_iff, eq_comm]

/-- Settles O8: what a read returns after a write, and the write's frame. -/
theorem registerFile : Obligations.RegisterFile := by
  unfold Obligations.RegisterFile
  exact fun s r q v => ⟨readReg_zero s, readReg_writeReg s r q v, writeReg_frame s r v⟩

/-! ### What reset fixes -/

theorem resetMtvec_low {c : Config} (h : c.mtvecReset = .low) :
    c.resetMtvec.toNat = 0x100 ∧ c.resetVector.toNat = 0x200 := by
  unfold Config.resetVector Config.resetMtvec Config.trunc
  rw [h]
  cases c.isRv32 <;> decide

theorem resetMtvec_high {c : Config} (h : c.mtvecReset = .high) :
    c.resetMtvec.toNat = 2 ^ c.xlen - 0x200 ∧ c.resetVector.toNat = 2 ^ c.xlen - 0x100 := by
  unfold Config.resetVector Config.resetMtvec Config.trunc
  rw [h]
  rcases width_cases c with ⟨hc, hx⟩ | ⟨hc, hx⟩ <;> rw [hc, hx] <;> decide

/-- Settles O55: `mtvec` and `pc` at both of R490's places; the rest is in the definition. -/
theorem resetFixes : Obligations.ResetFixes := by
  unfold Obligations.ResetFixes
  exact fun s => ⟨rfl, rfl, rfl, rfl, resetMtvec_low, resetMtvec_high, rfl, rfl, rfl⟩

/-! ### The state after reset is legal -/

theorem resetVector_fits (c : Config) : fits c c.resetVector = true := fits_trunc _ _

theorem resetVector_mod (c : Config) : c.resetVector.toNat % c.ialignBytes = 0 :=
  trunc_add_mod (mod_ialign_of_mod_four (mod_four_of_alignTvec (alignTvec_resetMtvec c))) (by decide)

theorem trapRegsOk_zero (c : Config) : trapRegsOk c TrapRegs.zero = true :=
  trapRegsOk_iff.2 ⟨fits_zero c, alignEpc_zero c, fits_zero c⟩

theorem intBitsOk_none (c : Config) : intBitsOk c IntBits.none = true :=
  intBitsOk_iff.2 ⟨fun _ => ⟨rfl, rfl⟩, fun _ => ⟨rfl, rfl⟩, BitVec.zero_and⟩

/-- The current mode after reset is M; the other entries name U, which an M-only configuration, where the first of them
is hard-wired to M, does not ask for. -/
theorem mstatusOk_ofReset (c : Config) : mstatusOk c (State.ofReset c).mstatus = true := by
  have hstack : Mstatus.hardwireStack c (State.ofReset c).mstatus = (State.ofReset c).mstatus := by
    by_cases hm : c.modes = .m <;> simp [Mstatus.hardwireStack, StackEntry.hardwire, State.ofReset, hm]
  have hprv1 : c.has (State.ofReset c).mstatus.e1.prv = true := by
    by_cases hm : c.modes = .m
    · simp [State.ofReset, hm]
    · simpa [State.ofReset, hm] using has_u_of_live hm
  have hdeep : 3 ≤ c.depth → c.has .u = true := fun h =>
    has_u_of_live fun hm => absurd h (by simp [Config.depth, hm])
  have hvm : c.vmSupported 0 = true := by simp [Config.vmSupported]
  exact mstatusOk_iff.2 ⟨hstack, fun _ => rfl, fun _ => rfl, hvm,
    modesOk_iff.2 ⟨has_m c, hprv1, hdeep, fun h => hdeep (by omega)⟩⟩

theorem inv_ofReset {c : Config} (hc : c.valid = true) : Inv (State.ofReset c) where
  cfg := hc
  mem := rfl
  regs := regsFit_iff.2 fun i => by simp [State.ofReset]
  pc := pcOk_iff.2 ⟨resetVector_fits c, resetVector_mod c⟩
  mstatus := mstatusOk_ofReset c
  trapM := trapRegsOk_zero c
  trapH := trapRegsOk_zero c
  trapS := trapRegsOk_zero c
  mip := intBitsOk_none c
  mie := intBitsOk_none c
  vectors := by simp [vectorsOk, State.ofReset]
  delegation := by simp [delegationOk, State.ofReset]
  paging := by simp [pagingOk, State.ofReset]
  fcsr := by simp [fcsrOk, State.ofReset]
  extras := by simp [extrasOk, State.ofReset]

theorem recommended_valid : Config.recommended.valid = true := by decide

/-- Settles O56: the reset state field by field. -/
theorem resetLegal : Obligations.ResetLegal := by
  unfold Obligations.ResetLegal
  exact ⟨inv_ofReset recommended_valid, fun c hc => inv_ofReset hc⟩

end Sys2Proof.Machine
end
